-- ==== Sys2Proof/Word.lean ====
section
/-! DEFINITION. The word types of HUFFCORE (R4, R6) and the one table constructor the state uses. -/

namespace Sys2Proof

/-- A host register or the command word: `CSR_W` = 32 bits (R4). -/
abbrev Word := BitVec 32

/-- A symbol: `SYM_W` = 8 bits, unsigned order (R4, R9). -/
abbrev Symbol := BitVec 8

/-- A node handle: `HANDLE_W` = 9 bits (R4). -/
abbrev Handle := BitVec 9

/-- One bit of a stream or of a code (R5): `false` is 0, `true` is 1. -/
abbrev Bit := Bool

/-- The opcode field `OPC` of a command word (R60). -/
abbrev Opcode := BitVec 8

/-- The table of `n` entries whose entry `i` is `f i`. -/
def tabulate {α : Type} (n : Nat) (f : Nat → α) : Vector α n :=
  ⟨((List.range n).map f).toArray, by simp⟩

@[simp] theorem getElem_tabulate {α : Type} (n : Nat) (f : Nat → α) (i : Nat) (h : i < n) :
    (tabulate n f)[i] = f i := by
  simp [tabulate]

end Sys2Proof
end

