-- ==== Sys2Proof/Machine/Tables.lean ====
section
/-! DEFINITION. The entries of the tables `NODE` and `CODE`, and the parameters of the marker (R28, R30, R4). -/

namespace Sys2Proof.Machine

/-- One entry of the node arena (R28). `leaf = false` is the document's sentinel "no symbol". -/
structure Node where
  leaf   : Bool
  sym    : Symbol
  weight : Word
  left   : Handle
  right  : Handle
  deriving DecidableEq, Repr, Inhabited

/-- One entry of the Code Table (R30): `valid`, and the bit sequence `bits`, root-most step first. The field `len` of R30 is
the length of `bits`, so it is computed (`CodeEntry.len`), not stored twice. -/
structure CodeEntry where
  valid : Bool
  bits  : List Bit
  deriving DecidableEq, Repr, Inhabited

/-- `CODE[s].len` (R30): the length of the code in bits. -/
def CodeEntry.len (e : CodeEntry) : Nat := e.bits.length

/-- The open parameters `MARKER_W` and `MARKER_VAL` (R4, U1): an input of a run (R35). -/
structure Marker where
  width : Nat
  value : Word
  deriving DecidableEq, Repr, Inhabited

end Sys2Proof.Machine
end

