-- ==== Sys2Proof/Config.lean ====
section
/-! DEFINITION. The constants of this hardware (R4) and its free values: what the spec leaves unspecified is an opaque constant
without a body, applied to a counter of State (log 1, 2, 8, 9). -/

namespace Sys2Proof.Config

open Sys2Proof.Machine

/-- `SYM_W` (R4). -/
abbrev symW : Nat := 8
/-- `ALPHABET` (R4). -/
abbrev alphabet : Nat := 256
/-- `LEN_W` (R4). -/
abbrev lenW : Nat := 32
/-- `NODE_MAX` (R4): capacity of the node arena. -/
abbrev nodeMax : Nat := 511
/-- `NIL` (R4): the handle that means "child absent". -/
abbrev nil : Handle := 511#9
/-- `CODE_MAXLEN` (R4). -/
abbrev codeMaxLen : Nat := 255
/-- `PAD_BIT` (R4). -/
abbrev padBit : Bit := false

/-- Every symbol in ascending order: the loops "for s from 0 to 255" (R75, R81, R88, R90). -/
def allSymbols : List Symbol := (List.range alphabet).map (BitVec.ofNat symW)

/-- The free content of `FREQ[i]` after the draw numbered `draw` (R34, U5). -/
opaque unwrittenCount (draw i : Nat) : Word
/-- The free content of `NODE[i]` after the draw numbered `draw` (R34, U5). -/
opaque unwrittenNode (draw i : Nat) : Node
/-- The free content of `CODE[i]` after the draw numbered `draw` (R34, U5). -/
opaque unwrittenCode (draw i : Nat) : CodeEntry
/-- The free value a window read of something not valid returns (R26, U6). -/
opaque unspecifiedRead (draw : Nat) : Word
/-- The free symbol at index `i` of a `SIN` that the host did not supply that far (R154 duty 2). -/
opaque undefinedSymbol (seed i : Nat) : Symbol
/-- The free bit at index `i` of a `BIN` that the host did not supply that far (R154 duty 2). -/
opaque undefinedBit (seed i : Nat) : Bit
/-- How many of the items a command appends are appended before a reset abandons it (R150). -/
opaque abandonPoint (draw : Nat) : Nat

end Sys2Proof.Config
end

