-- ==== Sys2Proof/Machine/HostAction.lean ====
section
/-! DEFINITION. What the host can do to the engine between two commands (R12, R65, R150, R152). -/

namespace Sys2Proof.Machine

/-- One host action. A program is a list of them (R65, R157). -/
inductive HostAction where
  /-- `WR`: a 32-bit write to the register at a byte address; at `CMD` it issues a command (R12, R13, R65). -/
  | wr (addr : BitVec 8) (value : Word)
  /-- `RD`: a 32-bit read of the register at a byte address (R12, R65). -/
  | rd (addr : BitVec 8)
  /-- Hardware reset while no command runs (R150). -/
  | reset
  /-- The host writes `cmd` to `CMD` and reset is asserted before the command's outcome: the command is abandoned (R150). -/
  | resetDuring (cmd : Word)
  /-- The host makes the input symbol sequence available (R35, R152). -/
  | supplySin (xs : List Symbol)
  /-- The host makes the input bit sequence available (R35, R152). -/
  | supplyBin (bs : List Bit)
  deriving DecidableEq, Repr

end Sys2Proof.Machine
end

