-- ==== Sys2Proof/Syntax.lean ====
section
/-! DEFINITION. The commands: one constructor per row of spec/opcode_table.json (R61). No command word carries an operand (R63). -/

namespace Sys2Proof

/-- A command of HUFFCORE (R61). -/
inductive Instr where
  | nop
  | rst
  | count
  | build
  | gencodes
  | calclen
  | sttree
  | ldtree
  | ldtreeb
  | encode
  | decn
  | decl
  | wrmark
  | rdmark
  | wrhlen
  | rdhlen
  | wrplen
  | rdplen
  | pad
  deriving DecidableEq, Repr

end Sys2Proof
end

