-- ==== Sys2Proof/WellFormed.lean ====
section
/-! DEFINITION. Well-formedness of what is handed to the engine: commands, host actions, the marker parameters (R4, R12, R63). -/

namespace Sys2Proof

/-- Every command is well formed: no command word carries an operand that could be out of range (R63). -/
def Instr.wf : Instr → Bool
  | .nop | .rst | .count | .build | .gencodes | .calclen | .sttree | .ldtree | .ldtreeb | .encode | .decn | .decl
  | .wrmark | .rdmark | .wrhlen | .rdhlen | .wrplen | .rdplen | .pad => true

namespace Machine

/-- A register access is of a whole aligned 32-bit word (R12): its byte address is a multiple of 4. -/
def aligned (addr : BitVec 8) : Bool := addr.toNat % 4 == 0

/-- A host action that the hardware has (R12, U11): an access of the register file is aligned. -/
def HostAction.wf : HostAction → Bool
  | .wr addr _ => aligned addr
  | .rd addr => aligned addr
  | .reset | .resetDuring _ | .supplySin _ | .supplyBin _ => true

/-- The ranges of `MARKER_W` and `MARKER_VAL` (R4). -/
def Marker.wf (m : Marker) : Bool := decide (m.width ≤ 32) && decide (m.value.toNat < 2 ^ m.width)

end Machine
end Sys2Proof
end

