-- ==== Sys2Proof/Decode.lean ====
section
/-! DEFINITION. Decoding and encoding of the command word (R60 to R62). -/

namespace Sys2Proof

/-- Why a word is no command (R62). -/
inductive DecodeReject where
  /-- `c[31:8]` is not zero. -/
  | upperBitsNotZero
  /-- `c[31:8]` is zero and `OPC` is not in the opcode map. -/
  | reservedOpcode
  deriving DecidableEq, Repr

/-- The opcode map of R61, row by row. -/
def opcodeMap : List (Opcode × Instr) :=
  [(0x00, .nop), (0x01, .rst)] ++
  [(0x10, .count), (0x11, .build), (0x12, .gencodes), (0x13, .calclen)] ++
  [(0x20, .sttree), (0x21, .ldtree), (0x22, .ldtreeb)] ++
  [(0x30, .encode), (0x31, .decn), (0x32, .decl)] ++
  [(0x40, .wrmark), (0x41, .rdmark), (0x42, .wrhlen), (0x43, .rdhlen), (0x44, .wrplen), (0x45, .rdplen), (0x46, .pad)]

/-- Field `OPC = c[7:0]` of a command word (R13, R60). -/
def opcField (c : Word) : Opcode := c.extractLsb' 0 8

/-- Field `ZERO = c[31:8]` of a command word (R60). -/
def zeroField (c : Word) : BitVec 24 := c.extractLsb' 8 24

/-- The row of the opcode map with a given opcode, if there is one. -/
def lookupOpcode (opc : Opcode) : Option Instr := (opcodeMap.find? (fun row => row.1 == opc)).map Prod.snd

/-- The decoder of R61: "if `c[31:8] != 0` then illegal else look `OPC` up in this table, else illegal". -/
def decode (c : Word) : Except DecodeReject Instr :=
  if zeroField c = 0 then
    match lookupOpcode (opcField c) with
    | some i => .ok i
    | none => .error .reservedOpcode
  else .error .upperBitsNotZero

/-- The opcode of a command (R61). -/
def opcodeOf : Instr → Opcode
  | .nop => 0x00
  | .rst => 0x01
  | .count => 0x10
  | .build => 0x11
  | .gencodes => 0x12
  | .calclen => 0x13
  | .sttree => 0x20
  | .ldtree => 0x21
  | .ldtreeb => 0x22
  | .encode => 0x30
  | .decn => 0x31
  | .decl => 0x32
  | .wrmark => 0x40
  | .rdmark => 0x41
  | .wrhlen => 0x42
  | .rdhlen => 0x43
  | .wrplen => 0x44
  | .rdplen => 0x45
  | .pad => 0x46

/-- The command word of a command (R60, R61): `OPC` in bits 7:0, zeros above. -/
def encode (i : Instr) : Word := (0#24) ++ opcodeOf i

/-- The command the decoder reads from the bits of `w`, `nbits` of them, the bits above zero. -/
def decodeTableWord (nbits w : Nat) : Option Instr :=
  let v := w % 2 ^ nbits
  if v < 2 ^ 32 then
    match decode (BitVec.ofNat 32 v) with
    | .ok i => some i
    | .error _ => none
  else none

end Sys2Proof
end

