-- ==== Sys2Proof/Machine/State.lean ====
section
/-! DEFINITION. The state of HUFFCORE as plain data (R10 to R35), the reasons a step stops, and the state after reset (R151). -/

namespace Sys2Proof.Machine

/-- The fault kinds of the engine (R130). Raising one is a NEXT state (R131), not a stop of the model. -/
inductive FaultKind where
  | emptyInput
  | unknownSymbol
  | truncatedStream
  | malformedHeader
  | unterminatedCode
  | illegalCommand
  | badSequence
  | capacityExceeded
  deriving DecidableEq, Repr

/-- The fields of `STATUS` (R14). The register is host read only and its reserved bits read 0, so the fields are all of it;
the word the host reads is `Status.toWord`. -/
structure Status where
  busy  : Bool
  done  : Bool
  fault : Bool
  freqV : Bool
  treeV : Bool
  codeV : Bool
  lenV  : Bool
  deriving DecidableEq, Repr

/-- The fields of `ERR` (R15): the kind of the recorded fault (`none` is code 0, no fault recorded) and its opcode. -/
structure Err where
  kind : Option FaultKind
  opc  : Opcode
  deriving DecidableEq, Repr

/-- The fields of `TREEINFO` (R25). -/
structure TreeInfo where
  root    : Handle
  nodeCnt : BitVec 9
  leafCnt : BitVec 9
  deriving DecidableEq, Repr

/-- The fields of `TBL_ADDR` (R26). -/
structure TblAddr where
  sel  : BitVec 2
  idx  : BitVec 9
  word : BitVec 4
  deriving DecidableEq, Repr

/-- An indexed, read-only input sequence (R41, R43): what the host supplied, and the number that names the free values read
at indexes beyond it (log 2). -/
structure Input (α : Type) where
  given : List α
  seed  : Nat
  deriving DecidableEq, Repr

/-- The whole machine: host registers (R12), tables (R27, R28, R30), streams and marker parameters (R35), and the model's own
fields `program`, `hostReads`, `freeCtr` (log 1, 3, 4). -/
structure State where
  status    : Status
  err       : Err
  errInfo   : Word
  sinLen    : Word
  binLen    : Word
  rcur      : Word
  wcnt      : Word
  soutCnt   : Word
  symCount  : Word
  hdrBits   : Word
  payBits   : Word
  treeInfo  : TreeInfo
  tblAddr   : TblAddr
  freq      : Vector Word 256
  nodes     : Vector Node 511
  codes     : Vector CodeEntry 256
  sin       : Input Symbol
  bin       : Input Bit
  bout      : List Bit
  sout      : List Symbol
  marker    : Marker
  program   : List HostAction
  hostReads : List Word
  freeCtr   : Nat
  deriving DecidableEq, Repr

/-- The model stops: only in states no run from reset reaches, whose arena is no tree although `TREE_V` = 1 (log 6). -/
inductive Fault where
  /-- Raised by `GENCODES`, `STTREE`, `DECN`, `DECL` on handle 511, which names no entry of `NODE` (R28, R40). Safe. -/
  | noSuchNode
  /-- Raised by `GENCODES`, `STTREE` when the walk nests deeper than the 511 nodes there are, so that the arena has a cycle and
  the walk never ends (R29, R156). Safe. -/
  | walkUnbounded
  deriving DecidableEq, Repr

/-- The model declines. -/
inductive Refusal where
  /-- Raised by a refused arm of `exec` for an instruction without a meaning (there is none). Safe. -/
  | notModelled (mnemonic : String)
  /-- Raised by the step for a host access while `STATUS.BUSY` = 1, which is undefined (R154, U9). Safe. -/
  | accessWhileBusy
  /-- Raised by the step for a register access at an address that is no multiple of 4, which the hardware does not have
  (R12, R48, U11). Safe. -/
  | unalignedAccess
  deriving DecidableEq, Repr

/-- The outcome of a step or of a command. -/
abbrev Outcome := Host.Outcome State Fault Refusal

/-- `FREQ` with unspecified content (R34, U5): one free value per entry. -/
def unspecifiedFreq (draw : Nat) : Vector Word 256 := tabulate 256 (Config.unwrittenCount draw)

/-- `NODE` with unspecified content (R34, U5): one free value per entry. -/
def unspecifiedNodes (draw : Nat) : Vector Node 511 := tabulate 511 (Config.unwrittenNode draw)

/-- `CODE` with unspecified content (R34, U5): one free value per entry. -/
def unspecifiedCodes (draw : Nat) : Vector CodeEntry 256 := tabulate 256 (Config.unwrittenCode draw)

/-- `STATUS` after hardware reset (R151). -/
def Status.reset : Status := ⟨false, false, false, false, false, false, false⟩

/-- The machine right after hardware reset (R151), nothing supplied by the host yet and no host action pending. -/
def State.reset : State where
  status    := Status.reset
  err       := ⟨none, 0⟩
  errInfo   := 0
  sinLen    := 0
  binLen    := 0
  rcur      := 0
  wcnt      := 0
  soutCnt   := 0
  symCount  := 0
  hdrBits   := 0
  payBits   := 0
  treeInfo  := ⟨0, 0, 0⟩
  tblAddr   := ⟨0, 0, 0⟩
  freq      := unspecifiedFreq 0
  nodes     := unspecifiedNodes 0
  codes     := unspecifiedCodes 0
  sin       := ⟨[], 0⟩
  bin       := ⟨[], 0⟩
  bout      := []
  sout      := []
  marker    := ⟨0, 0⟩
  program   := []
  hostReads := []
  freeCtr   := 1

end Sys2Proof.Machine
end

