-- ==== Sys2Proof/Machine/Flags.lean ====
section
/-! DEFINITION. The flags of `STATUS` (R14, R31): the word the host reads, the preconditions, and the writes of each flag. -/

namespace Sys2Proof.Machine

/-- `STATUS` as the host reads it (R14): bits 0 `BUSY`, 1 `DONE`, 2 `FAULT`, 4 `FREQ_V`, 5 `TREE_V`, 6 `CODE_V`, 7 `LEN_V`. -/
def Status.toWord (st : Status) : Word :=
  (0#24 ++ BitVec.ofBool st.lenV ++ BitVec.ofBool st.codeV ++ BitVec.ofBool st.treeV ++ BitVec.ofBool st.freqV ++
    0#1 ++ BitVec.ofBool st.fault ++ BitVec.ofBool st.done ++ BitVec.ofBool st.busy : BitVec 32)

/-- The column "reads (precondition, else `BadSequence`)" of R31. -/
def precondition : Instr → Status → Bool
  | .build, st => st.freqV
  | .gencodes, st => st.treeV
  | .calclen, st => st.freqV && st.treeV && st.codeV
  | .sttree, st => st.treeV
  | .encode, st => st.codeV
  | .decn, st => st.treeV
  | .decl, st => st.treeV
  | .wrhlen, st => st.lenV
  | .wrplen, st => st.lenV
  | .nop, _ | .rst, _ | .count, _ | .ldtree, _ | .ldtreeb, _ | .wrmark, _ | .rdmark, _ | .rdhlen, _ | .rdplen, _
  | .pad, _ => true

/-- `STATUS.LEN_V <- 0`. -/
def clearLen (s : State) : State := { s with status := { s.status with lenV := false } }

/-- `STATUS.CODE_V <- 0 ; STATUS.LEN_V <- 0` (R88). -/
def clearCodeLen (s : State) : State := { s with status := { s.status with codeV := false, lenV := false } }

/-- `STATUS.TREE_V <- 0 ; STATUS.CODE_V <- 0 ; STATUS.LEN_V <- 0` (R81, R98). -/
def clearTreeCodeLen (s : State) : State :=
  { s with status := { s.status with treeV := false, codeV := false, lenV := false } }

/-- `STATUS.FREQ_V <- 1` (R75). -/
def setFreqV (s : State) : State := { s with status := { s.status with freqV := true } }

/-- `STATUS.TREE_V <- 1` (R81, R98). -/
def setTreeV (s : State) : State := { s with status := { s.status with treeV := true } }

/-- `STATUS.CODE_V <- 1` (R88). -/
def setCodeV (s : State) : State := { s with status := { s.status with codeV := true } }

/-- `STATUS.LEN_V <- 1` (R90). -/
def setLenV (s : State) : State := { s with status := { s.status with lenV := true } }

end Sys2Proof.Machine
end

