-- ==== Sys2Proof/Machine/Ops.lean ====
section
/-! DEFINITION. The access primitives (R41 to R46), the outcomes of a command (R8, R13), taking a fault (R131) and leaving the
fault state (R118, R133, R150). -/

namespace Sys2Proof.Machine

/-! ## The streams -/

/-- `SIN[i]`: what the host supplied at index `i`, else a free symbol (log 2). -/
def sinAt (inp : Input Symbol) (i : Nat) : Symbol :=
  match inp.given[i]? with
  | some v => v
  | none => Config.undefinedSymbol inp.seed i

/-- `BIN[i]`: what the host supplied at index `i`, else a free bit (log 2). -/
def binAt (inp : Input Bit) (i : Nat) : Bit :=
  match inp.given[i]? with
  | some b => b
  | none => Config.undefinedBit inp.seed i

/-- `SymRead(i)` (R41). -/
def symRead (s : State) (i : Nat) : Symbol := sinAt s.sin i

/-- The input symbols in order: `SymRead(i)` for `i` from 0 to `SIN_LEN - 1` (R75, R100). -/
def inputSymbols (s : State) : List Symbol := (List.range s.sinLen.toNat).map (symRead s)

/-- `SymWrite(v)` (R42). -/
def symWrite (v : Symbol) (s : State) : State := { s with sout := s.sout ++ [v], soutCnt := s.soutCnt + 1 }

/-- `ReadBit()` (R43): `none` is `EOS`, with no state change. -/
def readBit (s : State) : Option (Bit × State) :=
  if s.binLen.toNat ≤ s.rcur.toNat then none
  else some (binAt s.bin s.rcur.toNat, { s with rcur := s.rcur + 1 })

/-- `WriteBit(b)` (R44). -/
def writeBit (b : Bit) (s : State) : State := { s with bout := s.bout ++ [b], wcnt := s.wcnt + 1 }

/-- `WriteBit` of each bit of a sequence, element 0 first. -/
def writeBits : List Bit → State → State
  | [], s => s
  | b :: bs, s => writeBits bs (writeBit b s)

/-- The bit sequence of a fixed-width field: `w` bits of `v`, most significant first (R45, R70). -/
def intBits (v w : Nat) : List Bit := (List.range w).map (fun j => v.testBit (w - 1 - j))

/-- `WriteInt(v, w)` (R45). -/
def writeInt (v w : Nat) (s : State) : State := writeBits (intBits v w) s

/-- One more bit of `ReadInt`: `v <- 2*v + b` (R46). -/
def pushBit (v : Nat) (b : Bit) : Nat := 2 * v + b.toNat

/-- The loop of `ReadInt` with the value read so far (R46). -/
def readIntFrom : Nat → Nat → State → Option Nat × State
  | 0, v, s => (some v, s)
  | w + 1, v, s =>
    match readBit s with
    | none => (none, s)
    | some (b, s') => readIntFrom w (pushBit v b) s'

/-- `ReadInt(w)` (R46): `none` is `EOS`; the bits read before it stay read. -/
def readInt (w : Nat) (s : State) : Option Nat × State := readIntFrom w 0 s

/-! ## The tables -/

/-- `FREQ[s]` (R27). -/
def freqAt (t : Vector Word 256) (s : Symbol) : Word := t[s.toNat]'s.isLt

/-- `FREQ[s] <- v` (R27). -/
def setFreqAt (t : Vector Word 256) (s : Symbol) (v : Word) : Vector Word 256 := t.set s.toNat v s.isLt

/-- `CODE[s]` (R30). -/
def codeAt (t : Vector CodeEntry 256) (s : Symbol) : CodeEntry := t[s.toNat]'s.isLt

/-- `CODE[s] <- e` (R30). -/
def setCodeAt (t : Vector CodeEntry 256) (s : Symbol) (e : CodeEntry) : Vector CodeEntry 256 := t.set s.toNat e s.isLt

/-- `NODE[h]` (R28): there is no entry 511. -/
def nodeAt (t : Vector Node 511) (h : Handle) : Option Node := t[h.toNat]?

/-- `NODE[n] <- nd` (R28). -/
def setNodeAt (t : Vector Node 511) (n : Nat) (nd : Node) : Vector Node 511 := t.setIfInBounds n nd

/-- A leaf of the arena: both children absent (R28). -/
def leafNode (sym : Symbol) (weight : Word) : Node := ⟨true, sym, weight, Config.nil, Config.nil⟩

/-- An internal node of the arena; its `sym` reads 0 (R28, D8). -/
def innerNode (weight : Word) (left right : Handle) : Node := ⟨false, 0, weight, left, right⟩

/-! ## Acceptance and completion of a command -/

/-- Acceptance of a `CMD` write: `BUSY` is set (R14) and `DONE <- 0` (R13). -/
def accept (s : State) : State := { s with status := { s.status with busy := true, done := false } }

/-- Completion: `DONE <- 1`, and `BUSY` is cleared by the command's outcome (R8, R14). -/
def complete (s : State) : State := { s with status := { s.status with busy := false, done := true } }

/-! ## Taking a fault -/

/-- The codes of the fault kinds (R130). -/
def FaultKind.code : FaultKind → BitVec 4
  | .emptyInput => 1
  | .unknownSymbol => 2
  | .truncatedStream => 3
  | .malformedHeader => 4
  | .unterminatedCode => 5
  | .illegalCommand => 6
  | .badSequence => 7
  | .capacityExceeded => 8

/-- `raise K(info)` (R131): records the kind, bits [7:0] of the command word and `info`; `FAULT <- 1`, `DONE <- 0`; `BUSY` is
cleared by the command's outcome (R14). Everything written before stays. -/
def raise (opc : Opcode) (kind : FaultKind) (info : Word) (s : State) : State :=
  { s with
    err := ⟨some kind, opc⟩
    errInfo := info
    status := { s.status with busy := false, done := false, fault := true } }

/-! ## Leaving the fault state -/

/-- Hardware reset (R150, R151): every host register 0, the tables unspecified; the streams, the parameters and the host's
remaining actions are not the engine's and stay. -/
def hardReset (s : State) : State :=
  { s with
    status := Status.reset
    err := ⟨none, 0⟩
    errInfo := 0
    sinLen := 0
    binLen := 0
    rcur := 0
    wcnt := 0
    soutCnt := 0
    symCount := 0
    hdrBits := 0
    payBits := 0
    treeInfo := ⟨0, 0, 0⟩
    tblAddr := ⟨0, 0, 0⟩
    freq := unspecifiedFreq s.freeCtr
    nodes := unspecifiedNodes s.freeCtr
    codes := unspecifiedCodes s.freeCtr
    freeCtr := s.freeCtr + 1 }

/-- The effect of `RST` (R118): the state after hardware reset, but `DONE` = 1 (R34). -/
def softReset (s : State) : State := complete (hardReset s)

/-! ## Running a command -/

/-- How a procedure inside a command ends: it returns a value, it has raised a fault (R131), or the model stops (log 6). -/
inductive Res (α : Type) where
  | ok (a : α) (s : State)
  | raised (s : State)
  | stuck (f : Fault)

/-- Go on with the value and the state of a procedure that returned. -/
def Res.bind {α β : Type} (r : Res α) (k : α → State → Res β) : Res β :=
  match r with
  | .ok a s => k a s
  | .raised s => .raised s
  | .stuck f => .stuck f

/-- The outcome of a command whose procedure has ended (R8). -/
def Res.outcome (r : Res Unit) : Outcome :=
  match r with
  | .ok _ s => .next (complete s)
  | .raised s => .next s
  | .stuck f => .fault f

/-- A command word accepted by the front end, its opcode known: the order of tests of R134. While a fault is recorded the
command is ignored (R132); a missing precondition is `BadSequence` before any write (R31); else the command runs. -/
def command (i : Instr) (body : State → Res Unit) (s : State) : Outcome :=
  if s.status.fault then .next s
  else if precondition i s.status then (body (accept s)).outcome
  else .next (raise (opcodeOf i) .badSequence 0 (accept s))

end Sys2Proof.Machine
end

