-- ==== Sys2Proof/Machine/Builder.lean ====
section
/-! DEFINITION. The code-tree builder: `BUILD` (R80 to R84). -/

namespace Sys2Proof.Machine

/-- The weight of a node, by handle. -/
def weightAt (nodes : Vector Node 511) (h : Handle) : Nat :=
  match nodeAt nodes h with
  | some nd => nd.weight.toNat
  | none => 0

/-- The comparator `before(a, b)` (R80): weight ascending, then handle ascending. -/
def before (nodes : Vector Node 511) (a b : Handle) : Bool :=
  decide (weightAt nodes a < weightAt nodes b) ||
    (decide (weightAt nodes a = weightAt nodes b) && decide (a.toNat < b.toNat))

/-- The element of a queue that is before every other (R81). -/
def firstOf (nodes : Vector Node 511) : List Handle → Option Handle
  | [] => none
  | h :: rest =>
    match firstOf nodes rest with
    | none => some h
    | some m => if before nodes m h then some m else some h

/-- Removal of the first element of the queue: "`a <- the element of Q that is before every other ; Q <- Q without a`" (R81). -/
def removeFirst (nodes : Vector Node 511) (q : List Handle) : Option (Handle × List Handle) :=
  match firstOf nodes q with
  | none => none
  | some a => some (a, q.erase a)

/-- The working state of `BUILD` (R81, R33): the arena, the number `n` of nodes made so far, the queue. -/
structure Forest where
  nodes : Vector Node 511
  n     : Nat
  queue : List Handle
  deriving DecidableEq, Repr

/-- The symbols of the Frequency Map, ascending (R27): those with a count above 0. -/
def presentSymbols (freq : Vector Word 256) : List Symbol :=
  Config.allSymbols.filter (fun s => decide (0 < (freqAt freq s).toNat))

/-- The seed (R81): one leaf per present symbol, at handles counting up from `n`. -/
def seedLeaves (freq : Vector Word 256) : List Symbol → Nat → Vector Node 511 → Vector Node 511
  | [], _, nodes => nodes
  | s :: rest, n, nodes => seedLeaves freq rest (n + 1) (setNodeAt nodes n (leafNode s (freqAt freq s)))

/-- The forest before the first merge (R81): `k` leaves, the queue `{0, ..., k-1}`. -/
def seedForest (freq : Vector Word 256) (nodes : Vector Node 511) : Forest :=
  let present := presentSymbols freq
  { nodes := seedLeaves freq present 0 nodes
    n := present.length
    queue := (List.range present.length).map (BitVec.ofNat 9) }

/-- One turn of the loop "while `|Q| >= 2`" (R81): the first removed becomes the left child, the second removed the right. A
weight is a 32-bit value; no sum exceeds it (R83), and in states no run reaches it wraps (log 10). -/
def mergeOnce (f : Forest) : Forest :=
  match removeFirst f.nodes f.queue with
  | none => f
  | some (a, q1) =>
    match removeFirst f.nodes q1 with
    | none => f
    | some (b, q2) =>
      { nodes := setNodeAt f.nodes f.n
          (innerNode (BitVec.ofNat 32 (weightAt f.nodes a + weightAt f.nodes b)) a b)
        n := f.n + 1
        queue := q2 ++ [BitVec.ofNat 9 f.n] }

/-- `m` turns of the loop. -/
def mergeTimes : Nat → Forest → Forest
  | 0, f => f
  | m + 1, f => mergeTimes m (mergeOnce f)

/-- The forest `BUILD` ends with (R81): `k - 1` merges leave one element in the queue. -/
def buildForest (freq : Vector Word 256) (nodes : Vector Node 511) : Forest :=
  mergeTimes ((presentSymbols freq).length - 1) (seedForest freq nodes)

/-- The end of `BUILD` (R81): `ROOT` is the one element of the queue. -/
def finishBuild (s : State) : State :=
  let f := buildForest s.freq s.nodes
  setTreeV { s with
    nodes := f.nodes
    treeInfo :=
      { root := f.queue.headD Config.nil
        nodeCnt := BitVec.ofNat 9 f.n
        leafCnt := BitVec.ofNat 9 (presentSymbols s.freq).length } }

/-- `BUILD` (R81). -/
def execBuild (s : State) : Outcome :=
  command .build (fun s =>
    let s1 := clearTreeCodeLen s
    if (presentSymbols s1.freq).length = 0 then .raised (raise (opcodeOf .build) .emptyInput 0 s1)
    else .ok () (finishBuild s1)) s

end Sys2Proof.Machine
end

