-- ==== Sys2Proof/Machine/CodeTable.lean ====
section
/-! DEFINITION. The code-table generator: `GENCODES`, `CALCLEN` (R88 to R90). -/

namespace Sys2Proof.Machine

/-- `walk(h, p)` of R88: left first; a later leaf of the same symbol overwrites an earlier one. The first argument bounds the
nesting: a tree of the arena nests at most 511 deep (log 6). -/
def walkCodes (nodes : Vector Node 511) :
    Nat → Handle → List Bit → Vector CodeEntry 256 → Except Fault (Vector CodeEntry 256)
  | 0, _, _, _ => .error .walkUnbounded
  | d + 1, h, p, codes =>
    match nodeAt nodes h with
    | none => .error .noSuchNode
    | some nd =>
      if nd.leaf then .ok (setCodeAt codes nd.sym ⟨true, p⟩)
      else
        match walkCodes nodes d nd.left (p ++ [false]) codes with
        | .error e => .error e
        | .ok codes' => walkCodes nodes d nd.right (p ++ [true]) codes'

/-- `CODE` with every entry invalid: `valid = 0, len = 0, bits = ⟨⟩` (R88). -/
def noCodes : Vector CodeEntry 256 := Vector.replicate 256 ⟨false, []⟩

/-- The Code Table of the tree under `root` (R88); a lone leaf gets the 1-bit code `⟨0⟩`. -/
def codeTable (nodes : Vector Node 511) (root : Handle) : Except Fault (Vector CodeEntry 256) :=
  match nodeAt nodes root with
  | none => .error .noSuchNode
  | some nd =>
    if nd.leaf then .ok (setCodeAt noCodes nd.sym ⟨true, [false]⟩)
    else walkCodes nodes Config.nodeMax root [] noCodes

/-- `GENCODES` (R88). -/
def execGencodes (s : State) : Outcome :=
  command .gencodes (fun s =>
    let s1 := clearCodeLen s
    match codeTable s1.nodes s1.treeInfo.root with
    | .error f => .stuck f
    | .ok codes => .ok () (setCodeV { s1 with codes := codes })) s

/-- The loop of `CALCLEN` (R90): the payload length `P`, or the smallest symbol that occurs and has no code. -/
def payloadLength (freq : Vector Word 256) (codes : Vector CodeEntry 256) : List Symbol → Nat → Except Symbol Nat
  | [], p => .ok p
  | s :: rest, p =>
    if 0 < (freqAt freq s).toNat then
      if (codeAt codes s).valid then
        payloadLength freq codes rest (p + (freqAt freq s).toNat * (codeAt codes s).len)
      else .error s
    else payloadLength freq codes rest p

/-- The header length law (R68, R90): `10 * LEAF_CNT - 1`. -/
def headerLength (t : TreeInfo) : Nat := 10 * t.leafCnt.toNat - 1

/-- `CALCLEN` (R90). -/
def execCalclen (s : State) : Outcome :=
  command .calclen (fun s =>
    let s1 := clearLen s
    match payloadLength s1.freq s1.codes Config.allSymbols 0 with
    | .error sym => .raised (raise (opcodeOf .calclen) .unknownSymbol (sym.zeroExtend 32) s1)
    | .ok p =>
      if 2 ^ 32 ≤ p then .raised (raise (opcodeOf .calclen) .capacityExceeded 0 s1)
      else .ok () (setLenV { s1 with
        hdrBits := BitVec.ofNat 32 (headerLength s1.treeInfo)
        payBits := BitVec.ofNat 32 p })) s

end Sys2Proof.Machine
end

