-- ==== Sys2Proof/Machine/Framing.lean ====
section
/-! DEFINITION. The framing commands: `WRMARK` to `PAD` (R110 to R116). -/

namespace Sys2Proof.Machine

/-- `WRMARK` (R110). -/
def execWrmark (s : State) : Outcome :=
  command .wrmark (fun s => .ok () (writeInt s.marker.value.toNat s.marker.width s)) s

/-- `RDMARK` (R111). -/
def execRdmark (s : State) : Outcome :=
  command .rdmark (fun s =>
    match readInt s.marker.width s with
    | (none, s1) => .raised (raise (opcodeOf .rdmark) .truncatedStream s1.rcur s1)
    | (some v, s1) =>
      if v = s1.marker.value.toNat then .ok () s1
      else .raised (raise (opcodeOf .rdmark) .malformedHeader s1.rcur s1)) s

/-- `WRHLEN` (R112). -/
def execWrhlen (s : State) : Outcome := command .wrhlen (fun s => .ok () (writeInt s.hdrBits.toNat Config.lenW s)) s

/-- The read of a 32-bit length field (R113, R115): `LEN_V <- 0`, then the field; `TruncatedStream` if the stream ends in it. -/
def readLength (opc : Opcode) (s : State) : Res Word :=
  match readInt Config.lenW (clearLen s) with
  | (none, s1) => .raised (raise opc .truncatedStream s1.rcur s1)
  | (some v, s1) => .ok (BitVec.ofNat 32 v) s1

/-- `RDHLEN` (R113). -/
def execRdhlen (s : State) : Outcome :=
  command .rdhlen (fun s =>
    (readLength (opcodeOf .rdhlen) s).bind fun v s1 => .ok () { s1 with hdrBits := v }) s

/-- `WRPLEN` (R114). -/
def execWrplen (s : State) : Outcome := command .wrplen (fun s => .ok () (writeInt s.payBits.toNat Config.lenW s)) s

/-- `RDPLEN` (R115). -/
def execRdplen (s : State) : Outcome :=
  command .rdplen (fun s =>
    (readLength (opcodeOf .rdplen) s).bind fun v s1 => .ok () { s1 with payBits := v }) s

/-- The number of padding bits (R116): `(8 - (WCNT mod 8)) mod 8`. -/
def padCount (wcnt : Word) : Nat := (8 - wcnt.toNat % 8) % 8

/-- `PAD` (R116). -/
def execPad (s : State) : Outcome :=
  command .pad (fun s => .ok () (writeBits (List.replicate (padCount s.wcnt) Config.padBit) s)) s

end Sys2Proof.Machine
end

