-- ==== Sys2Proof/Machine/Frequency.lean ====
section
/-! DEFINITION. The frequency model: `COUNT` (R75, R76). -/

namespace Sys2Proof.Machine

/-- `FREQ[s] <- FREQ[s] + 1` (R75). -/
def countSymbol (t : Vector Word 256) (s : Symbol) : Vector Word 256 := setFreqAt t s (freqAt t s + 1)

/-- The Frequency Map of an input (R75): every entry cleared, then every symbol counted in order. -/
def countAll (input : List Symbol) : Vector Word 256 := input.foldl countSymbol (Vector.replicate 256 0)

/-- `COUNT` (R75). -/
def execCount (s : State) : Outcome :=
  command .count (fun s => .ok () (setFreqV { clearLen s with freq := countAll (inputSymbols s) })) s

end Sys2Proof.Machine
end

