-- ==== Sys2Proof/Machine/PayloadCodec.lean ====
section
/-! DEFINITION. The payload codec: `ENCODE`, `DECN`, `DECL` (R100 to R105). -/

namespace Sys2Proof.Machine

/-- The loop of `ENCODE` over the input symbols in order (R100). -/
def encodeSymbols : List Symbol → State → Res Unit
  | [], s => .ok () s
  | v :: rest, s =>
    if (codeAt s.codes v).valid then encodeSymbols rest (writeBits (codeAt s.codes v).bits s)
    else .raised (raise (opcodeOf .encode) .unknownSymbol (v.zeroExtend 32) s)

/-- `ENCODE` (R100). -/
def execEncode (s : State) : Outcome := command .encode (fun s => encodeSymbols (inputSymbols s) s) s

/-- Where the walk stands after a step (R103): the walk pointer, and the symbol emitted if one was. -/
structure Walk where
  cur     : Handle
  emitted : Option Symbol
  deriving DecidableEq, Repr

/-- `Step(b)` of R103 from the walk pointer `cur`. -/
def walkStep (nodes : Vector Node 511) (root cur : Handle) (b : Bit) : Except Fault Walk :=
  match nodeAt nodes root with
  | none => .error .noSuchNode
  | some top =>
    if top.leaf then .ok ⟨cur, some top.sym⟩
    else
      match nodeAt nodes cur with
      | none => .error .noSuchNode
      | some nd =>
        let child := if b then nd.right else nd.left
        match nodeAt nodes child with
        | none => .error .noSuchNode
        | some c => if c.leaf then .ok ⟨root, some c.sym⟩ else .ok ⟨child, none⟩

/-- `SymWrite` of the symbol a step emitted, if it emitted one (R103). -/
def emit (e : Option Symbol) (s : State) : State :=
  match e with
  | none => s
  | some v => symWrite v s

/-- The end of the stream in `DECN` (R101): mid-walk or with symbols owed. -/
def decnEnd (root cur : Handle) (s : State) : Res Unit :=
  if cur = root then .raised (raise (opcodeOf .decn) .truncatedStream s.rcur s)
  else .raised (raise (opcodeOf .decn) .unterminatedCode s.rcur s)

/-- The loop of `DECN` (R101) with `owed = SYM_COUNT - emitted` symbols still to emit. The first argument is the number of bits
left in `BIN`: at 0 `ReadBit` fails. -/
def decnLoop (root : Handle) : Nat → Handle → Nat → State → Res Unit
  | 0, cur, owed, s => if owed = 0 then .ok () s else decnEnd root cur s
  | left + 1, cur, owed, s =>
    if owed = 0 then .ok () s
    else
      match readBit s with
      | none => decnEnd root cur s
      | some (b, s1) =>
        match walkStep s1.nodes root cur b with
        | .error f => .stuck f
        | .ok w => decnLoop root left w.cur (if w.emitted.isSome then owed - 1 else owed) (emit w.emitted s1)

/-- `DECN` (R101). -/
def execDecn (s : State) : Outcome :=
  command .decn (fun s =>
    let root := s.treeInfo.root
    decnLoop root (s.binLen.toNat - s.rcur.toNat) root s.symCount.toNat s) s

/-- The loop of `DECL` (R102) with `left = PAY_BITS - consumed` bits still to consume. -/
def declLoop (root : Handle) : Nat → Handle → State → Res Unit
  | 0, cur, s =>
    if cur = root then .ok () s else .raised (raise (opcodeOf .decl) .unterminatedCode s.rcur s)
  | left + 1, cur, s =>
    match readBit s with
    | none => .raised (raise (opcodeOf .decl) .truncatedStream s.rcur s)
    | some (b, s1) =>
      match walkStep s1.nodes root cur b with
      | .error f => .stuck f
      | .ok w => declLoop root left w.cur (emit w.emitted s1)

/-- `DECL` (R102). -/
def execDecl (s : State) : Outcome :=
  command .decl (fun s => declLoop s.treeInfo.root s.payBits.toNat s.treeInfo.root s) s

end Sys2Proof.Machine
end

