-- ==== Sys2Proof/Machine/System.lean ====
section
/-! DEFINITION. The system commands: `NOP`, `RST` (R117, R118). -/

namespace Sys2Proof.Machine

/-- `NOP` (R117). -/
def execNop (s : State) : Outcome := command .nop (fun s => .ok () s) s

/-- `RST` (R118): the only command that runs while `FAULT` = 1 (R132). -/
def execRst (s : State) : Outcome := .next (softReset s)

end Sys2Proof.Machine
end

