-- ==== Sys2Proof/Machine/TreeCodec.lean ====
section
/-! DEFINITION. The tree codec: `STTREE`, `LDTREE`, `LDTREEB` (R94 to R98, R67). -/

namespace Sys2Proof.Machine

/-- `ser(h)` of R94: the header `H(T)` of R67 of the tree under `h`. The first argument bounds the nesting (log 6). -/
def headerBits (nodes : Vector Node 511) : Nat → Handle → Except Fault (List Bit)
  | 0, _ => .error .walkUnbounded
  | d + 1, h =>
    match nodeAt nodes h with
    | none => .error .noSuchNode
    | some nd =>
      if nd.leaf then .ok (true :: intBits nd.sym.toNat 8)
      else
        match headerBits nodes d nd.left with
        | .error e => .error e
        | .ok l =>
          match headerBits nodes d nd.right with
          | .error e => .error e
          | .ok r => .ok (false :: (l ++ r))

/-- `STTREE` (R94). -/
def execSttree (s : State) : Outcome :=
  command .sttree (fun s =>
    match headerBits s.nodes Config.nodeMax s.treeInfo.root with
    | .error f => .stuck f
    | .ok bits => .ok () (writeBits bits s)) s

/-- `hbit()` of R98, one header bit: the budget is tested before the stream end. -/
def headerBit (opc : Opcode) (bounded : Bool) (start : Nat) (s : State) : Res Bit :=
  if bounded && decide (s.rcur.toNat - start = s.hdrBits.toNat) then
    .raised (raise opc .malformedHeader s.rcur s)
  else
    match readBit s with
    | none => .raised (raise opc (if bounded then .truncatedStream else .malformedHeader) s.rcur s)
    | some (b, s') => .ok b s'

/-- "repeat `w` times: `v <- 2*v + hbit()`" (R98), with the value read so far. -/
def headerInt (opc : Opcode) (bounded : Bool) (start : Nat) : Nat → Nat → State → Res Nat
  | 0, v, s => .ok v s
  | w + 1, v, s => (headerBit opc bounded start s).bind fun b s' => headerInt opc bounded start w (pushBit v b) s'

/-- What `des()` returns (R98): the handle of the subtree read, and the counters `n` and `leaves` after it. -/
structure Loaded where
  handle : Nat
  n      : Nat
  leaves : Nat
  deriving DecidableEq, Repr

/-- `NODE[n] <- nd` in the state. -/
def putNode (n : Nat) (nd : Node) (s : State) : State := { s with nodes := setNodeAt s.nodes n nd }

/-- `des()` of R98: the capacity is tested before the marker bit; preorder allocation; left subtree first. The first argument
is the nesting left of the 511 that the arena allows: every nested call has allocated one node more, so at 0 there are 511
nodes and the fault is the one the capacity test would raise. -/
def loadNode (opc : Opcode) (bounded : Bool) (start : Nat) : Nat → Nat → Nat → State → Res Loaded
  | 0, _, _, s => .raised (raise opc .capacityExceeded s.rcur s)
  | d + 1, n, leaves, s =>
    if n = Config.nodeMax then .raised (raise opc .capacityExceeded s.rcur s)
    else
      (headerBit opc bounded start s).bind fun m s1 =>
        if m then
          (headerInt opc bounded start 8 0 s1).bind fun v s2 =>
            .ok ⟨n, n + 1, leaves + 1⟩ (putNode n (leafNode (BitVec.ofNat 8 v) 0) s2)
        else
          (loadNode opc bounded start d (n + 1) leaves s1).bind fun l s2 =>
            (loadNode opc bounded start d l.n l.leaves s2).bind fun r s3 =>
              .ok ⟨n, r.n, r.leaves⟩
                (putNode n (innerNode 0 (BitVec.ofNat 9 l.handle) (BitVec.ofNat 9 r.handle)) s3)

/-- `LoadTree(bounded)` of R98. -/
def loadTree (opc : Opcode) (bounded : Bool) (s : State) : Res Unit :=
  let s1 := clearTreeCodeLen s
  let start := s1.rcur.toNat
  (loadNode opc bounded start Config.nodeMax 0 0 s1).bind fun r s2 =>
    if bounded && decide (s2.rcur.toNat - start ≠ s2.hdrBits.toNat) then
      .raised (raise opc .malformedHeader s2.rcur s2)
    else
      .ok () (setTreeV { s2 with
        treeInfo :=
          { root := BitVec.ofNat 9 r.handle
            nodeCnt := BitVec.ofNat 9 r.n
            leafCnt := BitVec.ofNat 9 r.leaves } })

/-- `LDTREE` (R95). -/
def execLdtree (s : State) : Outcome := command .ldtree (loadTree (opcodeOf .ldtree) false) s

/-- `LDTREEB` (R96). -/
def execLdtreeb (s : State) : Outcome := command .ldtreeb (loadTree (opcodeOf .ldtreeb) true) s

end Sys2Proof.Machine
end

