-- ==== Sys2Proof/Machine/Dispatch.lean ====
section
/-! DEFINITION. One arm per command. -/

namespace Sys2Proof.Machine

def exec (i : Instr) (s : State) : Host.Outcome State Fault Refusal :=
  match i with
  | .nop => Sys2Proof.Machine.execNop s
  | .rst => Sys2Proof.Machine.execRst s
  | .count => Sys2Proof.Machine.execCount s
  | .build => Sys2Proof.Machine.execBuild s
  | .gencodes => Sys2Proof.Machine.execGencodes s
  | .calclen => Sys2Proof.Machine.execCalclen s
  | .sttree => Sys2Proof.Machine.execSttree s
  | .ldtree => Sys2Proof.Machine.execLdtree s
  | .ldtreeb => Sys2Proof.Machine.execLdtreeb s
  | .encode => Sys2Proof.Machine.execEncode s
  | .decn => Sys2Proof.Machine.execDecn s
  | .decl => Sys2Proof.Machine.execDecl s
  | .wrmark => Sys2Proof.Machine.execWrmark s
  | .rdmark => Sys2Proof.Machine.execRdmark s
  | .wrhlen => Sys2Proof.Machine.execWrhlen s
  | .rdhlen => Sys2Proof.Machine.execRdhlen s
  | .wrplen => Sys2Proof.Machine.execWrplen s
  | .rdplen => Sys2Proof.Machine.execRdplen s
  | .pad => Sys2Proof.Machine.execPad s

end Sys2Proof.Machine
end

