-- ==== Sys2Proof/Machine/Operands.lean ====
section
/-! DEFINITION. The operands of the commands are the host registers (R10, R63): the register file as the host reads and writes
it (R12 to R26), and the table read window (R26). -/

namespace Sys2Proof.Machine

/-! ## Register addresses (R12) -/

namespace Reg
abbrev cmd : BitVec 8 := 0x00
abbrev status : BitVec 8 := 0x04
abbrev err : BitVec 8 := 0x08
abbrev errInfo : BitVec 8 := 0x0C
abbrev sinLen : BitVec 8 := 0x10
abbrev binLen : BitVec 8 := 0x14
abbrev rcur : BitVec 8 := 0x18
abbrev wcnt : BitVec 8 := 0x1C
abbrev soutCnt : BitVec 8 := 0x20
abbrev symCount : BitVec 8 := 0x24
abbrev hdrBits : BitVec 8 := 0x28
abbrev payBits : BitVec 8 := 0x2C
abbrev treeInfo : BitVec 8 := 0x30
abbrev tblAddr : BitVec 8 := 0x40
abbrev tblData : BitVec 8 := 0x44
end Reg

/-! ## Registers with fields, as words -/

/-- `ERR.CODE` (R15): 0 when no fault is recorded. -/
def Err.code (e : Err) : BitVec 4 :=
  match e.kind with
  | none => 0
  | some k => k.code

/-- `ERR` as the host reads it (R15): `OPC` in bits 15:8, `CODE` in bits 3:0. -/
def Err.toWord (e : Err) : Word := (0#16 ++ e.opc ++ 0#4 ++ e.code : BitVec 32)

/-- `TREEINFO` as the host reads it (R25): `LEAF_CNT` in 26:18, `NODE_CNT` in 17:9, `ROOT` in 8:0. -/
def TreeInfo.toWord (t : TreeInfo) : Word := (0#5 ++ t.leafCnt ++ t.nodeCnt ++ t.root : BitVec 32)

/-- `TBL_ADDR` as the host reads it (R26): `SEL` in 25:24, `IDX` in 16:8, `WORD` in 3:0. -/
def TblAddr.toWord (a : TblAddr) : Word := (0#6 ++ a.sel ++ 0#7 ++ a.idx ++ 0#4 ++ a.word : BitVec 32)

/-- The fields of a word written to `TBL_ADDR` (R26); the other bits are ignored (R12). -/
def TblAddr.ofWord (v : Word) : TblAddr := ⟨v.extractLsb' 24 2, v.extractLsb' 8 9, v.extractLsb' 0 4⟩

/-! ## The table read window (R26) -/

/-- `NODE[h]`, word 1 of the window: `leaf` in bit 26, `sym` in 25:18, `left` in 17:9, `right` in 8:0. -/
def Node.shape (nd : Node) : Word := (0#5 ++ BitVec.ofBool nd.leaf ++ nd.sym ++ nd.left ++ nd.right : BitVec 32)

/-- `CODE[s]`, word 0 of the window: `valid` in bit 8, `len` in 7:0. -/
def CodeEntry.head (e : CodeEntry) : Word := (0#23 ++ BitVec.ofBool e.valid ++ BitVec.ofNat 8 e.len : BitVec 32)

/-- `CODE[s]`, word `1 + k` of the window: code bit `32*k + j` is bit `31 - j`; positions at or above `len` read 0. -/
def CodeEntry.bitsWord (e : CodeEntry) (k : Nat) : Word :=
  BitVec.ofFnLE (fun p : Fin 32 => e.bits.getD (32 * k + (31 - p.val)) false)

/-- What `TBL_DATA` returns for the current `TBL_ADDR`; `none` is an unspecified value (R26, U6). -/
def windowWord (s : State) : Option Word :=
  let a := s.tblAddr
  let sym : Symbol := a.idx.extractLsb' 0 8
  let small := !a.idx.getLsbD 8
  if a.sel = 0 then
    if s.status.freqV && small && a.word == 0 then some (freqAt s.freq sym) else none
  else if a.sel = 1 then
    if s.status.treeV && decide (a.idx.toNat < s.treeInfo.nodeCnt.toNat) then
      match nodeAt s.nodes a.idx with
      | some nd => if a.word = 0 then some nd.weight else if a.word = 1 then some nd.shape else none
      | none => none
    else none
  else if a.sel = 2 then
    if s.status.codeV && small then
      let e := codeAt s.codes sym
      if a.word = 0 then some e.head
      else if e.valid && decide (a.word.toNat ≤ 8) then some (e.bitsWord (a.word.toNat - 1))
      else none
    else none
  else none

/-! ## Host reads and writes (R12) -/

/-- The value of a host register other than `TBL_DATA`; `CMD` and the reserved addresses read 0 (R12, R13). -/
def regValue (s : State) (addr : BitVec 8) : Word :=
  if addr = Reg.status then s.status.toWord
  else if addr = Reg.err then s.err.toWord
  else if addr = Reg.errInfo then s.errInfo
  else if addr = Reg.sinLen then s.sinLen
  else if addr = Reg.binLen then s.binLen
  else if addr = Reg.rcur then s.rcur
  else if addr = Reg.wcnt then s.wcnt
  else if addr = Reg.soutCnt then s.soutCnt
  else if addr = Reg.symCount then s.symCount
  else if addr = Reg.hdrBits then s.hdrBits
  else if addr = Reg.payBits then s.payBits
  else if addr = Reg.treeInfo then s.treeInfo.toWord
  else if addr = Reg.tblAddr then s.tblAddr.toWord
  else 0

/-- A host read: it appends the value to what the host has read and has no effect on the engine (R26, R49). An unspecified
window read takes a free value (log 8). -/
def readReg (addr : BitVec 8) (s : State) : State :=
  if addr = Reg.tblData then
    match windowWord s with
    | some v => { s with hostReads := s.hostReads ++ [v] }
    | none => { s with hostReads := s.hostReads ++ [Config.unspecifiedRead s.freeCtr], freeCtr := s.freeCtr + 1 }
  else { s with hostReads := s.hostReads ++ [regValue s addr] }

/-- A host write to a register other than `CMD`: read-only and reserved addresses ignore it (R12); a write to `HDR_BITS` or
`PAY_BITS` clears `LEN_V` (R23, R24). -/
def writeReg (addr : BitVec 8) (v : Word) (s : State) : State :=
  if addr = Reg.sinLen then { s with sinLen := v }
  else if addr = Reg.binLen then { s with binLen := v }
  else if addr = Reg.rcur then { s with rcur := v }
  else if addr = Reg.wcnt then { s with wcnt := v }
  else if addr = Reg.soutCnt then { s with soutCnt := v }
  else if addr = Reg.symCount then { s with symCount := v }
  else if addr = Reg.hdrBits then clearLen { s with hdrBits := v }
  else if addr = Reg.payBits then clearLen { s with payBits := v }
  else if addr = Reg.tblAddr then { s with tblAddr := TblAddr.ofWord v }
  else s

end Sys2Proof.Machine
end

