-- ==== Sys2Proof/Machine/Front.lean ====
section
/-! DEFINITION. The front end (R1): a write to `CMD`, the other host actions, and the two pseudo-commands (R12, R13, R62, R66,
R132, R134, R150). -/

namespace Sys2Proof.Machine

/-- A host write of the word `c` to `CMD` (R13, R134): a command word is executed; any other word is ignored while a fault is
recorded (R132) and otherwise raises `IllegalCommand` with the whole word (R62). -/
def issue (c : Word) (s : State) : Outcome :=
  match decode c with
  | .ok i => exec i s
  | .error _ => if s.status.fault then .next s else .next (raise (opcField c) .illegalCommand c s)

/-- What a command had appended to `BOUT` and `SOUT` when a reset abandoned it (R150): the first `n` of the items it appends
(`s` before the command, `t` after it). -/
def keepAppended (n : Nat) (s t : State) : State :=
  { s with
    bout := s.bout ++ (t.bout.drop s.bout.length).take n
    sout := s.sout ++ (t.sout.drop s.sout.length).take n
    freeCtr := s.freeCtr + 1 }

/-- A command abandoned by hardware reset (R150): what it had appended stays appended, everything else is as after reset. How
far it came is free (log 9). -/
def abandon (c : Word) (s : State) : Outcome :=
  match issue c s with
  | .next t => .next (hardReset (keepAppended (Config.abandonPoint s.freeCtr) s t))
  | .fault f => .fault f
  | .refused r => .refused r

/-- Supplying `SIN` (R152): indexes beyond what is given read as free values under a fresh number (log 2). -/
def supplySin (xs : List Symbol) (s : State) : State := { s with sin := ⟨xs, s.freeCtr⟩, freeCtr := s.freeCtr + 1 }

/-- Supplying `BIN` (R152): as `supplySin`. -/
def supplyBin (bs : List Bit) (s : State) : State := { s with bin := ⟨bs, s.freeCtr⟩, freeCtr := s.freeCtr + 1 }

/-- A host action the engine must be idle for: while `BUSY` = 1 it is undefined (R154, U9). -/
def whenIdle (s : State) (o : Outcome) : Outcome := if s.status.busy then .refused .accessWhileBusy else o

/-- A register access: whole aligned words only (R12, U11). -/
def whenAligned (addr : BitVec 8) (o : Outcome) : Outcome := if aligned addr then o else .refused .unalignedAccess

/-- One host action (R65). -/
def perform (a : HostAction) (s : State) : Outcome :=
  match a with
  | .wr addr v => whenIdle s (whenAligned addr (if addr = Reg.cmd then issue v s else .next (writeReg addr v s)))
  | .rd addr => whenIdle s (whenAligned addr (.next (readReg addr s)))
  | .reset => .next (hardReset s)
  | .resetDuring c => whenIdle s (abandon c s)
  | .supplySin xs => whenIdle s (.next (supplySin xs s))
  | .supplyBin bs => whenIdle s (.next (supplyBin bs s))

/-- Taking the next host action out of the program. -/
def takeAction (rest : List HostAction) (s : State) : State := { s with program := rest }

/-- A mnemonic assembles to its command word written to `CMD` (R65). -/
def assemble (i : Instr) : HostAction := .wr Reg.cmd (Sys2Proof.encode i)

/-- The expansion of `ENCFRAME` (R66, R119). -/
def encFrame : List Instr :=
  [.count, .build, .gencodes, .calclen, .wrmark, .wrhlen, .wrplen, .sttree, .encode, .pad]

/-- The expansion of `DECFRAME` (R66, R120). -/
def decFrame : List Instr := [.rdmark, .rdhlen, .rdplen, .ldtreeb, .decl]

/-- The host actions of a pseudo-command (R65, R66). -/
def expand (is : List Instr) : List HostAction := is.map assemble

/-- The byte packing the host uses for `BOUT` and `BIN` (R47 item 3): stream bit `j` is bit `7 - (j mod 8)` of byte `j div 8`. -/
def packByte (bits : List Bit) (k : Nat) : BitVec 8 :=
  BitVec.ofFnLE (fun p : Fin 8 => bits.getD (8 * k + (7 - p.val)) false)

end Sys2Proof.Machine
end

