-- ==== Sys2Proof/Machine/Step.lean ====
section
/-! DEFINITION. One step: the next host action (R11, R65, R142). -/

namespace Sys2Proof.Machine

/-- One step of the machine: the oldest host action still to be performed. With none left the engine is idle and holds its
state (R142, R150). -/
def step (s : State) : Host.Outcome State Fault Refusal :=
  match s.program with
  | [] => .next s
  | a :: rest => perform a (takeAction rest s)

/-- The state in which the host's next action is to write the command word made of the low `nbits` bits of `w` to `CMD`
(R11, R13; log 3). -/
def State.withFetchWord (s : State) (nbits w : Nat) : State :=
  { s with program := .wr Reg.cmd (BitVec.ofNat 32 (w % 2 ^ nbits)) :: s.program }

end Sys2Proof.Machine
end

