-- ==== Sys2Proof/Safety.lean ====
section
/-! DEFINITION. What the claims about HUFFCORE are stated in: the code tree as an inductive type and its header (R28, R67), the
well-formed tree of the arena (R29), the invariants of the machine, and the shape of an append or a read. -/

namespace Sys2Proof.Machine

/-! ## The code tree as an inductive type -/

/-- The document's "owned recursive sum type `Leaf{symbol} | Internal{left, right}`" (R28). -/
inductive Tree where
  | leaf (sym : Symbol)
  | inner (left right : Tree)
  deriving DecidableEq, Repr

/-- The leaf symbols, left to right. -/
def Tree.leaves : Tree → List Symbol
  | .leaf v => [v]
  | .inner l r => l.leaves ++ r.leaves

/-- The header `H(T)` (R67): `H(Leaf s) = ⟨1⟩ · bits8(s)`, `H(Internal l r) = ⟨0⟩ · H(l) · H(r)`. -/
def Tree.header : Tree → List Bit
  | .leaf v => true :: intBits v.toNat 8
  | .inner l r => false :: (l.header ++ r.header)

/-- The bits of the header node by node, in preorder: what each call of `des()` itself reads (R67, R98). -/
def Tree.nodeBits : Tree → List (List Bit)
  | .leaf v => [true :: intBits v.toNat 8]
  | .inner l r => [false] :: (l.nodeBits ++ r.nodeBits)

/-- The bits of the first 511 nodes of the header: all that a load reads of it before it calls for a 512th node (R98). It is the
whole header of a tree of at most 256 leaves. -/
def Tree.loadableBits (t : Tree) : List Bit := (t.nodeBits.take Config.nodeMax).flatten

/-- The leaf at the end of a path, when the path is one from the root to a leaf: left on 0, right on 1 (R9). -/
def Tree.leafAt : Tree → List Bit → Option Symbol
  | .leaf v, [] => some v
  | .leaf _, _ :: _ => none
  | .inner _ _, [] => none
  | .inner l r, b :: p => if b then r.leafAt p else l.leafAt p

/-- Does a path end at an internal node, so that a walk along it is "mid-path" (R103) or at the root? -/
def Tree.innerAt : Tree → List Bit → Bool
  | .leaf _, _ => false
  | .inner _ _, [] => true
  | .inner l r, b :: p => if b then r.innerAt p else l.innerAt p

/-- A codeword of a symbol, as the decoders read it (R103): in a tree of two or more leaves the path of a leaf of the symbol; in
a single-leaf tree any one bit. -/
def Tree.Codeword (t : Tree) (v : Symbol) (p : List Bit) : Prop :=
  match t with
  | .leaf w => v = w ∧ p.length = 1
  | .inner _ _ => t.leafAt p = some v

/-- The path of the last leaf in preorder that carries a symbol (R88 corner case 2). -/
def Tree.pathOf : Tree → Symbol → Option (List Bit)
  | .leaf w, v => if w = v then some [] else none
  | .inner l r, v =>
    match r.pathOf v with
    | some p => some (true :: p)
    | none =>
      match l.pathOf v with
      | some p => some (false :: p)
      | none => none

/-- The entry of the Code Table that R88 gives a symbol: the single-symbol special case, else the path, else no entry. -/
def Tree.codeEntry (t : Tree) (v : Symbol) : CodeEntry :=
  match t with
  | .leaf w => if w = v then ⟨true, [false]⟩ else ⟨false, []⟩
  | .inner _ _ =>
    match t.pathOf v with
    | some p => ⟨true, p⟩
    | none => ⟨false, []⟩

/-- The tree under a handle of the arena, if the arena holds one that nests at most as deep as the first argument. -/
def treeOf (nodes : Vector Node 511) : Nat → Handle → Option Tree
  | 0, _ => none
  | d + 1, h =>
    match nodeAt nodes h with
    | none => none
    | some nd =>
      if nd.leaf then some (.leaf nd.sym)
      else
        match treeOf nodes d nd.left, treeOf nodes d nd.right with
        | some l, some r => some (.inner l r)
        | _, _ => none

/-- The tree of the state: what `NODE` and `TREEINFO.ROOT` hold. -/
def State.tree (s : State) : Option Tree := treeOf s.nodes Config.nodeMax s.treeInfo.root

/-! ## The well-formed tree of the arena (R29) -/

/-- The handles met by the preorder walk from a handle. -/
def handlesFrom (nodes : Vector Node 511) : Nat → Handle → Option (List Handle)
  | 0, _ => none
  | d + 1, h =>
    match nodeAt nodes h with
    | none => none
    | some nd =>
      if nd.leaf then some [h]
      else
        match handlesFrom nodes d nd.left, handlesFrom nodes d nd.right with
        | some l, some r => some (h :: (l ++ r))
        | _, _ => none

/-- R29 item 2 for one node: a leaf has no children, an internal node two different ones in use. -/
def nodeOk (nodes : Vector Node 511) (cnt h : Nat) : Bool :=
  match nodes[h]? with
  | none => false
  | some nd =>
    if nd.leaf then decide (nd.left = Config.nil) && decide (nd.right = Config.nil)
    else decide (nd.left.toNat < cnt) && decide (nd.right.toNat < cnt) && decide (nd.left ≠ nd.right)

/-- Handle `h` waits in the queue of `BUILD` when entry `j` is about to be made (R81): it is below `j`, and no internal node made
before (the entries `k .. j-1`) has it as a child. -/
def PendingAt (nodes : Vector Node 511) (k j : Nat) (h : Handle) : Prop :=
  h.toNat < j ∧ ∀ (i : Nat) (nd : Node), k ≤ i → i < j → nodes[i]? = some nd → nd.left ≠ h ∧ nd.right ≠ h

/-- Is entry `h` a leaf? -/
def leafAtIndex (nodes : Vector Node 511) (h : Nat) : Bool :=
  match nodes[h]? with
  | none => false
  | some nd => nd.leaf

/-- R29 item 3: the walk from the root meets every node in use exactly once, so the nodes form one tree. -/
def oneTree (nodes : Vector Node 511) (t : TreeInfo) : Bool :=
  match handlesFrom nodes Config.nodeMax t.root with
  | none => false
  | some hs => decide hs.Nodup && decide (hs.length = t.nodeCnt.toNat) && hs.all (fun h => decide (h.toNat < t.nodeCnt.toNat))

/-- The well-formed tree of R29, items 1 to 4 (item 5 holds by the type of `sym`, item 6 is about `BUILD` alone). -/
def treeWf (nodes : Vector Node 511) (t : TreeInfo) : Bool :=
  decide (1 ≤ t.nodeCnt.toNat) && decide (t.root.toNat < t.nodeCnt.toNat) &&
    (List.range t.nodeCnt.toNat).all (nodeOk nodes t.nodeCnt.toNat) && oneTree nodes t &&
    decide (t.leafCnt.toNat = ((List.range t.nodeCnt.toNat).filter (leafAtIndex nodes)).length) &&
    decide (t.nodeCnt.toNat = 2 * t.leafCnt.toNat - 1)

/-! ## The invariants -/

/-- The sum of all 256 counts (R75). -/
def freqTotal (freq : Vector Word 256) : Nat := (Config.allSymbols.map (fun v => (freqAt freq v).toNat)).sum

/-- The payload length of R69 and R90: the sum over the symbols of `FREQ[s] * CODE[s].len`. -/
def payloadTotal (freq : Vector Word 256) (codes : Vector CodeEntry 256) : Nat :=
  (Config.allSymbols.map (fun v => (freqAt freq v).toNat * (codeAt codes v).len)).sum

/-- The status register and the fault record agree (R8, R14, R15, R31, R32): idle between commands, a recorded fault exactly
while `FAULT` = 1, never `DONE` with it, an empty record without it, and no valid bit without those it rests on. -/
structure StatusOk (s : State) : Prop where
  idle : s.status.busy = false
  faultRecorded : s.status.fault = s.err.kind.isSome
  faultNotDone : s.status.fault = true → s.status.done = false
  noFaultNoRecord : s.status.fault = false → s.err.opc = 0 ∧ s.errInfo = 0
  codeNeedsTree : s.status.codeV = true → s.status.treeV = true
  lenNeedsTables : s.status.lenV = true → s.status.freqV = true ∧ s.status.treeV = true ∧ s.status.codeV = true

/-- While `TREE_V` = 1 the arena holds a well-formed tree (R29). -/
def TreeOk (s : State) : Prop := s.status.treeV = true → treeWf s.nodes s.treeInfo = true

/-- While `CODE_V` = 1 `CODE` holds the Code Table of the tree in `NODE`; while `LEN_V` = 1 the two lengths are those computed
from the current tables (R14). -/
def DerivedOk (s : State) : Prop :=
  (s.status.codeV = true → codeTable s.nodes s.treeInfo.root = .ok s.codes) ∧
  (s.status.lenV = true →
    payloadLength s.freq s.codes Config.allSymbols 0 = .ok s.payBits.toNat ∧ s.hdrBits.toNat = headerLength s.treeInfo)

/-- While `FREQ_V` = 1 the counts add up to a 32-bit number (R75, R83). -/
def FreqOk (s : State) : Prop := s.status.freqV = true → freqTotal s.freq < 2 ^ 32

/-- Every host action still to be performed is one the hardware has (R12). -/
def ProgramOk (s : State) : Prop := s.program.all HostAction.wf = true

/-! ## Appends and reads as one update -/

/-- `BOUT` and `WCNT` after the bits of `p` were written (R44). -/
def wrote (p : List Bit) (s : State) : State :=
  { s with bout := s.bout ++ p, wcnt := s.wcnt + BitVec.ofNat 32 p.length }

/-- `SOUT` and `SOUT_CNT` after the symbols of `vs` were written (R42). -/
def emittedAll (vs : List Symbol) (s : State) : State :=
  { s with sout := s.sout ++ vs, soutCnt := s.soutCnt + BitVec.ofNat 32 vs.length }

/-- `RCUR` after `n` bits were read (R43). -/
def advanced (n : Nat) (s : State) : State := { s with rcur := s.rcur + BitVec.ofNat 32 n }

/-- `BIN` holds the bits `p` from index `RCUR` on, all of them before the stream ends (R43). -/
def BinHolds (s : State) (p : List Bit) : Prop :=
  ∀ j (h : j < p.length), s.rcur.toNat + j < s.binLen.toNat ∧ binAt s.bin (s.rcur.toNat + j) = p[j]

/-- `BIN` holds the bits `p` from index `RCUR` on and then ends (R43): the next `ReadBit` after them is `EOS`. -/
def BinEndsAfter (s : State) (p : List Bit) : Prop := BinHolds s p ∧ s.binLen.toNat ≤ s.rcur.toNat + p.length

/-- The payload of an input under a Code Table (R69). -/
def payloadOf (codes : Vector CodeEntry 256) (input : List Symbol) : List Bit :=
  (input.map (fun v => (codeAt codes v).bits)).flatten

/-- Commands one after another (R51), stopping where the model stops. -/
def execAll : List Instr → State → Outcome
  | [], s => .next s
  | i :: rest, s =>
    match exec i s with
    | .next t => execAll rest t
    | .fault f => .fault f
    | .refused r => .refused r

/-- The frame of R71 up to its padding: marker, header length, payload length, header, payload. -/
def frameBits (m : Marker) (t : Tree) (payload : List Bit) : List Bit :=
  intBits m.value.toNat m.width ++ intBits t.header.length 32 ++ intBits payload.length 32 ++ t.header ++ payload

end Sys2Proof.Machine
end

