-- ==== Sys2Proof/Certificates/Slice0/Obligations.lean ====
section
/-! DEFINITION. The statements for the provers, each with the rules of spec/ it formalises. -/

open Sys2Proof Sys2Proof.Machine

/-! ## Encoding and the front end -/

/-- R61: the opcode map word for word. Each of the nineteen command words decodes to its command, and no other word decodes,
in particular none with `c[31:8] != 0`. -/
def Obligations.CommandWordsDecode : Prop :=
  decode 0x00000000#32 = .ok .nop ∧ decode 0x00000001#32 = .ok .rst ∧ decode 0x00000010#32 = .ok .count ∧
  decode 0x00000011#32 = .ok .build ∧ decode 0x00000012#32 = .ok .gencodes ∧ decode 0x00000013#32 = .ok .calclen ∧
  decode 0x00000020#32 = .ok .sttree ∧ decode 0x00000021#32 = .ok .ldtree ∧ decode 0x00000022#32 = .ok .ldtreeb ∧
  decode 0x00000030#32 = .ok .encode ∧ decode 0x00000031#32 = .ok .decn ∧ decode 0x00000032#32 = .ok .decl ∧
  decode 0x00000040#32 = .ok .wrmark ∧ decode 0x00000041#32 = .ok .rdmark ∧ decode 0x00000042#32 = .ok .wrhlen ∧
  decode 0x00000043#32 = .ok .rdhlen ∧ decode 0x00000044#32 = .ok .wrplen ∧ decode 0x00000045#32 = .ok .rdplen ∧
  decode 0x00000046#32 = .ok .pad ∧
  ∀ c : Word,
    (c ∉ ([0x00, 0x01, 0x10, 0x11, 0x12, 0x13, 0x20, 0x21, 0x22, 0x30, 0x31, 0x32, 0x40, 0x41, 0x42, 0x43, 0x44, 0x45,
      0x46] : List Word) → ∀ i, decode c ≠ .ok i) ∧
    (c.extractLsb' 8 24 ≠ 0#24 → ∀ i, decode c ≠ .ok i)

/-- R60, R61: every well-formed command is read back from its word, and every word that decodes is its command's word. -/
def Obligations.EncodeDecodeAgree : Prop :=
  (∀ i : Instr, i.wf = true → decode (encode i) = .ok i) ∧ ∀ (c : Word) (i : Instr), decode c = .ok i → c = encode i

/-- R62: a word that is no command word raises `IllegalCommand` with the whole word and makes no other state change. -/
def Obligations.IllegalWordRaisesIllegalCommand : Prop :=
  ∀ (s : State) (c : Word) (rest : List HostAction), s.program = .wr 0x00 c :: rest → s.status.busy = false →
    (∀ i, c ≠ encode i) → s.status.fault = false →
    step s = .next { s with
      program := rest
      err := ⟨some .illegalCommand, c.extractLsb' 0 8⟩
      errInfo := c
      status := { s.status with busy := false, done := false, fault := true } }

/-- R11, R13, with the host's actions as a list (log 3): when the host's next action writes a word to `CMD` that decodes to `i`, the step is `exec i`, with that action taken
out of the host's list. -/
def Obligations.StepRunsTheDecodedCommand : Prop :=
  ∀ (s : State) (c : Word) (i : Instr) (rest : List HostAction), s.program = .wr 0x00 c :: rest →
    s.status.busy = false → decode c = .ok i → i.wf = true → step s = exec i { s with program := rest }

/-- R142: with no host action left the engine holds its state. -/
def Obligations.IdleEngineHoldsItsState : Prop := ∀ s : State, s.program = [] → step s = .next s

/-- R132: while a fault is recorded every word but `RST` changes nothing, an illegal one among them, `RST` executes, and host
writes to the read-write registers still take effect and cannot clear the fault. -/
def Obligations.FaultedEngineIgnoresCommands : Prop :=
  ∀ (s : State) (rest : List HostAction), s.status.busy = false → s.status.fault = true →
    (∀ c : Word, s.program = .wr 0x00 c :: rest → c ≠ 0x00000001#32 → step s = .next { s with program := rest }) ∧
    (s.program = .wr 0x00 0x00000001#32 :: rest → step s = exec .rst { s with program := rest }) ∧
    ∀ (addr : BitVec 8) (v : Word), addr.toNat % 4 = 0 → addr ≠ 0x00 → s.program = .wr addr v :: rest →
      ∃ t, step s = .next t ∧ t.status.fault = true ∧ t.err = s.err ∧ t.errInfo = s.errInfo ∧
        (addr = 0x10 → t.sinLen = v) ∧ (addr = 0x14 → t.binLen = v) ∧ (addr = 0x18 → t.rcur = v) ∧
        (addr = 0x1C → t.wcnt = v) ∧ (addr = 0x20 → t.soutCnt = v) ∧ (addr = 0x24 → t.symCount = v) ∧
        (addr = 0x28 → t.hdrBits = v) ∧ (addr = 0x2C → t.payBits = v) ∧
        (addr = 0x40 → t.tblAddr = ⟨v.extractLsb' 24 2, v.extractLsb' 8 9, v.extractLsb' 0 4⟩)

/-- R12, R17 to R24, R26: what a host write does, whatever `FAULT` is: each read-write register takes the word (`TBL_ADDR` its
fields), `HDR_BITS` and `PAY_BITS` clear `LEN_V`, and every other aligned address but `CMD` ignores the write. -/
def Obligations.HostWritesReachTheirRegister : Prop :=
  ∀ (s : State) (v : Word) (rest : List HostAction), s.status.busy = false →
    (s.program = .wr 0x10 v :: rest → step s = .next { s with program := rest, sinLen := v }) ∧
    (s.program = .wr 0x14 v :: rest → step s = .next { s with program := rest, binLen := v }) ∧
    (s.program = .wr 0x18 v :: rest → step s = .next { s with program := rest, rcur := v }) ∧
    (s.program = .wr 0x1C v :: rest → step s = .next { s with program := rest, wcnt := v }) ∧
    (s.program = .wr 0x20 v :: rest → step s = .next { s with program := rest, soutCnt := v }) ∧
    (s.program = .wr 0x24 v :: rest → step s = .next { s with program := rest, symCount := v }) ∧
    (s.program = .wr 0x28 v :: rest →
      step s = .next { s with program := rest, hdrBits := v, status := { s.status with lenV := false } }) ∧
    (s.program = .wr 0x2C v :: rest →
      step s = .next { s with program := rest, payBits := v, status := { s.status with lenV := false } }) ∧
    (s.program = .wr 0x40 v :: rest →
      step s = .next { s with
        program := rest
        tblAddr := ⟨v.extractLsb' 24 2, v.extractLsb' 8 9, v.extractLsb' 0 4⟩ }) ∧
    ∀ addr : BitVec 8, addr.toNat % 4 = 0 →
      addr ∉ ([0x00, 0x10, 0x14, 0x18, 0x1C, 0x20, 0x24, 0x28, 0x2C, 0x40] : List (BitVec 8)) →
      s.program = .wr addr v :: rest → step s = .next { s with program := rest }

/-- R12 to R16, R25, R49: a host read of a register other than `TBL_DATA` changes nothing but the list of values read, and the
value is the register's: the fields of `STATUS`, `ERR`, `TREEINFO`, `TBL_ADDR` in their places with zeros elsewhere, the whole
word of the others, 0 at `CMD` and at every reserved address. -/
def Obligations.HostReadsReturnTheRegister : Prop :=
  ∀ (s : State) (addr : BitVec 8) (rest : List HostAction), s.status.busy = false → addr.toNat % 4 = 0 → addr ≠ 0x44 →
    s.program = .rd addr :: rest →
    ∃ v : Word, step s = .next { s with program := rest, hostReads := s.hostReads ++ [v] } ∧
      (addr = 0x04 → v.getLsbD 0 = s.status.busy ∧ v.getLsbD 1 = s.status.done ∧ v.getLsbD 2 = s.status.fault ∧
        v.getLsbD 3 = false ∧ v.getLsbD 4 = s.status.freqV ∧ v.getLsbD 5 = s.status.treeV ∧
        v.getLsbD 6 = s.status.codeV ∧ v.getLsbD 7 = s.status.lenV ∧ v.extractLsb' 8 24 = 0#24) ∧
      (addr = 0x08 → v.extractLsb' 0 4 = s.err.code ∧ v.extractLsb' 4 4 = 0#4 ∧ v.extractLsb' 8 8 = s.err.opc ∧
        v.extractLsb' 16 16 = 0#16) ∧
      (addr = 0x0C → v = s.errInfo) ∧ (addr = 0x10 → v = s.sinLen) ∧ (addr = 0x14 → v = s.binLen) ∧
      (addr = 0x18 → v = s.rcur) ∧ (addr = 0x1C → v = s.wcnt) ∧ (addr = 0x20 → v = s.soutCnt) ∧
      (addr = 0x24 → v = s.symCount) ∧ (addr = 0x28 → v = s.hdrBits) ∧ (addr = 0x2C → v = s.payBits) ∧
      (addr = 0x30 → v.extractLsb' 0 9 = s.treeInfo.root ∧ v.extractLsb' 9 9 = s.treeInfo.nodeCnt ∧
        v.extractLsb' 18 9 = s.treeInfo.leafCnt ∧ v.extractLsb' 27 5 = 0#5) ∧
      (addr = 0x40 → v.extractLsb' 24 2 = s.tblAddr.sel ∧ v.extractLsb' 8 9 = s.tblAddr.idx ∧
        v.extractLsb' 0 4 = s.tblAddr.word ∧ v.extractLsb' 26 6 = 0#6 ∧ v.extractLsb' 17 7 = 0#7 ∧
        v.extractLsb' 4 4 = 0#4) ∧
      (addr ∉ ([0x04, 0x08, 0x0C, 0x10, 0x14, 0x18, 0x1C, 0x20, 0x24, 0x28, 0x2C, 0x30, 0x40] : List (BitVec 8)) →
        v = 0#32)

/-- R26: a read of `TBL_DATA` never fails and has no side effect on the engine, and where R26 gives the value it is that one.
The list `hostReads` (log 4) and the counter of free values `freeCtr` (log 1 and 8) are the model's own fields. For an entry of
`CODE` with `valid` = 0 the value of word 0 is the model's reading of R26 and R88 (log 12, DEDUCED): U4 lists its `len` among the
values that may be anything. -/
def Obligations.WindowShowsTheTables : Prop :=
  ∀ (s : State) (rest : List HostAction), s.status.busy = false → s.program = .rd 0x44 :: rest →
    ∃ (v : Word) (n : Nat), step s = .next { s with program := rest, hostReads := s.hostReads ++ [v], freeCtr := n } ∧
      ∀ (idx : BitVec 9) (word : BitVec 4) (sym : Symbol), sym = idx.extractLsb' 0 8 →
        (s.tblAddr = ⟨0, idx, 0⟩ → s.status.freqV = true → idx.toNat < 256 → v = freqAt s.freq sym) ∧
        (s.tblAddr = ⟨1, idx, 0⟩ → s.status.treeV = true → idx.toNat < s.treeInfo.nodeCnt.toNat →
          ∃ nd, nodeAt s.nodes idx = some nd ∧ v = nd.weight) ∧
        (s.tblAddr = ⟨1, idx, 1⟩ → s.status.treeV = true → idx.toNat < s.treeInfo.nodeCnt.toNat →
          ∃ nd, nodeAt s.nodes idx = some nd ∧ v.getLsbD 26 = nd.leaf ∧ v.extractLsb' 18 8 = nd.sym ∧
            v.extractLsb' 9 9 = nd.left ∧ v.extractLsb' 0 9 = nd.right ∧ v.extractLsb' 27 5 = 0#5) ∧
        (s.tblAddr = ⟨2, idx, 0⟩ → s.status.codeV = true → idx.toNat < 256 →
          v.getLsbD 8 = (codeAt s.codes sym).valid ∧ v.extractLsb' 0 8 = BitVec.ofNat 8 (codeAt s.codes sym).len ∧
            v.extractLsb' 9 23 = 0#23) ∧
        (s.tblAddr = ⟨2, idx, word⟩ → 1 ≤ word.toNat → word.toNat ≤ 8 → s.status.codeV = true → idx.toNat < 256 →
          (codeAt s.codes sym).valid = true → ∀ j : Nat, j / 32 + 1 = word.toNat →
            v.getLsbD (31 - j % 32) = (codeAt s.codes sym).bits.getD j false)

/-- R12, R48, R154, U9, U11: an access the hardware does not have is refused by name: an unaligned one, or one while `BUSY` = 1.
That it is refused is the model's choice (log 7), after the treatment `refuse` of U9 and U11. -/
def Obligations.AccessesOutsideTheHardwareAreRefused : Prop :=
  ∀ (s : State) (addr : BitVec 8) (v : Word) (rest : List HostAction),
    s.program = .wr addr v :: rest ∨ s.program = .rd addr :: rest →
    (s.status.busy = true → step s = .refused .accessWhileBusy) ∧
    (s.status.busy = false → addr.toNat % 4 ≠ 0 → step s = .refused .unalignedAccess)

/-! ## Reset and the fault record -/

/-- R34, R151: every host register is 0 after hardware reset, in any state and in the state the model starts from; the streams,
the parameters and the host's remaining actions are untouched. -/
def Obligations.ResetClearsEveryHostRegister : Prop :=
  (∀ (s : State) (rest : List HostAction), s.program = .reset :: rest →
    ∃ t, step s = .next t ∧ t.status = ⟨false, false, false, false, false, false, false⟩ ∧ t.err = ⟨none, 0⟩ ∧
      t.errInfo = 0 ∧ t.sinLen = 0 ∧ t.binLen = 0 ∧ t.rcur = 0 ∧ t.wcnt = 0 ∧ t.soutCnt = 0 ∧ t.symCount = 0 ∧
      t.hdrBits = 0 ∧ t.payBits = 0 ∧ t.treeInfo = ⟨0, 0, 0⟩ ∧ t.tblAddr = ⟨0, 0, 0⟩ ∧ t.sin = s.sin ∧ t.bin = s.bin ∧
      t.bout = s.bout ∧ t.sout = s.sout ∧ t.marker = s.marker ∧ t.program = rest ∧ t.hostReads = s.hostReads) ∧
  State.reset.status = ⟨false, false, false, false, false, false, false⟩ ∧ State.reset.err = ⟨none, 0⟩ ∧
  State.reset.errInfo = 0 ∧ State.reset.sinLen = 0 ∧ State.reset.binLen = 0 ∧ State.reset.rcur = 0 ∧
  State.reset.wcnt = 0 ∧ State.reset.soutCnt = 0 ∧ State.reset.symCount = 0 ∧ State.reset.hdrBits = 0 ∧
  State.reset.payBits = 0 ∧ State.reset.treeInfo = ⟨0, 0, 0⟩ ∧ State.reset.tblAddr = ⟨0, 0, 0⟩

/-- R118: `RST` completes in every state, `FAULT` = 1 among them: every host register 0 but `DONE` = 1, the streams untouched. -/
def Obligations.RstDiscardsEverything : Prop :=
  encode .rst = 0x00000001#32 ∧
  ∀ s : State, ∃ t, exec .rst s = .next t ∧ t.status = ⟨false, true, false, false, false, false, false⟩ ∧
    t.err = ⟨none, 0⟩ ∧ t.errInfo = 0 ∧ t.sinLen = 0 ∧ t.binLen = 0 ∧ t.rcur = 0 ∧ t.wcnt = 0 ∧ t.soutCnt = 0 ∧
    t.symCount = 0 ∧ t.hdrBits = 0 ∧ t.payBits = 0 ∧ t.treeInfo = ⟨0, 0, 0⟩ ∧ t.tblAddr = ⟨0, 0, 0⟩ ∧
    t.sin = s.sin ∧ t.bin = s.bin ∧ t.bout = s.bout ∧ t.sout = s.sout ∧ t.marker = s.marker ∧ t.program = s.program ∧
    t.hostReads = s.hostReads

/-- R150, R151: a reset that abandons the word just written to `CMD` leaves every host register 0, `SIN`, `BIN` and the marker
untouched, and of the command only a part of what it appends, still appended to `BOUT` and `SOUT`. `t` is the state the command
would have left; a word that decodes to no command appends nothing. How much stays is free (log 9); `program` and `hostReads` are
the model's own fields (log 3 and 4). -/
def Obligations.AbandonedCommandKeepsOnlyItsAppends : Prop :=
  ∀ (s t : State) (c : Word) (rest : List HostAction), s.program = .resetDuring c :: rest → s.status.busy = false →
    (∃ i, decode c = .ok i ∧ exec i { s with program := rest } = .next t) ∨
      ((∀ i, decode c ≠ .ok i) ∧ t = { s with program := rest }) →
    ∃ u, step s = .next u ∧ u.status = ⟨false, false, false, false, false, false, false⟩ ∧ u.err = ⟨none, 0⟩ ∧
      u.errInfo = 0 ∧ u.sinLen = 0 ∧ u.binLen = 0 ∧ u.rcur = 0 ∧ u.wcnt = 0 ∧ u.soutCnt = 0 ∧ u.symCount = 0 ∧
      u.hdrBits = 0 ∧ u.payBits = 0 ∧ u.treeInfo = ⟨0, 0, 0⟩ ∧ u.tblAddr = ⟨0, 0, 0⟩ ∧ u.sin = s.sin ∧ u.bin = s.bin ∧
      u.marker = s.marker ∧ u.program = rest ∧ u.hostReads = s.hostReads ∧
      s.bout <+: u.bout ∧ u.bout <+: t.bout ∧ s.sout <+: u.sout ∧ u.sout <+: t.sout

/-- R131: what raising a fault records and what it leaves. -/
def Obligations.RaiseRecordsTheFault : Prop :=
  ∀ (opc : Opcode) (kind : FaultKind) (info : Word) (s : State),
    raise opc kind info s = { s with
      err := ⟨some kind, opc⟩
      errInfo := info
      status := { s.status with busy := false, done := false, fault := true } } ∧
    (raise opc kind info s).err.code =
      (match kind with
        | .emptyInput => 1#4 | .unknownSymbol => 2#4 | .truncatedStream => 3#4 | .malformedHeader => 4#4
        | .unterminatedCode => 5#4 | .illegalCommand => 6#4 | .badSequence => 7#4 | .capacityExceeded => 8#4)

/-- R31, R134: a command whose precondition fails raises `BadSequence` with `info` 0 before any write. -/
def Obligations.MissingPreconditionRaisesBadSequence : Prop :=
  ∀ (s : State) (i : Instr), s.status.fault = false →
    (i = .build ∧ s.status.freqV = false) ∨ (i = .gencodes ∧ s.status.treeV = false) ∨
      (i = .calclen ∧ (s.status.freqV = false ∨ s.status.treeV = false ∨ s.status.codeV = false)) ∨
      (i = .sttree ∧ s.status.treeV = false) ∨ (i = .encode ∧ s.status.codeV = false) ∨
      (i = .decn ∧ s.status.treeV = false) ∨ (i = .decl ∧ s.status.treeV = false) ∨
      (i = .wrhlen ∧ s.status.lenV = false) ∨ (i = .wrplen ∧ s.status.lenV = false) →
    exec i s = .next { s with
      err := ⟨some .badSequence, (encode i).extractLsb' 0 8⟩
      errInfo := 0
      status := { s.status with busy := false, done := false, fault := true } }

/-- R15, R16, R32: `FAULT` is cleared only by `RST` or by reset, and while it stays 1 the record of the first fault never changes. -/
def Obligations.OnlyResetsClearTheFault : Prop :=
  ∀ s t : State, step s = .next t → s.status.fault = true →
    (t.status.fault = false → ∃ (a : HostAction) (rest : List HostAction), s.program = a :: rest ∧
      (a = .reset ∨ (∃ c, a = .resetDuring c) ∨ a = .wr 0x00 0x00000001#32)) ∧
    (t.status.fault = true → t.err = s.err ∧ t.errInfo = s.errInfo)

/-! ## System commands and the frequency model -/

/-- R117: `NOP` sets `DONE`, and is ignored while `FAULT` = 1. -/
def Obligations.NopOnlySetsDone : Prop :=
  encode .nop = 0x00000000#32 ∧
  ∀ s : State,
    (s.status.fault = false → exec .nop s = .next { s with status := { s.status with busy := false, done := true } }) ∧
    (s.status.fault = true → exec .nop s = .next s)

/-- R75: `COUNT` counts every symbol occurrence of the input, writes all of `FREQ`, sets `FREQ_V`, clears `LEN_V`, and never
faults; the sum of all 256 counts equals `SIN_LEN`. -/
def Obligations.CountMakesTheFrequencyMap : Prop :=
  encode .count = 0x00000010#32 ∧
  ∀ s : State, s.status.fault = false →
    ∃ freq, exec .count s = .next { s with
        freq := freq
        status := { s.status with busy := false, done := true, freqV := true, lenV := false } } ∧
      (∀ v : Symbol, (freqAt freq v).toNat = ((List.range s.sinLen.toNat).map (symRead s)).count v) ∧
      freqTotal freq = s.sinLen.toNat

/-! ## The code-tree builder -/

/-- R80, R81, R82: the comparator is weight ascending, then handle ascending, a strict total order; and a removal from a queue that
is not empty takes the element that is before every other. -/
def Obligations.QueueRemovalTakesTheUniqueFirst : Prop :=
  ∀ (nodes : Vector Node 511),
    (∀ a b c : Handle,
      (before nodes a b = true ↔
        weightAt nodes a < weightAt nodes b ∨ (weightAt nodes a = weightAt nodes b ∧ a.toNat < b.toNat)) ∧
      before nodes a a = false ∧ (a ≠ b → before nodes a b = true ∨ before nodes b a = true) ∧
      (before nodes a b = true → before nodes b a = false) ∧
      (before nodes a b = true → before nodes b c = true → before nodes a c = true)) ∧
    ∀ q : List Handle,
      (q ≠ [] → ∃ a r, removeFirst nodes q = some (a, r)) ∧
      ∀ a r, removeFirst nodes q = some (a, r) → a ∈ q ∧ r = q.erase a ∧ ∀ b ∈ q, b ≠ a → before nodes a b = true

/-- R80, R81, R84: `BUILD` on a map of `k >= 1` symbols completes; it writes only the arena, `TREEINFO` and the flags; the leaves
stand at `0 .. k-1` in ascending symbol order with their counts, the internal nodes at `k .. 2k-2`, the root at `2k-2`. The
internal node at `j` merges the two handles removed from the queue at that turn: of the handles below `j` that are not yet a
child, its left child is before every other, and its right child is before every other but the left one. -/
def Obligations.BuildCompletesOnANonEmptyMap : Prop :=
  encode .build = 0x00000011#32 ∧
  ∀ (s : State) (present : List Symbol), s.status.fault = false → s.status.freqV = true →
    present = Config.allSymbols.filter (fun v => decide (0 < (freqAt s.freq v).toNat)) → present ≠ [] →
    ∃ nodes, exec .build s = .next { s with
        nodes := nodes
        treeInfo := ⟨BitVec.ofNat 9 (2 * present.length - 2), BitVec.ofNat 9 (2 * present.length - 1),
          BitVec.ofNat 9 present.length⟩
        status := { s.status with busy := false, done := true, treeV := true, codeV := false, lenV := false } } ∧
      (∀ (j : Nat) (h : j < present.length),
        nodes[j]? = some ⟨true, present[j], freqAt s.freq present[j], Config.nil, Config.nil⟩) ∧
      ∀ j : Nat, present.length ≤ j → j < 2 * present.length - 1 →
        ∃ nd, nodes[j]? = some nd ∧ nd.leaf = false ∧ nd.sym = 0 ∧ nd.left ≠ nd.right ∧
          PendingAt nodes present.length j nd.left ∧ PendingAt nodes present.length j nd.right ∧
          ∀ h : Handle, PendingAt nodes present.length j h →
            (h ≠ nd.left → before nodes nd.left h = true) ∧
            (h ≠ nd.left → h ≠ nd.right → before nodes nd.right h = true)

/-- R81, R119, R130: `BUILD` on the empty map raises `EmptyInput` and does not write `NODE` and `TREEINFO`; so `ENCFRAME` on the
empty input ends with `EmptyInput` recorded and nothing written to `BOUT`. -/
def Obligations.EmptyInputIsRaisedByBuild : Prop :=
  (∀ s : State, s.status.fault = false → s.status.freqV = true → (∀ v, freqAt s.freq v = 0) →
    exec .build s = .next { s with
      err := ⟨some .emptyInput, 0x11⟩
      errInfo := 0
      status := { s.status with
        busy := false, done := false, fault := true, treeV := false, codeV := false, lenV := false } }) ∧
  ∀ s : State, s.status.fault = false → s.sinLen = 0 →
    ∃ t, execAll encFrame s = .next t ∧ t.status.fault = true ∧ t.err = ⟨some .emptyInput, 0x11⟩ ∧ t.errInfo = 0 ∧
      t.bout = s.bout ∧ t.wcnt = s.wcnt

/-- R29, R84: a `BUILD` that completes leaves a well-formed tree whose leaf symbols are pairwise distinct and are exactly the
symbols of the map. -/
def Obligations.BuildMakesAWellFormedTree : Prop :=
  ∀ s t : State, s.status.fault = false → s.status.freqV = true → exec .build s = .next t → t.status.fault = false →
    treeWf t.nodes t.treeInfo = true ∧
    ∃ tree, t.tree = some tree ∧ tree.leaves.Nodup ∧ ∀ v, v ∈ tree.leaves ↔ 0 < (freqAt s.freq v).toNat

/-- R29 item 6, R83: every internal node's weight is the sum of its children's weights, with no wrap, and the root's weight is
the sum of all counts. The premise on the counts is `FreqOk`, which every step keeps. -/
def Obligations.BuildWeightsAreSums : Prop :=
  ∀ s t : State, s.status.fault = false → s.status.freqV = true → freqTotal s.freq < 2 ^ 32 →
    exec .build s = .next t → t.status.fault = false →
    (∀ (h : Handle) (nd : Node), h.toNat < t.treeInfo.nodeCnt.toNat → nodeAt t.nodes h = some nd → nd.leaf = false →
      nd.weight.toNat = weightAt t.nodes nd.left + weightAt t.nodes nd.right) ∧
    weightAt t.nodes t.treeInfo.root = freqTotal s.freq

/-- R84: the weights of internal nodes are non-decreasing in creation order. -/
def Obligations.MergeWeightsNeverDecrease : Prop :=
  ∀ s t : State, s.status.fault = false → s.status.freqV = true → freqTotal s.freq < 2 ^ 32 →
    exec .build s = .next t → t.status.fault = false →
    ∀ (h h' : Handle), t.treeInfo.leafCnt.toNat ≤ h.toNat → h.toNat ≤ h'.toNat →
      h'.toNat < t.treeInfo.nodeCnt.toNat → weightAt t.nodes h ≤ weightAt t.nodes h'

/-- R82: `BUILD` is a function of `FREQ` alone: from any two states with the same map the trees are the same, node by node. -/
def Obligations.BuildDependsOnTheMapAlone : Prop :=
  ∀ s s' t t' : State, s.freq = s'.freq → s.status.fault = false → s'.status.fault = false → s.status.freqV = true →
    s'.status.freqV = true → exec .build s = .next t → exec .build s' = .next t' →
    t.status.fault = t'.status.fault ∧
    (t.status.fault = false → t.treeInfo = t'.treeInfo ∧ t.tree = t'.tree ∧
      ∀ h : Handle, h.toNat < t.treeInfo.nodeCnt.toNat → nodeAt t.nodes h = nodeAt t'.nodes h)

/-! ## The code-table generator -/

/-- R88: `GENCODES` on a tree completes and writes every entry of `CODE`: the path of the symbol's last leaf in preorder, the
1-bit code for a lone leaf, no entry for an absent symbol; nothing else changes but the flags. -/
def Obligations.GencodesWritesThePathOfEverySymbol : Prop :=
  encode .gencodes = 0x00000012#32 ∧
  ∀ (s : State) (tree : Tree), s.status.fault = false → s.status.treeV = true → s.tree = some tree →
    ∃ codes, exec .gencodes s = .next { s with
        codes := codes
        status := { s.status with busy := false, done := true, codeV := true, lenV := false } } ∧
      ∀ v : Symbol, codeAt codes v = tree.codeEntry v

/-- R89: after `GENCODES` no code is a prefix of another symbol's code. -/
def Obligations.CodesArePrefixFree : Prop :=
  ∀ (s t : State), s.status.fault = false → s.status.treeV = true → exec .gencodes s = .next t →
    ∀ v w : Symbol, v ≠ w → (codeAt t.codes v).valid = true → (codeAt t.codes w).valid = true →
      ¬ (codeAt t.codes v).bits <+: (codeAt t.codes w).bits

/-- R29, R30, R88: in a well-formed tree every code has 1 to 255 bits, so `len` fits its 8 bits. -/
def Obligations.CodeLengthsFitTheirField : Prop :=
  ∀ (s t : State), s.status.fault = false → s.status.treeV = true → treeWf s.nodes s.treeInfo = true →
    exec .gencodes s = .next t → ∀ v : Symbol, (codeAt t.codes v).valid = true →
      1 ≤ (codeAt t.codes v).len ∧ (codeAt t.codes v).len ≤ 255

/-- R68, R90, R130, R134: `CALCLEN` completes when every symbol that occurs has a code and the payload length fits 32 bits:
`HDR_BITS` is `10 * LEAF_CNT - 1`, `PAY_BITS` the sum of `FREQ[s] * CODE[s].len`. It raises `UnknownSymbol` for the smallest
symbol that occurs and has no code, and otherwise `CapacityExceeded` when the payload length needs more than 32 bits; then `LEN_V`
is 0 and the lengths keep their values. The bound on `LEAF_CNT` is R25's. -/
def Obligations.CalclenComputesTheLengths : Prop :=
  encode .calclen = 0x00000013#32 ∧
  ∀ s : State, s.status.fault = false → s.status.freqV = true → s.status.treeV = true → s.status.codeV = true →
    ((∀ v, 0 < (freqAt s.freq v).toNat → (codeAt s.codes v).valid = true) → payloadTotal s.freq s.codes < 2 ^ 32 →
      1 ≤ s.treeInfo.leafCnt.toNat →
      exec .calclen s = .next { s with
        hdrBits := BitVec.ofNat 32 (10 * s.treeInfo.leafCnt.toNat - 1)
        payBits := BitVec.ofNat 32 (payloadTotal s.freq s.codes)
        status := { s.status with busy := false, done := true, lenV := true } }) ∧
    (∀ v : Symbol, 0 < (freqAt s.freq v).toNat → (codeAt s.codes v).valid = false →
      (∀ u : Symbol, u.toNat < v.toNat → 0 < (freqAt s.freq u).toNat → (codeAt s.codes u).valid = true) →
      exec .calclen s = .next { s with
        err := ⟨some .unknownSymbol, 0x13⟩
        errInfo := v.zeroExtend 32
        status := { s.status with busy := false, done := false, fault := true, lenV := false } }) ∧
    ((∀ v, 0 < (freqAt s.freq v).toNat → (codeAt s.codes v).valid = true) →
      2 ^ 32 ≤ payloadTotal s.freq s.codes →
      exec .calclen s = .next { s with
        err := ⟨some .capacityExceeded, 0x13⟩
        errInfo := 0
        status := { s.status with busy := false, done := false, fault := true, lenV := false } })

/-! ## The tree codec -/

/-- R94: `STTREE` appends exactly the header `H(T)` of the tree in the arena and changes nothing else but `WCNT` and `DONE`. -/
def Obligations.SttreeWritesTheHeader : Prop :=
  encode .sttree = 0x00000020#32 ∧
  ∀ (s : State) (tree : Tree), s.status.fault = false → s.status.treeV = true → s.tree = some tree →
    exec .sttree s = .next { s with
      bout := s.bout ++ tree.header
      wcnt := s.wcnt + BitVec.ofNat 32 tree.header.length
      status := { s.status with busy := false, done := true } }

/-- R29, R68: a well-formed arena holds a tree with `LEAF_CNT` leaves; its header has `10 * LEAF_CNT - 1` bits, 9 to 2559 of
them; and two trees with the same header are the same. -/
def Obligations.HeaderLengthLaw : Prop :=
  (∀ s : State, treeWf s.nodes s.treeInfo = true →
    ∃ tree, s.tree = some tree ∧ tree.leaves.length = s.treeInfo.leafCnt.toNat ∧
      tree.header.length = 10 * s.treeInfo.leafCnt.toNat - 1 ∧ 9 ≤ tree.header.length ∧ tree.header.length ≤ 2559) ∧
  ∀ a b : Tree, a.header = b.header → a = b

/-- R95, R96, R97, R98: `LDTREE` on a stream that holds the header of a tree of at most 256 leaves completes, having read exactly
the header, and so does `LDTREEB` when `HDR_BITS` is the header's length; the arena then holds that tree, its root is 0, every
weight is 0, and handles are in preorder: the left child of an internal node `j` is `j + 1`, its right child `j + 1 +` the number
of nodes of the left subtree. -/
def Obligations.LoadsRebuildTheTree : Prop :=
  encode .ldtree = 0x00000021#32 ∧ encode .ldtreeb = 0x00000022#32 ∧
  ∀ (s : State) (tree : Tree) (i : Instr), i = .ldtree ∨ (i = .ldtreeb ∧ s.hdrBits.toNat = tree.header.length) →
    s.status.fault = false → tree.leaves.length ≤ 256 → BinHolds s tree.header →
    ∃ nodes, exec i s = .next { s with
        nodes := nodes
        treeInfo := ⟨0, BitVec.ofNat 9 (2 * tree.leaves.length - 1), BitVec.ofNat 9 tree.leaves.length⟩
        rcur := s.rcur + BitVec.ofNat 32 (10 * tree.leaves.length - 1)
        status := { s.status with busy := false, done := true, treeV := true, codeV := false, lenV := false } } ∧
      treeOf nodes Config.nodeMax 0 = some tree ∧
      ∀ j : Nat, j < 2 * tree.leaves.length - 1 → ∃ nd, nodes[j]? = some nd ∧ nd.weight = 0 ∧
        (nd.leaf = true → nd.left = Config.nil ∧ nd.right = Config.nil) ∧
        (nd.leaf = false → nd.sym = 0 ∧ nd.left = BitVec.ofNat 9 (j + 1) ∧
          ∃ below, handlesFrom nodes Config.nodeMax nd.left = some below ∧
            nd.right = BitVec.ofNat 9 (j + 1 + below.length))

/-- R97, R98: conversely, a load that completes has read exactly the header of the tree it leaves, which is well formed. -/
def Obligations.LoadedTreeIsTheHeaderRead : Prop :=
  ∀ (s t : State) (i : Instr), i = .ldtree ∨ i = .ldtreeb → s.status.fault = false → exec i s = .next t →
    t.status.fault = false →
    treeWf t.nodes t.treeInfo = true ∧
    ∃ tree, t.tree = some tree ∧ BinHolds s tree.header ∧ t.rcur.toNat = s.rcur.toNat + tree.header.length ∧
      (i = .ldtreeb → s.hdrBits.toNat = tree.header.length)

/-- R95, R96, R130, R134: how a load fails on a stream that starts a header and what it records. In the first three clauses `q`
is a beginning of a header, of a tree of any size, that is neither complete nor holds 511 nodes. The first two: the stream ends
after `q`. The third: the declared length ends after `q`, whether or not the stream goes on. The fourth: `q` is the whole header
of a tree that fits the arena, and the declared length is longer. -/
def Obligations.LoadsFaultOnABrokenHeader : Prop :=
  ∀ (s : State) (tree : Tree) (q : List Bit), s.status.fault = false → q <+: tree.loadableBits →
    (q ≠ tree.loadableBits → BinEndsAfter s q →
      ∃ nodes, exec .ldtree s = .next { s with
        nodes := nodes
        rcur := s.rcur + BitVec.ofNat 32 q.length
        err := ⟨some .malformedHeader, 0x21⟩
        errInfo := s.rcur + BitVec.ofNat 32 q.length
        status := { s.status with
          busy := false, done := false, fault := true, treeV := false, codeV := false, lenV := false } }) ∧
    (q ≠ tree.loadableBits → BinEndsAfter s q → q.length < s.hdrBits.toNat →
      ∃ nodes, exec .ldtreeb s = .next { s with
        nodes := nodes
        rcur := s.rcur + BitVec.ofNat 32 q.length
        err := ⟨some .truncatedStream, 0x22⟩
        errInfo := s.rcur + BitVec.ofNat 32 q.length
        status := { s.status with
          busy := false, done := false, fault := true, treeV := false, codeV := false, lenV := false } }) ∧
    (q ≠ tree.loadableBits → BinHolds s q → s.hdrBits.toNat = q.length →
      ∃ nodes, exec .ldtreeb s = .next { s with
        nodes := nodes
        rcur := s.rcur + BitVec.ofNat 32 q.length
        err := ⟨some .malformedHeader, 0x22⟩
        errInfo := s.rcur + BitVec.ofNat 32 q.length
        status := { s.status with
          busy := false, done := false, fault := true, treeV := false, codeV := false, lenV := false } }) ∧
    (tree.leaves.length ≤ 256 → q = tree.header → BinHolds s q → q.length < s.hdrBits.toNat →
      ∃ nodes, exec .ldtreeb s = .next { s with
        nodes := nodes
        rcur := s.rcur + BitVec.ofNat 32 q.length
        err := ⟨some .malformedHeader, 0x22⟩
        errInfo := s.rcur + BitVec.ofNat 32 q.length
        status := { s.status with
          busy := false, done := false, fault := true, treeV := false, codeV := false, lenV := false } })

/-- R95, R96, R98, R130, R134: a load whose header calls for a 512th node raises `CapacityExceeded` after the bits of the first
511 nodes, whatever the stream holds after them: the capacity is tested before the next marker bit, so before the declared length
and before the end of the stream. The last clause is R95's corner case 4: 511 zero bits are such a beginning. -/
def Obligations.LoadOfTooManyNodesIsCapacityExceeded : Prop :=
  (∀ (s : State) (tree : Tree), s.status.fault = false → 256 < tree.leaves.length → BinHolds s tree.loadableBits →
    (∃ nodes, exec .ldtree s = .next { s with
      nodes := nodes
      rcur := s.rcur + BitVec.ofNat 32 tree.loadableBits.length
      err := ⟨some .capacityExceeded, 0x21⟩
      errInfo := s.rcur + BitVec.ofNat 32 tree.loadableBits.length
      status := { s.status with
        busy := false, done := false, fault := true, treeV := false, codeV := false, lenV := false } }) ∧
    (tree.loadableBits.length ≤ s.hdrBits.toNat → ∃ nodes, exec .ldtreeb s = .next { s with
      nodes := nodes
      rcur := s.rcur + BitVec.ofNat 32 tree.loadableBits.length
      err := ⟨some .capacityExceeded, 0x22⟩
      errInfo := s.rcur + BitVec.ofNat 32 tree.loadableBits.length
      status := { s.status with
        busy := false, done := false, fault := true, treeV := false, codeV := false, lenV := false } })) ∧
  ∀ s : State, s.status.fault = false → BinHolds s (List.replicate 511 false) →
    (∃ nodes, exec .ldtree s = .next { s with
      nodes := nodes
      rcur := s.rcur + 511
      err := ⟨some .capacityExceeded, 0x21⟩
      errInfo := s.rcur + 511
      status := { s.status with
        busy := false, done := false, fault := true, treeV := false, codeV := false, lenV := false } }) ∧
    (511 ≤ s.hdrBits.toNat → ∃ nodes, exec .ldtreeb s = .next { s with
      nodes := nodes
      rcur := s.rcur + 511
      err := ⟨some .capacityExceeded, 0x22⟩
      errInfo := s.rcur + 511
      status := { s.status with
        busy := false, done := false, fault := true, treeV := false, codeV := false, lenV := false } })

/-! ## The payload codec -/

/-- R69, R100: `ENCODE` appends the code of every input symbol in order; at the first symbol without a code it raises
`UnknownSymbol`, the bits before it staying written. -/
def Obligations.EncodeWritesThePayload : Prop :=
  encode .encode = 0x00000030#32 ∧
  ∀ s : State, s.status.fault = false → s.status.codeV = true →
    ((∀ v ∈ (List.range s.sinLen.toNat).map (symRead s), (codeAt s.codes v).valid = true) →
      exec .encode s = .next { s with
        bout := s.bout ++ payloadOf s.codes ((List.range s.sinLen.toNat).map (symRead s))
        wcnt := s.wcnt + BitVec.ofNat 32 (payloadOf s.codes ((List.range s.sinLen.toNat).map (symRead s))).length
        status := { s.status with busy := false, done := true } }) ∧
    ∀ (pre post : List Symbol) (v : Symbol), (List.range s.sinLen.toNat).map (symRead s) = pre ++ v :: post →
      (∀ u ∈ pre, (codeAt s.codes u).valid = true) → (codeAt s.codes v).valid = false →
      exec .encode s = .next { s with
        bout := s.bout ++ payloadOf s.codes pre
        wcnt := s.wcnt + BitVec.ofNat 32 (payloadOf s.codes pre).length
        err := ⟨some .unknownSymbol, 0x30⟩
        errInfo := v.zeroExtend 32
        status := { s.status with busy := false, done := false, fault := true } }

/-- R69, R90 corner case 3: the payload of an input has the length computed from its counts. -/
def Obligations.PayloadLengthIsTheWeightedSum : Prop :=
  ∀ (freq : Vector Word 256) (codes : Vector CodeEntry 256) (input : List Symbol),
    (∀ v, (freqAt freq v).toNat = input.count v) → (payloadOf codes input).length = payloadTotal freq codes

/-- R101, R103: `DECN` on a stream that holds `SYM_COUNT` codewords of the tree completes; it emits their symbols and reads
exactly their bits. -/
def Obligations.DecnDecodesTheDeclaredCount : Prop :=
  encode .decn = 0x00000031#32 ∧
  ∀ (s : State) (tree : Tree) (words : List (Symbol × List Bit)), s.status.fault = false → s.status.treeV = true →
    s.tree = some tree → (∀ w ∈ words, tree.Codeword w.1 w.2) → s.symCount.toNat = words.length →
    BinHolds s (words.map Prod.snd).flatten →
    exec .decn s = .next { s with
      sout := s.sout ++ words.map Prod.fst
      soutCnt := s.soutCnt + BitVec.ofNat 32 words.length
      rcur := s.rcur + BitVec.ofNat 32 (words.map Prod.snd).flatten.length
      status := { s.status with busy := false, done := true } }

/-- R102, R103: `DECL` on a stream whose first `PAY_BITS` bits are codewords of the tree completes likewise. -/
def Obligations.DeclDecodesTheDeclaredLength : Prop :=
  encode .decl = 0x00000032#32 ∧
  ∀ (s : State) (tree : Tree) (words : List (Symbol × List Bit)), s.status.fault = false → s.status.treeV = true →
    s.tree = some tree → (∀ w ∈ words, tree.Codeword w.1 w.2) →
    s.payBits.toNat = (words.map Prod.snd).flatten.length → BinHolds s (words.map Prod.snd).flatten →
    exec .decl s = .next { s with
      sout := s.sout ++ words.map Prod.fst
      soutCnt := s.soutCnt + BitVec.ofNat 32 words.length
      rcur := s.rcur + s.payBits
      status := { s.status with busy := false, done := true } }

/-- R101, R130: the stream ends with symbols owed, after the codewords `words` and the beginning `q` of another: `DECN` raises
`TruncatedStream` between codewords (`q` empty) and `UnterminatedCode` mid-walk; what was emitted stays. -/
def Obligations.DecnFaultsAtTheEndOfTheStream : Prop :=
  ∀ (s : State) (tree : Tree) (words : List (Symbol × List Bit)) (q : List Bit), s.status.fault = false →
    s.status.treeV = true → s.tree = some tree → (∀ w ∈ words, tree.Codeword w.1 w.2) →
    words.length < s.symCount.toNat → q = [] ∨ tree.innerAt q = true →
    BinEndsAfter s ((words.map Prod.snd).flatten ++ q) →
    exec .decn s = .next { s with
      sout := s.sout ++ words.map Prod.fst
      soutCnt := s.soutCnt + BitVec.ofNat 32 words.length
      rcur := s.rcur + BitVec.ofNat 32 ((words.map Prod.snd).flatten ++ q).length
      err := ⟨some (if q = [] then .truncatedStream else .unterminatedCode), 0x31⟩
      errInfo := s.rcur + BitVec.ofNat 32 ((words.map Prod.snd).flatten ++ q).length
      status := { s.status with busy := false, done := false, fault := true } }

/-- R102, R130, R134: `DECL` raises `TruncatedStream` when the stream ends before `PAY_BITS` bits, wherever the walk stands, and
`UnterminatedCode` when `PAY_BITS` bits are consumed and the walk is not at the root; what was emitted stays. -/
def Obligations.DeclFaultsOnABrokenPayload : Prop :=
  ∀ (s : State) (tree : Tree) (words : List (Symbol × List Bit)) (q : List Bit), s.status.fault = false →
    s.status.treeV = true → s.tree = some tree → (∀ w ∈ words, tree.Codeword w.1 w.2) → q = [] ∨ tree.innerAt q = true →
    (BinEndsAfter s ((words.map Prod.snd).flatten ++ q) →
      ((words.map Prod.snd).flatten ++ q).length < s.payBits.toNat →
      exec .decl s = .next { s with
        sout := s.sout ++ words.map Prod.fst
        soutCnt := s.soutCnt + BitVec.ofNat 32 words.length
        rcur := s.rcur + BitVec.ofNat 32 ((words.map Prod.snd).flatten ++ q).length
        err := ⟨some .truncatedStream, 0x32⟩
        errInfo := s.rcur + BitVec.ofNat 32 ((words.map Prod.snd).flatten ++ q).length
        status := { s.status with busy := false, done := false, fault := true } }) ∧
    (BinHolds s ((words.map Prod.snd).flatten ++ q) → q ≠ [] →
      s.payBits.toNat = ((words.map Prod.snd).flatten ++ q).length →
      exec .decl s = .next { s with
        sout := s.sout ++ words.map Prod.fst
        soutCnt := s.soutCnt + BitVec.ofNat 32 words.length
        rcur := s.rcur + s.payBits
        err := ⟨some .unterminatedCode, 0x32⟩
        errInfo := s.rcur + s.payBits
        status := { s.status with busy := false, done := false, fault := true } })

/-- R105: a decode that completes has emitted exactly `SYM_COUNT` symbols (`DECN`) or consumed exactly `PAY_BITS` bits (`DECL`). -/
def Obligations.DecodersKeepTheDeclaredSize : Prop :=
  ∀ s t : State, s.status.fault = false → t.status.fault = false →
    (exec .decn s = .next t → ∃ vs, t.sout = s.sout ++ vs ∧ vs.length = s.symCount.toNat) ∧
    (exec .decl s = .next t → t.rcur.toNat = s.rcur.toNat + s.payBits.toNat)

/-- R104: the payload round trip. What `ENCODE` writes under the Code Table of a tree, `DECN` and `DECL` turn back into the
input, in any state with the same tree, built or reloaded, whatever follows the payload in the stream. The premise on `CODE` is
`DerivedOk`, which every step keeps. -/
def Obligations.PayloadRoundTrip : Prop :=
  ∀ (s u : State) (tree : Tree) (payload : List Bit), s.tree = some tree → codeTable s.nodes s.treeInfo.root = .ok s.codes →
    (∀ v ∈ inputSymbols s, (codeAt s.codes v).valid = true) → s.status.fault = false → s.status.codeV = true →
    payload = payloadOf s.codes (inputSymbols s) →
    u.tree = some tree → u.status.fault = false → u.status.treeV = true → BinHolds u payload →
    exec .encode s = .next (complete (wrote payload s)) ∧
    (u.symCount = s.sinLen →
      exec .decn u = .next (complete (advanced payload.length (emittedAll (inputSymbols s) u)))) ∧
    (u.payBits.toNat = payload.length →
      exec .decl u = .next (complete (advanced payload.length (emittedAll (inputSymbols s) u))))

/-- R104: after `COUNT; BUILD; GENCODES` on an input that is not empty, `ENCODE` completes. -/
def Obligations.EveryInputCanBeEncoded : Prop :=
  ∀ s : State, s.status.fault = false → 1 ≤ s.sinLen.toNat →
    ∃ t, execAll [.count, .build, .gencodes] s = .next t ∧ t.status.fault = false ∧ t.bout = s.bout ∧
      exec .encode t = .next (complete (wrote (payloadOf t.codes (inputSymbols s)) t))

/-! ## Framing -/

/-- R45, R46, R70: `WriteInt(v, w)` appends `w` bits, bit `j` of them the bit of weight `2^(w-1-j)`; `ReadInt(w)` of those bits
returns `v`; when the stream ends inside the field it is `EOS` and `RCUR` stays after the last bit that was read. -/
def Obligations.ReadIntInvertsWriteInt : Prop :=
  ∀ (s : State) (w v : Nat), w ≤ 32 → v < 2 ^ w →
    (∃ p : List Bit, p.length = w ∧ writeInt v w s = wrote p s ∧ (∀ j (h : j < p.length), p[j] = v.testBit (w - 1 - j)) ∧
      ∀ u : State, BinHolds u p → readInt w u = (some v, advanced w u)) ∧
    ∀ q : List Bit, q.length < w → BinEndsAfter s q → readInt w s = (none, advanced q.length s)

/-- R110, R112, R114: the three writing commands of fixed-width fields append the marker, `HDR_BITS`, `PAY_BITS`. -/
def Obligations.FieldWritersAppendTheirField : Prop :=
  encode .wrmark = 0x00000040#32 ∧ encode .wrhlen = 0x00000042#32 ∧ encode .wrplen = 0x00000044#32 ∧
  ∀ s : State, s.status.fault = false →
    exec .wrmark s = .next { s with
      bout := s.bout ++ intBits s.marker.value.toNat s.marker.width
      wcnt := s.wcnt + BitVec.ofNat 32 s.marker.width
      status := { s.status with busy := false, done := true } } ∧
    (s.status.lenV = true → exec .wrhlen s = .next { s with
      bout := s.bout ++ intBits s.hdrBits.toNat 32
      wcnt := s.wcnt + 32
      status := { s.status with busy := false, done := true } }) ∧
    (s.status.lenV = true → exec .wrplen s = .next { s with
      bout := s.bout ++ intBits s.payBits.toNat 32
      wcnt := s.wcnt + 32
      status := { s.status with busy := false, done := true } })

/-- R111: `RDMARK` completes on the marker's bits; other bits of that width are `MalformedHeader`; a stream that ends inside the
marker is `TruncatedStream`. `RCUR` is not rewound. -/
def Obligations.RdmarkChecksTheMarker : Prop :=
  encode .rdmark = 0x00000041#32 ∧
  ∀ (s : State) (p : List Bit), s.status.fault = false → s.marker.wf = true →
    (p = intBits s.marker.value.toNat s.marker.width → BinHolds s p →
      exec .rdmark s = .next { s with
        rcur := s.rcur + BitVec.ofNat 32 s.marker.width
        status := { s.status with busy := false, done := true } }) ∧
    (p.length = s.marker.width → p ≠ intBits s.marker.value.toNat s.marker.width → BinHolds s p →
      exec .rdmark s = .next { s with
        rcur := s.rcur + BitVec.ofNat 32 s.marker.width
        err := ⟨some .malformedHeader, 0x41⟩
        errInfo := s.rcur + BitVec.ofNat 32 s.marker.width
        status := { s.status with busy := false, done := false, fault := true } }) ∧
    (p.length < s.marker.width → BinEndsAfter s p →
      exec .rdmark s = .next { s with
        rcur := s.rcur + BitVec.ofNat 32 p.length
        err := ⟨some .truncatedStream, 0x41⟩
        errInfo := s.rcur + BitVec.ofNat 32 p.length
        status := { s.status with busy := false, done := false, fault := true } })

/-- R113, R115: `RDHLEN` and `RDPLEN` read 32 bits into their register and clear `LEN_V`; a stream that ends inside the field is
`TruncatedStream`, the register unchanged. -/
def Obligations.LengthReadersFillTheirRegister : Prop :=
  encode .rdhlen = 0x00000043#32 ∧ encode .rdplen = 0x00000045#32 ∧
  ∀ s : State, s.status.fault = false →
    (∀ v : Word, BinHolds s (intBits v.toNat 32) →
      exec .rdhlen s = .next { s with
        hdrBits := v
        rcur := s.rcur + 32
        status := { s.status with busy := false, done := true, lenV := false } } ∧
      exec .rdplen s = .next { s with
        payBits := v
        rcur := s.rcur + 32
        status := { s.status with busy := false, done := true, lenV := false } }) ∧
    (∀ p : List Bit, p.length < 32 → BinEndsAfter s p →
      exec .rdhlen s = .next { s with
        rcur := s.rcur + BitVec.ofNat 32 p.length
        err := ⟨some .truncatedStream, 0x43⟩
        errInfo := s.rcur + BitVec.ofNat 32 p.length
        status := { s.status with busy := false, done := false, fault := true, lenV := false } } ∧
      exec .rdplen s = .next { s with
        rcur := s.rcur + BitVec.ofNat 32 p.length
        err := ⟨some .truncatedStream, 0x45⟩
        errInfo := s.rcur + BitVec.ofNat 32 p.length
        status := { s.status with busy := false, done := false, fault := true, lenV := false } })

/-- R116: `PAD` appends 0 to 7 zero bits and leaves `WCNT` a multiple of 8. -/
def Obligations.PadReachesTheByteBoundary : Prop :=
  encode .pad = 0x00000046#32 ∧
  ∀ s : State, s.status.fault = false →
    ∃ p : Nat, p < 8 ∧ (s.wcnt + BitVec.ofNat 32 p).toNat % 8 = 0 ∧ (s.wcnt.toNat + p) % 8 = 0 ∧
      exec .pad s = .next { s with
        bout := s.bout ++ List.replicate p false
        wcnt := s.wcnt + BitVec.ofNat 32 p
        status := { s.status with busy := false, done := true } }

/-- R71, R119: `ENCFRAME` on an input that is not empty, from a byte boundary, writes exactly the frame of R71 and then the zero
bits up to the next byte boundary, for every marker; the premise on the payload is R119's `CapacityExceeded` case. -/
def Obligations.EncframeWritesTheFrame : Prop :=
  ∀ (s g : State), s.status.fault = false → 1 ≤ s.sinLen.toNat → s.marker.wf = true → s.wcnt.toNat % 8 = 0 →
    execAll [.count, .build, .gencodes] s = .next g →
    (payloadOf g.codes (inputSymbols s)).length < 2 ^ 32 →
    ∃ (t : State) (tree : Tree) (pad : Nat), execAll encFrame s = .next t ∧ t.status.fault = false ∧ g.tree = some tree ∧
      t.tree = some tree ∧ pad < 8 ∧
      t.bout = s.bout ++ frameBits s.marker tree (payloadOf g.codes (inputSymbols s)) ++ List.replicate pad false ∧
      ((frameBits s.marker tree (payloadOf g.codes (inputSymbols s))).length + pad) % 8 = 0

/-- R71, R120: `DECFRAME` on a stream that holds a frame, with anything after it, emits the symbols whose codewords the payload
is made of and stops on the first bit after the payload. -/
def Obligations.DecframeReadsTheFrame : Prop :=
  ∀ (s : State) (tree : Tree) (words : List (Symbol × List Bit)), s.status.fault = false → s.marker.wf = true →
    tree.leaves.length ≤ 256 → (∀ w ∈ words, tree.Codeword w.1 w.2) →
    BinHolds s (frameBits s.marker tree (words.map Prod.snd).flatten) →
    ∃ t, execAll decFrame s = .next t ∧ t.status.fault = false ∧ t.tree = some tree ∧
      t.sout = s.sout ++ words.map Prod.fst ∧
      t.rcur.toNat = s.rcur.toNat + (frameBits s.marker tree (words.map Prod.snd).flatten).length ∧
      t.bout = s.bout ∧ t.freq = s.freq

/-! ## The whole machine -/

/-- R15 to R28, R30: each table and each host register but `STATUS` is written only by the commands its rule names, `RST` (which
clears every register) apart: `ERR` and `ERRINFO` only by the fault that sets `FAULT`, `WCNT` and `SOUT_CNT` only by the commands
that append, `SIN_LEN`, `BIN_LEN`, `SYM_COUNT`, `TBL_ADDR` by none. `freeCtr` is the model's own field (log 1). -/
def Obligations.StateIsWrittenOnlyByItsCommands : Prop :=
  ∀ (s t : State) (i : Instr), exec i s = .next t → i ≠ .rst →
    (i ≠ .count → t.freq = s.freq) ∧
    (i ∉ [.build, .ldtree, .ldtreeb] → t.nodes = s.nodes ∧ t.treeInfo = s.treeInfo) ∧
    (i ≠ .gencodes → t.codes = s.codes) ∧
    t.sinLen = s.sinLen ∧ t.binLen = s.binLen ∧ t.symCount = s.symCount ∧ t.tblAddr = s.tblAddr ∧
    (i ≠ .calclen → i ≠ .rdhlen → t.hdrBits = s.hdrBits) ∧ (i ≠ .calclen → i ≠ .rdplen → t.payBits = s.payBits) ∧
    (i ∉ [.ldtree, .ldtreeb, .decn, .decl, .rdmark, .rdhlen, .rdplen] → t.rcur = s.rcur) ∧
    (i ∉ [.sttree, .encode, .wrmark, .wrhlen, .wrplen, .pad] → t.wcnt = s.wcnt) ∧
    (i ≠ .decn → i ≠ .decl → t.soutCnt = s.soutCnt) ∧
    (t.status.fault = s.status.fault → t.err = s.err ∧ t.errInfo = s.errInfo) ∧ t.freeCtr = s.freeCtr

/-- R19, R20, R21, R35, R42, R44: every command leaves `SIN`, `BIN`, the marker and the host's actions alone, only appends to
`BOUT` and `SOUT`, each by its own commands, and `WCNT` and `SOUT_CNT` count what was appended. -/
def Obligations.StreamsAreOnlyAppendedTo : Prop :=
  ∀ (s t : State) (i : Instr), exec i s = .next t →
    t.sin = s.sin ∧ t.bin = s.bin ∧ t.marker = s.marker ∧ t.program = s.program ∧ t.hostReads = s.hostReads ∧
    ∃ (p : List Bit) (vs : List Symbol), t.bout = s.bout ++ p ∧ t.sout = s.sout ++ vs ∧
      (i ∉ [.sttree, .encode, .wrmark, .wrhlen, .wrplen, .pad] → p = []) ∧ (i ≠ .decn → i ≠ .decl → vs = []) ∧
      (i ≠ .rst → t.wcnt = s.wcnt + BitVec.ofNat 32 p.length ∧ t.soutCnt = s.soutCnt + BitVec.ofNat 32 vs.length)

/-- R31: the summary table of the valid bits: what a command that completes sets and clears, and what one that faults clears (a
`BadSequence` clears nothing). -/
def Obligations.ValidBitsFollowTheTable : Prop :=
  ∀ (s t : State) (i : Instr), s.status.fault = false → exec i s = .next t →
    (t.status.fault = false → t.status.done = true ∧
      t.status.freqV = (if i = .rst then false else if i = .count then true else s.status.freqV) ∧
      t.status.treeV = (if i = .rst then false else if i ∈ [.build, .ldtree, .ldtreeb] then true else s.status.treeV) ∧
      t.status.codeV = (if i ∈ [.rst, .build, .ldtree, .ldtreeb] then false else if i = .gencodes then true
        else s.status.codeV) ∧
      t.status.lenV = (if i ∈ [.rst, .count, .build, .gencodes, .ldtree, .ldtreeb, .rdhlen, .rdplen] then false
        else if i = .calclen then true else s.status.lenV)) ∧
    (t.status.fault = true → t.status.done = false ∧ i ∉ [.nop, .rst, .count, .wrmark, .pad] ∧
      t.status.freqV = s.status.freqV ∧
      (t.err.kind = some .badSequence → t.status.treeV = s.status.treeV ∧ t.status.codeV = s.status.codeV ∧
        t.status.lenV = s.status.lenV) ∧
      (t.err.kind ≠ some .badSequence →
        t.status.treeV = (if i ∈ [.build, .ldtree, .ldtreeb] then false else s.status.treeV) ∧
        t.status.codeV = (if i ∈ [.build, .ldtree, .ldtreeb] then false else s.status.codeV) ∧
        t.status.lenV = (if i ∈ [.build, .ldtree, .ldtreeb, .calclen, .rdhlen, .rdplen] then false
          else s.status.lenV)))

/-- Every step keeps the agreement of the status register and the fault record (R8, R14, R15, R31, R32). -/
def Obligations.StepKeepsStatusOk : Prop :=
  ∀ s t : State, StatusOk s → step s = .next t → StatusOk t

/-- Every step keeps R29: while `TREE_V` = 1 the arena holds a well-formed tree. -/
def Obligations.StepKeepsTheWellFormedTree : Prop :=
  ∀ s t : State, TreeOk s → step s = .next t → TreeOk t

/-- Every step keeps what R14 says of `CODE_V` and `LEN_V`: the Code Table is that of the tree, the lengths are those of the
tables. -/
def Obligations.StepKeepsTheDerivedTables : Prop :=
  ∀ s t : State, DerivedOk s → step s = .next t → DerivedOk t

/-- Every step keeps the bound on the counts (R75, R83). -/
def Obligations.StepKeepsTheCountBound : Prop :=
  ∀ s t : State, FreqOk s → step s = .next t → FreqOk t

/-- The state after reset meets every invariant. -/
def Obligations.ResetMeetsTheInvariants : Prop :=
  StatusOk State.reset ∧ TreeOk State.reset ∧ DerivedOk State.reset ∧ FreqOk State.reset ∧ ProgramOk State.reset

/-- R8, R156: from every state that meets the invariants a step never stops: every host action of the hardware, every command
among them, has its next state. -/
def Obligations.StepNeverStops : Prop :=
  ∀ s : State, StatusOk s → TreeOk s → ProgramOk s → ∃ t, step s = .next t
end

