-- ==== Sys2Proof/Laws/State.lean ====
section
/-! SUPPORT. One lemma per field per update of the state, each true by definition, so that no later proof unfolds a record update. -/

namespace Sys2Proof.Machine

variable (s : State)

@[simp] theorem accept_status : (accept s).status = { s.status with busy := true, done := false } := rfl
@[simp] theorem accept_err : (accept s).err = s.err := rfl
@[simp] theorem accept_errInfo : (accept s).errInfo = s.errInfo := rfl
@[simp] theorem accept_sinLen : (accept s).sinLen = s.sinLen := rfl
@[simp] theorem accept_binLen : (accept s).binLen = s.binLen := rfl
@[simp] theorem accept_rcur : (accept s).rcur = s.rcur := rfl
@[simp] theorem accept_wcnt : (accept s).wcnt = s.wcnt := rfl
@[simp] theorem accept_soutCnt : (accept s).soutCnt = s.soutCnt := rfl
@[simp] theorem accept_symCount : (accept s).symCount = s.symCount := rfl
@[simp] theorem accept_hdrBits : (accept s).hdrBits = s.hdrBits := rfl
@[simp] theorem accept_payBits : (accept s).payBits = s.payBits := rfl
@[simp] theorem accept_treeInfo : (accept s).treeInfo = s.treeInfo := rfl
@[simp] theorem accept_tblAddr : (accept s).tblAddr = s.tblAddr := rfl
@[simp] theorem accept_freq : (accept s).freq = s.freq := rfl
@[simp] theorem accept_nodes : (accept s).nodes = s.nodes := rfl
@[simp] theorem accept_codes : (accept s).codes = s.codes := rfl
@[simp] theorem accept_sin : (accept s).sin = s.sin := rfl
@[simp] theorem accept_bin : (accept s).bin = s.bin := rfl
@[simp] theorem accept_bout : (accept s).bout = s.bout := rfl
@[simp] theorem accept_sout : (accept s).sout = s.sout := rfl
@[simp] theorem accept_marker : (accept s).marker = s.marker := rfl
@[simp] theorem accept_program : (accept s).program = s.program := rfl
@[simp] theorem accept_hostReads : (accept s).hostReads = s.hostReads := rfl
@[simp] theorem accept_freeCtr : (accept s).freeCtr = s.freeCtr := rfl

@[simp] theorem complete_status : (complete s).status = { s.status with busy := false, done := true } := rfl
@[simp] theorem complete_err : (complete s).err = s.err := rfl
@[simp] theorem complete_errInfo : (complete s).errInfo = s.errInfo := rfl
@[simp] theorem complete_sinLen : (complete s).sinLen = s.sinLen := rfl
@[simp] theorem complete_binLen : (complete s).binLen = s.binLen := rfl
@[simp] theorem complete_rcur : (complete s).rcur = s.rcur := rfl
@[simp] theorem complete_wcnt : (complete s).wcnt = s.wcnt := rfl
@[simp] theorem complete_soutCnt : (complete s).soutCnt = s.soutCnt := rfl
@[simp] theorem complete_symCount : (complete s).symCount = s.symCount := rfl
@[simp] theorem complete_hdrBits : (complete s).hdrBits = s.hdrBits := rfl
@[simp] theorem complete_payBits : (complete s).payBits = s.payBits := rfl
@[simp] theorem complete_treeInfo : (complete s).treeInfo = s.treeInfo := rfl
@[simp] theorem complete_tblAddr : (complete s).tblAddr = s.tblAddr := rfl
@[simp] theorem complete_freq : (complete s).freq = s.freq := rfl
@[simp] theorem complete_nodes : (complete s).nodes = s.nodes := rfl
@[simp] theorem complete_codes : (complete s).codes = s.codes := rfl
@[simp] theorem complete_sin : (complete s).sin = s.sin := rfl
@[simp] theorem complete_bin : (complete s).bin = s.bin := rfl
@[simp] theorem complete_bout : (complete s).bout = s.bout := rfl
@[simp] theorem complete_sout : (complete s).sout = s.sout := rfl
@[simp] theorem complete_marker : (complete s).marker = s.marker := rfl
@[simp] theorem complete_program : (complete s).program = s.program := rfl
@[simp] theorem complete_hostReads : (complete s).hostReads = s.hostReads := rfl
@[simp] theorem complete_freeCtr : (complete s).freeCtr = s.freeCtr := rfl

@[simp] theorem raise_status (opc : Opcode) (k : FaultKind) (info : Word) : (raise opc k info s).status = { s.status with busy := false, done := false, fault := true } := rfl
@[simp] theorem raise_err (opc : Opcode) (k : FaultKind) (info : Word) : (raise opc k info s).err = ⟨some k, opc⟩ := rfl
@[simp] theorem raise_errInfo (opc : Opcode) (k : FaultKind) (info : Word) : (raise opc k info s).errInfo = info := rfl
@[simp] theorem raise_sinLen (opc : Opcode) (k : FaultKind) (info : Word) : (raise opc k info s).sinLen = s.sinLen := rfl
@[simp] theorem raise_binLen (opc : Opcode) (k : FaultKind) (info : Word) : (raise opc k info s).binLen = s.binLen := rfl
@[simp] theorem raise_rcur (opc : Opcode) (k : FaultKind) (info : Word) : (raise opc k info s).rcur = s.rcur := rfl
@[simp] theorem raise_wcnt (opc : Opcode) (k : FaultKind) (info : Word) : (raise opc k info s).wcnt = s.wcnt := rfl
@[simp] theorem raise_soutCnt (opc : Opcode) (k : FaultKind) (info : Word) : (raise opc k info s).soutCnt = s.soutCnt := rfl
@[simp] theorem raise_symCount (opc : Opcode) (k : FaultKind) (info : Word) : (raise opc k info s).symCount = s.symCount := rfl
@[simp] theorem raise_hdrBits (opc : Opcode) (k : FaultKind) (info : Word) : (raise opc k info s).hdrBits = s.hdrBits := rfl
@[simp] theorem raise_payBits (opc : Opcode) (k : FaultKind) (info : Word) : (raise opc k info s).payBits = s.payBits := rfl
@[simp] theorem raise_treeInfo (opc : Opcode) (k : FaultKind) (info : Word) : (raise opc k info s).treeInfo = s.treeInfo := rfl
@[simp] theorem raise_tblAddr (opc : Opcode) (k : FaultKind) (info : Word) : (raise opc k info s).tblAddr = s.tblAddr := rfl
@[simp] theorem raise_freq (opc : Opcode) (k : FaultKind) (info : Word) : (raise opc k info s).freq = s.freq := rfl
@[simp] theorem raise_nodes (opc : Opcode) (k : FaultKind) (info : Word) : (raise opc k info s).nodes = s.nodes := rfl
@[simp] theorem raise_codes (opc : Opcode) (k : FaultKind) (info : Word) : (raise opc k info s).codes = s.codes := rfl
@[simp] theorem raise_sin (opc : Opcode) (k : FaultKind) (info : Word) : (raise opc k info s).sin = s.sin := rfl
@[simp] theorem raise_bin (opc : Opcode) (k : FaultKind) (info : Word) : (raise opc k info s).bin = s.bin := rfl
@[simp] theorem raise_bout (opc : Opcode) (k : FaultKind) (info : Word) : (raise opc k info s).bout = s.bout := rfl
@[simp] theorem raise_sout (opc : Opcode) (k : FaultKind) (info : Word) : (raise opc k info s).sout = s.sout := rfl
@[simp] theorem raise_marker (opc : Opcode) (k : FaultKind) (info : Word) : (raise opc k info s).marker = s.marker := rfl
@[simp] theorem raise_program (opc : Opcode) (k : FaultKind) (info : Word) : (raise opc k info s).program = s.program := rfl
@[simp] theorem raise_hostReads (opc : Opcode) (k : FaultKind) (info : Word) : (raise opc k info s).hostReads = s.hostReads := rfl
@[simp] theorem raise_freeCtr (opc : Opcode) (k : FaultKind) (info : Word) : (raise opc k info s).freeCtr = s.freeCtr := rfl

@[simp] theorem clearLen_status : (clearLen s).status = { s.status with lenV := false } := rfl
@[simp] theorem clearLen_err : (clearLen s).err = s.err := rfl
@[simp] theorem clearLen_errInfo : (clearLen s).errInfo = s.errInfo := rfl
@[simp] theorem clearLen_sinLen : (clearLen s).sinLen = s.sinLen := rfl
@[simp] theorem clearLen_binLen : (clearLen s).binLen = s.binLen := rfl
@[simp] theorem clearLen_rcur : (clearLen s).rcur = s.rcur := rfl
@[simp] theorem clearLen_wcnt : (clearLen s).wcnt = s.wcnt := rfl
@[simp] theorem clearLen_soutCnt : (clearLen s).soutCnt = s.soutCnt := rfl
@[simp] theorem clearLen_symCount : (clearLen s).symCount = s.symCount := rfl
@[simp] theorem clearLen_hdrBits : (clearLen s).hdrBits = s.hdrBits := rfl
@[simp] theorem clearLen_payBits : (clearLen s).payBits = s.payBits := rfl
@[simp] theorem clearLen_treeInfo : (clearLen s).treeInfo = s.treeInfo := rfl
@[simp] theorem clearLen_tblAddr : (clearLen s).tblAddr = s.tblAddr := rfl
@[simp] theorem clearLen_freq : (clearLen s).freq = s.freq := rfl
@[simp] theorem clearLen_nodes : (clearLen s).nodes = s.nodes := rfl
@[simp] theorem clearLen_codes : (clearLen s).codes = s.codes := rfl
@[simp] theorem clearLen_sin : (clearLen s).sin = s.sin := rfl
@[simp] theorem clearLen_bin : (clearLen s).bin = s.bin := rfl
@[simp] theorem clearLen_bout : (clearLen s).bout = s.bout := rfl
@[simp] theorem clearLen_sout : (clearLen s).sout = s.sout := rfl
@[simp] theorem clearLen_marker : (clearLen s).marker = s.marker := rfl
@[simp] theorem clearLen_program : (clearLen s).program = s.program := rfl
@[simp] theorem clearLen_hostReads : (clearLen s).hostReads = s.hostReads := rfl
@[simp] theorem clearLen_freeCtr : (clearLen s).freeCtr = s.freeCtr := rfl

@[simp] theorem clearCodeLen_status : (clearCodeLen s).status = { s.status with codeV := false, lenV := false } := rfl
@[simp] theorem clearCodeLen_err : (clearCodeLen s).err = s.err := rfl
@[simp] theorem clearCodeLen_errInfo : (clearCodeLen s).errInfo = s.errInfo := rfl
@[simp] theorem clearCodeLen_sinLen : (clearCodeLen s).sinLen = s.sinLen := rfl
@[simp] theorem clearCodeLen_binLen : (clearCodeLen s).binLen = s.binLen := rfl
@[simp] theorem clearCodeLen_rcur : (clearCodeLen s).rcur = s.rcur := rfl
@[simp] theorem clearCodeLen_wcnt : (clearCodeLen s).wcnt = s.wcnt := rfl
@[simp] theorem clearCodeLen_soutCnt : (clearCodeLen s).soutCnt = s.soutCnt := rfl
@[simp] theorem clearCodeLen_symCount : (clearCodeLen s).symCount = s.symCount := rfl
@[simp] theorem clearCodeLen_hdrBits : (clearCodeLen s).hdrBits = s.hdrBits := rfl
@[simp] theorem clearCodeLen_payBits : (clearCodeLen s).payBits = s.payBits := rfl
@[simp] theorem clearCodeLen_treeInfo : (clearCodeLen s).treeInfo = s.treeInfo := rfl
@[simp] theorem clearCodeLen_tblAddr : (clearCodeLen s).tblAddr = s.tblAddr := rfl
@[simp] theorem clearCodeLen_freq : (clearCodeLen s).freq = s.freq := rfl
@[simp] theorem clearCodeLen_nodes : (clearCodeLen s).nodes = s.nodes := rfl
@[simp] theorem clearCodeLen_codes : (clearCodeLen s).codes = s.codes := rfl
@[simp] theorem clearCodeLen_sin : (clearCodeLen s).sin = s.sin := rfl
@[simp] theorem clearCodeLen_bin : (clearCodeLen s).bin = s.bin := rfl
@[simp] theorem clearCodeLen_bout : (clearCodeLen s).bout = s.bout := rfl
@[simp] theorem clearCodeLen_sout : (clearCodeLen s).sout = s.sout := rfl
@[simp] theorem clearCodeLen_marker : (clearCodeLen s).marker = s.marker := rfl
@[simp] theorem clearCodeLen_program : (clearCodeLen s).program = s.program := rfl
@[simp] theorem clearCodeLen_hostReads : (clearCodeLen s).hostReads = s.hostReads := rfl
@[simp] theorem clearCodeLen_freeCtr : (clearCodeLen s).freeCtr = s.freeCtr := rfl

@[simp] theorem clearTreeCodeLen_status : (clearTreeCodeLen s).status = { s.status with treeV := false, codeV := false, lenV := false } := rfl
@[simp] theorem clearTreeCodeLen_err : (clearTreeCodeLen s).err = s.err := rfl
@[simp] theorem clearTreeCodeLen_errInfo : (clearTreeCodeLen s).errInfo = s.errInfo := rfl
@[simp] theorem clearTreeCodeLen_sinLen : (clearTreeCodeLen s).sinLen = s.sinLen := rfl
@[simp] theorem clearTreeCodeLen_binLen : (clearTreeCodeLen s).binLen = s.binLen := rfl
@[simp] theorem clearTreeCodeLen_rcur : (clearTreeCodeLen s).rcur = s.rcur := rfl
@[simp] theorem clearTreeCodeLen_wcnt : (clearTreeCodeLen s).wcnt = s.wcnt := rfl
@[simp] theorem clearTreeCodeLen_soutCnt : (clearTreeCodeLen s).soutCnt = s.soutCnt := rfl
@[simp] theorem clearTreeCodeLen_symCount : (clearTreeCodeLen s).symCount = s.symCount := rfl
@[simp] theorem clearTreeCodeLen_hdrBits : (clearTreeCodeLen s).hdrBits = s.hdrBits := rfl
@[simp] theorem clearTreeCodeLen_payBits : (clearTreeCodeLen s).payBits = s.payBits := rfl
@[simp] theorem clearTreeCodeLen_treeInfo : (clearTreeCodeLen s).treeInfo = s.treeInfo := rfl
@[simp] theorem clearTreeCodeLen_tblAddr : (clearTreeCodeLen s).tblAddr = s.tblAddr := rfl
@[simp] theorem clearTreeCodeLen_freq : (clearTreeCodeLen s).freq = s.freq := rfl
@[simp] theorem clearTreeCodeLen_nodes : (clearTreeCodeLen s).nodes = s.nodes := rfl
@[simp] theorem clearTreeCodeLen_codes : (clearTreeCodeLen s).codes = s.codes := rfl
@[simp] theorem clearTreeCodeLen_sin : (clearTreeCodeLen s).sin = s.sin := rfl
@[simp] theorem clearTreeCodeLen_bin : (clearTreeCodeLen s).bin = s.bin := rfl
@[simp] theorem clearTreeCodeLen_bout : (clearTreeCodeLen s).bout = s.bout := rfl
@[simp] theorem clearTreeCodeLen_sout : (clearTreeCodeLen s).sout = s.sout := rfl
@[simp] theorem clearTreeCodeLen_marker : (clearTreeCodeLen s).marker = s.marker := rfl
@[simp] theorem clearTreeCodeLen_program : (clearTreeCodeLen s).program = s.program := rfl
@[simp] theorem clearTreeCodeLen_hostReads : (clearTreeCodeLen s).hostReads = s.hostReads := rfl
@[simp] theorem clearTreeCodeLen_freeCtr : (clearTreeCodeLen s).freeCtr = s.freeCtr := rfl

@[simp] theorem setFreqV_status : (setFreqV s).status = { s.status with freqV := true } := rfl
@[simp] theorem setFreqV_err : (setFreqV s).err = s.err := rfl
@[simp] theorem setFreqV_errInfo : (setFreqV s).errInfo = s.errInfo := rfl
@[simp] theorem setFreqV_sinLen : (setFreqV s).sinLen = s.sinLen := rfl
@[simp] theorem setFreqV_binLen : (setFreqV s).binLen = s.binLen := rfl
@[simp] theorem setFreqV_rcur : (setFreqV s).rcur = s.rcur := rfl
@[simp] theorem setFreqV_wcnt : (setFreqV s).wcnt = s.wcnt := rfl
@[simp] theorem setFreqV_soutCnt : (setFreqV s).soutCnt = s.soutCnt := rfl
@[simp] theorem setFreqV_symCount : (setFreqV s).symCount = s.symCount := rfl
@[simp] theorem setFreqV_hdrBits : (setFreqV s).hdrBits = s.hdrBits := rfl
@[simp] theorem setFreqV_payBits : (setFreqV s).payBits = s.payBits := rfl
@[simp] theorem setFreqV_treeInfo : (setFreqV s).treeInfo = s.treeInfo := rfl
@[simp] theorem setFreqV_tblAddr : (setFreqV s).tblAddr = s.tblAddr := rfl
@[simp] theorem setFreqV_freq : (setFreqV s).freq = s.freq := rfl
@[simp] theorem setFreqV_nodes : (setFreqV s).nodes = s.nodes := rfl
@[simp] theorem setFreqV_codes : (setFreqV s).codes = s.codes := rfl
@[simp] theorem setFreqV_sin : (setFreqV s).sin = s.sin := rfl
@[simp] theorem setFreqV_bin : (setFreqV s).bin = s.bin := rfl
@[simp] theorem setFreqV_bout : (setFreqV s).bout = s.bout := rfl
@[simp] theorem setFreqV_sout : (setFreqV s).sout = s.sout := rfl
@[simp] theorem setFreqV_marker : (setFreqV s).marker = s.marker := rfl
@[simp] theorem setFreqV_program : (setFreqV s).program = s.program := rfl
@[simp] theorem setFreqV_hostReads : (setFreqV s).hostReads = s.hostReads := rfl
@[simp] theorem setFreqV_freeCtr : (setFreqV s).freeCtr = s.freeCtr := rfl

@[simp] theorem setTreeV_status : (setTreeV s).status = { s.status with treeV := true } := rfl
@[simp] theorem setTreeV_err : (setTreeV s).err = s.err := rfl
@[simp] theorem setTreeV_errInfo : (setTreeV s).errInfo = s.errInfo := rfl
@[simp] theorem setTreeV_sinLen : (setTreeV s).sinLen = s.sinLen := rfl
@[simp] theorem setTreeV_binLen : (setTreeV s).binLen = s.binLen := rfl
@[simp] theorem setTreeV_rcur : (setTreeV s).rcur = s.rcur := rfl
@[simp] theorem setTreeV_wcnt : (setTreeV s).wcnt = s.wcnt := rfl
@[simp] theorem setTreeV_soutCnt : (setTreeV s).soutCnt = s.soutCnt := rfl
@[simp] theorem setTreeV_symCount : (setTreeV s).symCount = s.symCount := rfl
@[simp] theorem setTreeV_hdrBits : (setTreeV s).hdrBits = s.hdrBits := rfl
@[simp] theorem setTreeV_payBits : (setTreeV s).payBits = s.payBits := rfl
@[simp] theorem setTreeV_treeInfo : (setTreeV s).treeInfo = s.treeInfo := rfl
@[simp] theorem setTreeV_tblAddr : (setTreeV s).tblAddr = s.tblAddr := rfl
@[simp] theorem setTreeV_freq : (setTreeV s).freq = s.freq := rfl
@[simp] theorem setTreeV_nodes : (setTreeV s).nodes = s.nodes := rfl
@[simp] theorem setTreeV_codes : (setTreeV s).codes = s.codes := rfl
@[simp] theorem setTreeV_sin : (setTreeV s).sin = s.sin := rfl
@[simp] theorem setTreeV_bin : (setTreeV s).bin = s.bin := rfl
@[simp] theorem setTreeV_bout : (setTreeV s).bout = s.bout := rfl
@[simp] theorem setTreeV_sout : (setTreeV s).sout = s.sout := rfl
@[simp] theorem setTreeV_marker : (setTreeV s).marker = s.marker := rfl
@[simp] theorem setTreeV_program : (setTreeV s).program = s.program := rfl
@[simp] theorem setTreeV_hostReads : (setTreeV s).hostReads = s.hostReads := rfl
@[simp] theorem setTreeV_freeCtr : (setTreeV s).freeCtr = s.freeCtr := rfl

@[simp] theorem setCodeV_status : (setCodeV s).status = { s.status with codeV := true } := rfl
@[simp] theorem setCodeV_err : (setCodeV s).err = s.err := rfl
@[simp] theorem setCodeV_errInfo : (setCodeV s).errInfo = s.errInfo := rfl
@[simp] theorem setCodeV_sinLen : (setCodeV s).sinLen = s.sinLen := rfl
@[simp] theorem setCodeV_binLen : (setCodeV s).binLen = s.binLen := rfl
@[simp] theorem setCodeV_rcur : (setCodeV s).rcur = s.rcur := rfl
@[simp] theorem setCodeV_wcnt : (setCodeV s).wcnt = s.wcnt := rfl
@[simp] theorem setCodeV_soutCnt : (setCodeV s).soutCnt = s.soutCnt := rfl
@[simp] theorem setCodeV_symCount : (setCodeV s).symCount = s.symCount := rfl
@[simp] theorem setCodeV_hdrBits : (setCodeV s).hdrBits = s.hdrBits := rfl
@[simp] theorem setCodeV_payBits : (setCodeV s).payBits = s.payBits := rfl
@[simp] theorem setCodeV_treeInfo : (setCodeV s).treeInfo = s.treeInfo := rfl
@[simp] theorem setCodeV_tblAddr : (setCodeV s).tblAddr = s.tblAddr := rfl
@[simp] theorem setCodeV_freq : (setCodeV s).freq = s.freq := rfl
@[simp] theorem setCodeV_nodes : (setCodeV s).nodes = s.nodes := rfl
@[simp] theorem setCodeV_codes : (setCodeV s).codes = s.codes := rfl
@[simp] theorem setCodeV_sin : (setCodeV s).sin = s.sin := rfl
@[simp] theorem setCodeV_bin : (setCodeV s).bin = s.bin := rfl
@[simp] theorem setCodeV_bout : (setCodeV s).bout = s.bout := rfl
@[simp] theorem setCodeV_sout : (setCodeV s).sout = s.sout := rfl
@[simp] theorem setCodeV_marker : (setCodeV s).marker = s.marker := rfl
@[simp] theorem setCodeV_program : (setCodeV s).program = s.program := rfl
@[simp] theorem setCodeV_hostReads : (setCodeV s).hostReads = s.hostReads := rfl
@[simp] theorem setCodeV_freeCtr : (setCodeV s).freeCtr = s.freeCtr := rfl

@[simp] theorem setLenV_status : (setLenV s).status = { s.status with lenV := true } := rfl
@[simp] theorem setLenV_err : (setLenV s).err = s.err := rfl
@[simp] theorem setLenV_errInfo : (setLenV s).errInfo = s.errInfo := rfl
@[simp] theorem setLenV_sinLen : (setLenV s).sinLen = s.sinLen := rfl
@[simp] theorem setLenV_binLen : (setLenV s).binLen = s.binLen := rfl
@[simp] theorem setLenV_rcur : (setLenV s).rcur = s.rcur := rfl
@[simp] theorem setLenV_wcnt : (setLenV s).wcnt = s.wcnt := rfl
@[simp] theorem setLenV_soutCnt : (setLenV s).soutCnt = s.soutCnt := rfl
@[simp] theorem setLenV_symCount : (setLenV s).symCount = s.symCount := rfl
@[simp] theorem setLenV_hdrBits : (setLenV s).hdrBits = s.hdrBits := rfl
@[simp] theorem setLenV_payBits : (setLenV s).payBits = s.payBits := rfl
@[simp] theorem setLenV_treeInfo : (setLenV s).treeInfo = s.treeInfo := rfl
@[simp] theorem setLenV_tblAddr : (setLenV s).tblAddr = s.tblAddr := rfl
@[simp] theorem setLenV_freq : (setLenV s).freq = s.freq := rfl
@[simp] theorem setLenV_nodes : (setLenV s).nodes = s.nodes := rfl
@[simp] theorem setLenV_codes : (setLenV s).codes = s.codes := rfl
@[simp] theorem setLenV_sin : (setLenV s).sin = s.sin := rfl
@[simp] theorem setLenV_bin : (setLenV s).bin = s.bin := rfl
@[simp] theorem setLenV_bout : (setLenV s).bout = s.bout := rfl
@[simp] theorem setLenV_sout : (setLenV s).sout = s.sout := rfl
@[simp] theorem setLenV_marker : (setLenV s).marker = s.marker := rfl
@[simp] theorem setLenV_program : (setLenV s).program = s.program := rfl
@[simp] theorem setLenV_hostReads : (setLenV s).hostReads = s.hostReads := rfl
@[simp] theorem setLenV_freeCtr : (setLenV s).freeCtr = s.freeCtr := rfl

@[simp] theorem symWrite_status (v : Symbol) : (symWrite v s).status = s.status := rfl
@[simp] theorem symWrite_err (v : Symbol) : (symWrite v s).err = s.err := rfl
@[simp] theorem symWrite_errInfo (v : Symbol) : (symWrite v s).errInfo = s.errInfo := rfl
@[simp] theorem symWrite_sinLen (v : Symbol) : (symWrite v s).sinLen = s.sinLen := rfl
@[simp] theorem symWrite_binLen (v : Symbol) : (symWrite v s).binLen = s.binLen := rfl
@[simp] theorem symWrite_rcur (v : Symbol) : (symWrite v s).rcur = s.rcur := rfl
@[simp] theorem symWrite_wcnt (v : Symbol) : (symWrite v s).wcnt = s.wcnt := rfl
@[simp] theorem symWrite_soutCnt (v : Symbol) : (symWrite v s).soutCnt = s.soutCnt + 1 := rfl
@[simp] theorem symWrite_symCount (v : Symbol) : (symWrite v s).symCount = s.symCount := rfl
@[simp] theorem symWrite_hdrBits (v : Symbol) : (symWrite v s).hdrBits = s.hdrBits := rfl
@[simp] theorem symWrite_payBits (v : Symbol) : (symWrite v s).payBits = s.payBits := rfl
@[simp] theorem symWrite_treeInfo (v : Symbol) : (symWrite v s).treeInfo = s.treeInfo := rfl
@[simp] theorem symWrite_tblAddr (v : Symbol) : (symWrite v s).tblAddr = s.tblAddr := rfl
@[simp] theorem symWrite_freq (v : Symbol) : (symWrite v s).freq = s.freq := rfl
@[simp] theorem symWrite_nodes (v : Symbol) : (symWrite v s).nodes = s.nodes := rfl
@[simp] theorem symWrite_codes (v : Symbol) : (symWrite v s).codes = s.codes := rfl
@[simp] theorem symWrite_sin (v : Symbol) : (symWrite v s).sin = s.sin := rfl
@[simp] theorem symWrite_bin (v : Symbol) : (symWrite v s).bin = s.bin := rfl
@[simp] theorem symWrite_bout (v : Symbol) : (symWrite v s).bout = s.bout := rfl
@[simp] theorem symWrite_sout (v : Symbol) : (symWrite v s).sout = s.sout ++ [v] := rfl
@[simp] theorem symWrite_marker (v : Symbol) : (symWrite v s).marker = s.marker := rfl
@[simp] theorem symWrite_program (v : Symbol) : (symWrite v s).program = s.program := rfl
@[simp] theorem symWrite_hostReads (v : Symbol) : (symWrite v s).hostReads = s.hostReads := rfl
@[simp] theorem symWrite_freeCtr (v : Symbol) : (symWrite v s).freeCtr = s.freeCtr := rfl

@[simp] theorem writeBit_status (b : Bit) : (writeBit b s).status = s.status := rfl
@[simp] theorem writeBit_err (b : Bit) : (writeBit b s).err = s.err := rfl
@[simp] theorem writeBit_errInfo (b : Bit) : (writeBit b s).errInfo = s.errInfo := rfl
@[simp] theorem writeBit_sinLen (b : Bit) : (writeBit b s).sinLen = s.sinLen := rfl
@[simp] theorem writeBit_binLen (b : Bit) : (writeBit b s).binLen = s.binLen := rfl
@[simp] theorem writeBit_rcur (b : Bit) : (writeBit b s).rcur = s.rcur := rfl
@[simp] theorem writeBit_wcnt (b : Bit) : (writeBit b s).wcnt = s.wcnt + 1 := rfl
@[simp] theorem writeBit_soutCnt (b : Bit) : (writeBit b s).soutCnt = s.soutCnt := rfl
@[simp] theorem writeBit_symCount (b : Bit) : (writeBit b s).symCount = s.symCount := rfl
@[simp] theorem writeBit_hdrBits (b : Bit) : (writeBit b s).hdrBits = s.hdrBits := rfl
@[simp] theorem writeBit_payBits (b : Bit) : (writeBit b s).payBits = s.payBits := rfl
@[simp] theorem writeBit_treeInfo (b : Bit) : (writeBit b s).treeInfo = s.treeInfo := rfl
@[simp] theorem writeBit_tblAddr (b : Bit) : (writeBit b s).tblAddr = s.tblAddr := rfl
@[simp] theorem writeBit_freq (b : Bit) : (writeBit b s).freq = s.freq := rfl
@[simp] theorem writeBit_nodes (b : Bit) : (writeBit b s).nodes = s.nodes := rfl
@[simp] theorem writeBit_codes (b : Bit) : (writeBit b s).codes = s.codes := rfl
@[simp] theorem writeBit_sin (b : Bit) : (writeBit b s).sin = s.sin := rfl
@[simp] theorem writeBit_bin (b : Bit) : (writeBit b s).bin = s.bin := rfl
@[simp] theorem writeBit_bout (b : Bit) : (writeBit b s).bout = s.bout ++ [b] := rfl
@[simp] theorem writeBit_sout (b : Bit) : (writeBit b s).sout = s.sout := rfl
@[simp] theorem writeBit_marker (b : Bit) : (writeBit b s).marker = s.marker := rfl
@[simp] theorem writeBit_program (b : Bit) : (writeBit b s).program = s.program := rfl
@[simp] theorem writeBit_hostReads (b : Bit) : (writeBit b s).hostReads = s.hostReads := rfl
@[simp] theorem writeBit_freeCtr (b : Bit) : (writeBit b s).freeCtr = s.freeCtr := rfl

@[simp] theorem putNode_status (n : Nat) (nd : Node) : (putNode n nd s).status = s.status := rfl
@[simp] theorem putNode_err (n : Nat) (nd : Node) : (putNode n nd s).err = s.err := rfl
@[simp] theorem putNode_errInfo (n : Nat) (nd : Node) : (putNode n nd s).errInfo = s.errInfo := rfl
@[simp] theorem putNode_sinLen (n : Nat) (nd : Node) : (putNode n nd s).sinLen = s.sinLen := rfl
@[simp] theorem putNode_binLen (n : Nat) (nd : Node) : (putNode n nd s).binLen = s.binLen := rfl
@[simp] theorem putNode_rcur (n : Nat) (nd : Node) : (putNode n nd s).rcur = s.rcur := rfl
@[simp] theorem putNode_wcnt (n : Nat) (nd : Node) : (putNode n nd s).wcnt = s.wcnt := rfl
@[simp] theorem putNode_soutCnt (n : Nat) (nd : Node) : (putNode n nd s).soutCnt = s.soutCnt := rfl
@[simp] theorem putNode_symCount (n : Nat) (nd : Node) : (putNode n nd s).symCount = s.symCount := rfl
@[simp] theorem putNode_hdrBits (n : Nat) (nd : Node) : (putNode n nd s).hdrBits = s.hdrBits := rfl
@[simp] theorem putNode_payBits (n : Nat) (nd : Node) : (putNode n nd s).payBits = s.payBits := rfl
@[simp] theorem putNode_treeInfo (n : Nat) (nd : Node) : (putNode n nd s).treeInfo = s.treeInfo := rfl
@[simp] theorem putNode_tblAddr (n : Nat) (nd : Node) : (putNode n nd s).tblAddr = s.tblAddr := rfl
@[simp] theorem putNode_freq (n : Nat) (nd : Node) : (putNode n nd s).freq = s.freq := rfl
@[simp] theorem putNode_nodes (n : Nat) (nd : Node) : (putNode n nd s).nodes = setNodeAt s.nodes n nd := rfl
@[simp] theorem putNode_codes (n : Nat) (nd : Node) : (putNode n nd s).codes = s.codes := rfl
@[simp] theorem putNode_sin (n : Nat) (nd : Node) : (putNode n nd s).sin = s.sin := rfl
@[simp] theorem putNode_bin (n : Nat) (nd : Node) : (putNode n nd s).bin = s.bin := rfl
@[simp] theorem putNode_bout (n : Nat) (nd : Node) : (putNode n nd s).bout = s.bout := rfl
@[simp] theorem putNode_sout (n : Nat) (nd : Node) : (putNode n nd s).sout = s.sout := rfl
@[simp] theorem putNode_marker (n : Nat) (nd : Node) : (putNode n nd s).marker = s.marker := rfl
@[simp] theorem putNode_program (n : Nat) (nd : Node) : (putNode n nd s).program = s.program := rfl
@[simp] theorem putNode_hostReads (n : Nat) (nd : Node) : (putNode n nd s).hostReads = s.hostReads := rfl
@[simp] theorem putNode_freeCtr (n : Nat) (nd : Node) : (putNode n nd s).freeCtr = s.freeCtr := rfl

@[simp] theorem takeAction_status (rest : List HostAction) : (takeAction rest s).status = s.status := rfl
@[simp] theorem takeAction_err (rest : List HostAction) : (takeAction rest s).err = s.err := rfl
@[simp] theorem takeAction_errInfo (rest : List HostAction) : (takeAction rest s).errInfo = s.errInfo := rfl
@[simp] theorem takeAction_sinLen (rest : List HostAction) : (takeAction rest s).sinLen = s.sinLen := rfl
@[simp] theorem takeAction_binLen (rest : List HostAction) : (takeAction rest s).binLen = s.binLen := rfl
@[simp] theorem takeAction_rcur (rest : List HostAction) : (takeAction rest s).rcur = s.rcur := rfl
@[simp] theorem takeAction_wcnt (rest : List HostAction) : (takeAction rest s).wcnt = s.wcnt := rfl
@[simp] theorem takeAction_soutCnt (rest : List HostAction) : (takeAction rest s).soutCnt = s.soutCnt := rfl
@[simp] theorem takeAction_symCount (rest : List HostAction) : (takeAction rest s).symCount = s.symCount := rfl
@[simp] theorem takeAction_hdrBits (rest : List HostAction) : (takeAction rest s).hdrBits = s.hdrBits := rfl
@[simp] theorem takeAction_payBits (rest : List HostAction) : (takeAction rest s).payBits = s.payBits := rfl
@[simp] theorem takeAction_treeInfo (rest : List HostAction) : (takeAction rest s).treeInfo = s.treeInfo := rfl
@[simp] theorem takeAction_tblAddr (rest : List HostAction) : (takeAction rest s).tblAddr = s.tblAddr := rfl
@[simp] theorem takeAction_freq (rest : List HostAction) : (takeAction rest s).freq = s.freq := rfl
@[simp] theorem takeAction_nodes (rest : List HostAction) : (takeAction rest s).nodes = s.nodes := rfl
@[simp] theorem takeAction_codes (rest : List HostAction) : (takeAction rest s).codes = s.codes := rfl
@[simp] theorem takeAction_sin (rest : List HostAction) : (takeAction rest s).sin = s.sin := rfl
@[simp] theorem takeAction_bin (rest : List HostAction) : (takeAction rest s).bin = s.bin := rfl
@[simp] theorem takeAction_bout (rest : List HostAction) : (takeAction rest s).bout = s.bout := rfl
@[simp] theorem takeAction_sout (rest : List HostAction) : (takeAction rest s).sout = s.sout := rfl
@[simp] theorem takeAction_marker (rest : List HostAction) : (takeAction rest s).marker = s.marker := rfl
@[simp] theorem takeAction_program (rest : List HostAction) : (takeAction rest s).program = rest := rfl
@[simp] theorem takeAction_hostReads (rest : List HostAction) : (takeAction rest s).hostReads = s.hostReads := rfl
@[simp] theorem takeAction_freeCtr (rest : List HostAction) : (takeAction rest s).freeCtr = s.freeCtr := rfl

@[simp] theorem wrote_status (p : List Bit) : (wrote p s).status = s.status := rfl
@[simp] theorem wrote_err (p : List Bit) : (wrote p s).err = s.err := rfl
@[simp] theorem wrote_errInfo (p : List Bit) : (wrote p s).errInfo = s.errInfo := rfl
@[simp] theorem wrote_sinLen (p : List Bit) : (wrote p s).sinLen = s.sinLen := rfl
@[simp] theorem wrote_binLen (p : List Bit) : (wrote p s).binLen = s.binLen := rfl
@[simp] theorem wrote_rcur (p : List Bit) : (wrote p s).rcur = s.rcur := rfl
@[simp] theorem wrote_wcnt (p : List Bit) : (wrote p s).wcnt = s.wcnt + BitVec.ofNat 32 p.length := rfl
@[simp] theorem wrote_soutCnt (p : List Bit) : (wrote p s).soutCnt = s.soutCnt := rfl
@[simp] theorem wrote_symCount (p : List Bit) : (wrote p s).symCount = s.symCount := rfl
@[simp] theorem wrote_hdrBits (p : List Bit) : (wrote p s).hdrBits = s.hdrBits := rfl
@[simp] theorem wrote_payBits (p : List Bit) : (wrote p s).payBits = s.payBits := rfl
@[simp] theorem wrote_treeInfo (p : List Bit) : (wrote p s).treeInfo = s.treeInfo := rfl
@[simp] theorem wrote_tblAddr (p : List Bit) : (wrote p s).tblAddr = s.tblAddr := rfl
@[simp] theorem wrote_freq (p : List Bit) : (wrote p s).freq = s.freq := rfl
@[simp] theorem wrote_nodes (p : List Bit) : (wrote p s).nodes = s.nodes := rfl
@[simp] theorem wrote_codes (p : List Bit) : (wrote p s).codes = s.codes := rfl
@[simp] theorem wrote_sin (p : List Bit) : (wrote p s).sin = s.sin := rfl
@[simp] theorem wrote_bin (p : List Bit) : (wrote p s).bin = s.bin := rfl
@[simp] theorem wrote_bout (p : List Bit) : (wrote p s).bout = s.bout ++ p := rfl
@[simp] theorem wrote_sout (p : List Bit) : (wrote p s).sout = s.sout := rfl
@[simp] theorem wrote_marker (p : List Bit) : (wrote p s).marker = s.marker := rfl
@[simp] theorem wrote_program (p : List Bit) : (wrote p s).program = s.program := rfl
@[simp] theorem wrote_hostReads (p : List Bit) : (wrote p s).hostReads = s.hostReads := rfl
@[simp] theorem wrote_freeCtr (p : List Bit) : (wrote p s).freeCtr = s.freeCtr := rfl

@[simp] theorem emittedAll_status (vs : List Symbol) : (emittedAll vs s).status = s.status := rfl
@[simp] theorem emittedAll_err (vs : List Symbol) : (emittedAll vs s).err = s.err := rfl
@[simp] theorem emittedAll_errInfo (vs : List Symbol) : (emittedAll vs s).errInfo = s.errInfo := rfl
@[simp] theorem emittedAll_sinLen (vs : List Symbol) : (emittedAll vs s).sinLen = s.sinLen := rfl
@[simp] theorem emittedAll_binLen (vs : List Symbol) : (emittedAll vs s).binLen = s.binLen := rfl
@[simp] theorem emittedAll_rcur (vs : List Symbol) : (emittedAll vs s).rcur = s.rcur := rfl
@[simp] theorem emittedAll_wcnt (vs : List Symbol) : (emittedAll vs s).wcnt = s.wcnt := rfl
@[simp] theorem emittedAll_soutCnt (vs : List Symbol) : (emittedAll vs s).soutCnt = s.soutCnt + BitVec.ofNat 32 vs.length := rfl
@[simp] theorem emittedAll_symCount (vs : List Symbol) : (emittedAll vs s).symCount = s.symCount := rfl
@[simp] theorem emittedAll_hdrBits (vs : List Symbol) : (emittedAll vs s).hdrBits = s.hdrBits := rfl
@[simp] theorem emittedAll_payBits (vs : List Symbol) : (emittedAll vs s).payBits = s.payBits := rfl
@[simp] theorem emittedAll_treeInfo (vs : List Symbol) : (emittedAll vs s).treeInfo = s.treeInfo := rfl
@[simp] theorem emittedAll_tblAddr (vs : List Symbol) : (emittedAll vs s).tblAddr = s.tblAddr := rfl
@[simp] theorem emittedAll_freq (vs : List Symbol) : (emittedAll vs s).freq = s.freq := rfl
@[simp] theorem emittedAll_nodes (vs : List Symbol) : (emittedAll vs s).nodes = s.nodes := rfl
@[simp] theorem emittedAll_codes (vs : List Symbol) : (emittedAll vs s).codes = s.codes := rfl
@[simp] theorem emittedAll_sin (vs : List Symbol) : (emittedAll vs s).sin = s.sin := rfl
@[simp] theorem emittedAll_bin (vs : List Symbol) : (emittedAll vs s).bin = s.bin := rfl
@[simp] theorem emittedAll_bout (vs : List Symbol) : (emittedAll vs s).bout = s.bout := rfl
@[simp] theorem emittedAll_sout (vs : List Symbol) : (emittedAll vs s).sout = s.sout ++ vs := rfl
@[simp] theorem emittedAll_marker (vs : List Symbol) : (emittedAll vs s).marker = s.marker := rfl
@[simp] theorem emittedAll_program (vs : List Symbol) : (emittedAll vs s).program = s.program := rfl
@[simp] theorem emittedAll_hostReads (vs : List Symbol) : (emittedAll vs s).hostReads = s.hostReads := rfl
@[simp] theorem emittedAll_freeCtr (vs : List Symbol) : (emittedAll vs s).freeCtr = s.freeCtr := rfl

@[simp] theorem advanced_status (n : Nat) : (advanced n s).status = s.status := rfl
@[simp] theorem advanced_err (n : Nat) : (advanced n s).err = s.err := rfl
@[simp] theorem advanced_errInfo (n : Nat) : (advanced n s).errInfo = s.errInfo := rfl
@[simp] theorem advanced_sinLen (n : Nat) : (advanced n s).sinLen = s.sinLen := rfl
@[simp] theorem advanced_binLen (n : Nat) : (advanced n s).binLen = s.binLen := rfl
@[simp] theorem advanced_rcur (n : Nat) : (advanced n s).rcur = s.rcur + BitVec.ofNat 32 n := rfl
@[simp] theorem advanced_wcnt (n : Nat) : (advanced n s).wcnt = s.wcnt := rfl
@[simp] theorem advanced_soutCnt (n : Nat) : (advanced n s).soutCnt = s.soutCnt := rfl
@[simp] theorem advanced_symCount (n : Nat) : (advanced n s).symCount = s.symCount := rfl
@[simp] theorem advanced_hdrBits (n : Nat) : (advanced n s).hdrBits = s.hdrBits := rfl
@[simp] theorem advanced_payBits (n : Nat) : (advanced n s).payBits = s.payBits := rfl
@[simp] theorem advanced_treeInfo (n : Nat) : (advanced n s).treeInfo = s.treeInfo := rfl
@[simp] theorem advanced_tblAddr (n : Nat) : (advanced n s).tblAddr = s.tblAddr := rfl
@[simp] theorem advanced_freq (n : Nat) : (advanced n s).freq = s.freq := rfl
@[simp] theorem advanced_nodes (n : Nat) : (advanced n s).nodes = s.nodes := rfl
@[simp] theorem advanced_codes (n : Nat) : (advanced n s).codes = s.codes := rfl
@[simp] theorem advanced_sin (n : Nat) : (advanced n s).sin = s.sin := rfl
@[simp] theorem advanced_bin (n : Nat) : (advanced n s).bin = s.bin := rfl
@[simp] theorem advanced_bout (n : Nat) : (advanced n s).bout = s.bout := rfl
@[simp] theorem advanced_sout (n : Nat) : (advanced n s).sout = s.sout := rfl
@[simp] theorem advanced_marker (n : Nat) : (advanced n s).marker = s.marker := rfl
@[simp] theorem advanced_program (n : Nat) : (advanced n s).program = s.program := rfl
@[simp] theorem advanced_hostReads (n : Nat) : (advanced n s).hostReads = s.hostReads := rfl
@[simp] theorem advanced_freeCtr (n : Nat) : (advanced n s).freeCtr = s.freeCtr := rfl

@[simp] theorem complete_accept : complete (accept s) = complete s := rfl
@[simp] theorem raise_accept (opc : Opcode) (k : FaultKind) (info : Word) :
    raise opc k info (accept s) = raise opc k info s := rfl

end Sys2Proof.Machine
end

