-- ==== Sys2Proof/Laws/Ops.lean ====
section
/-! SUPPORT. One lemma per shared operation: what reads, writes, table accesses and the frame of a command do. -/

namespace Sys2Proof.Machine

/-! ## Appends -/

@[simp] theorem wrote_nil (s : State) : wrote [] s = s := by simp [wrote]

@[simp] theorem emittedAll_nil (s : State) : emittedAll [] s = s := by simp [emittedAll]

@[simp] theorem advanced_zero (s : State) : advanced 0 s = s := by simp [advanced]

theorem wrote_wrote (p q : List Bit) (s : State) : wrote q (wrote p s) = wrote (p ++ q) s := by
  simp [wrote, BitVec.ofNat_add, BitVec.add_assoc]

theorem emittedAll_emittedAll (p q : List Symbol) (s : State) :
    emittedAll q (emittedAll p s) = emittedAll (p ++ q) s := by
  simp [emittedAll, BitVec.ofNat_add, BitVec.add_assoc]

theorem advanced_advanced (m n : Nat) (s : State) : advanced n (advanced m s) = advanced (m + n) s := by
  simp [advanced, BitVec.ofNat_add, BitVec.add_assoc]

theorem advanced_emittedAll (n : Nat) (vs : List Symbol) (s : State) :
    advanced n (emittedAll vs s) = emittedAll vs (advanced n s) := rfl

theorem symWrite_eq (v : Symbol) (s : State) : symWrite v s = emittedAll [v] s := rfl

theorem writeBits_eq_wrote (p : List Bit) (s : State) : writeBits p s = wrote p s := by
  induction p generalizing s with
  | nil => simp [writeBits]
  | cons b p ih =>
    rw [writeBits, ih, show writeBit b s = wrote [b] s from rfl, wrote_wrote]
    rfl

/-! ## Reads of `BIN` -/

theorem readBit_eos (s : State) (h : s.binLen.toNat ≤ s.rcur.toNat) : readBit s = none := by
  simp [readBit, h]

theorem readBit_bit (s : State) (h : s.rcur.toNat < s.binLen.toNat) :
    readBit s = some (binAt s.bin s.rcur.toNat, advanced 1 s) := by
  simp [readBit, Nat.not_le.mpr h, advanced]

theorem readBit_cases (s : State) :
    (s.binLen.toNat ≤ s.rcur.toNat ∧ readBit s = none) ∨
    (s.rcur.toNat < s.binLen.toNat ∧ readBit s = some (binAt s.bin s.rcur.toNat, advanced 1 s)) := by
  rcases Nat.lt_or_ge s.rcur.toNat s.binLen.toNat with h | h
  · exact .inr ⟨h, readBit_bit s h⟩
  · exact .inl ⟨h, readBit_eos s h⟩

theorem advanced_rcur_toNat (s : State) (n : Nat) (h : s.rcur.toNat + n < 2 ^ 32) :
    (advanced n s).rcur.toNat = s.rcur.toNat + n := by
  simp only [advanced_rcur, BitVec.toNat_add, BitVec.toNat_ofNat]
  omega

theorem BinHolds.room {s : State} {p : List Bit} (h : BinHolds s p) (hp : p ≠ []) :
    s.rcur.toNat + p.length ≤ s.binLen.toNat := by
  have hl : 0 < p.length := List.length_pos_iff.mpr hp
  have := (h (p.length - 1) (by omega)).1
  omega

theorem BinHolds.rcur_toNat {s : State} {p : List Bit} (h : BinHolds s p) :
    (advanced p.length s).rcur.toNat = s.rcur.toNat + p.length := by
  rcases eq_or_ne p [] with rfl | hp
  · simp
  · have := h.room hp
    have := s.binLen.isLt
    exact advanced_rcur_toNat s _ (by omega)

theorem binHolds_nil (s : State) : BinHolds s [] := by
  intro j h; simp at h

theorem BinHolds.append {s : State} {p q : List Bit} :
    BinHolds s (p ++ q) ↔ BinHolds s p ∧ BinHolds (advanced p.length s) q := by
  constructor
  · intro h
    have hp : BinHolds s p := fun j hj => by
      have := h j (by rw [List.length_append]; omega)
      rwa [List.getElem_append_left hj] at this
    refine ⟨hp, fun j hj => ?_⟩
    have := h (p.length + j) (by rw [List.length_append]; omega)
    rw [List.getElem_append_right (by omega)] at this
    rw [hp.rcur_toNat]
    simpa [Nat.add_assoc] using this
  · rintro ⟨hp, hq⟩ j hj
    rcases Nat.lt_or_ge j p.length with h | h
    · rw [List.getElem_append_left h]; exact hp j h
    · have := hq (j - p.length) (by rw [List.length_append] at hj; omega)
      rw [hp.rcur_toNat] at this
      rw [List.getElem_append_right h]
      simpa [show s.rcur.toNat + p.length + (j - p.length) = s.rcur.toNat + j by omega] using this

theorem BinHolds.readBit {s : State} {b : Bit} {p : List Bit} (h : BinHolds s (b :: p)) :
    Machine.readBit s = some (b, advanced 1 s) ∧ BinHolds (advanced 1 s) p := by
  have h' := BinHolds.append.mp (show BinHolds s ([b] ++ p) from h)
  have h0 := h 0 (by simp)
  simp only [Nat.add_zero, List.getElem_cons_zero] at h0
  exact ⟨by rw [readBit_bit s h0.1, h0.2], h'.2⟩

theorem BinEndsAfter.append {s : State} {p q : List Bit} :
    BinEndsAfter s (p ++ q) ↔ BinHolds s p ∧ BinEndsAfter (advanced p.length s) q := by
  simp only [BinEndsAfter, BinHolds.append]
  constructor
  · rintro ⟨⟨hp, hq⟩, he⟩
    refine ⟨hp, hq, ?_⟩
    rw [hp.rcur_toNat]
    simpa [Nat.add_assoc] using he
  · rintro ⟨hp, hq, he⟩
    refine ⟨⟨hp, hq⟩, ?_⟩
    rw [hp.rcur_toNat] at he
    simpa [Nat.add_assoc] using he

theorem BinEndsAfter.readBit {s : State} (h : BinEndsAfter s []) : Machine.readBit s = none :=
  readBit_eos s (by simpa using h.2)

/-! ## Fixed-width fields -/

@[simp] theorem intBits_length (v w : Nat) : (intBits v w).length = w := by simp [intBits]

theorem getElem_intBits (v w j : Nat) (h : j < (intBits v w).length) : (intBits v w)[j] = v.testBit (w - 1 - j) := by
  simp [intBits]

/-- The value of a bit sequence read most significant first. -/
def bitsValue (v : Nat) (p : List Bit) : Nat := p.foldl pushBit v

theorem intBits_succ (v w : Nat) : intBits v (w + 1) = v.testBit w :: intBits v w := by
  apply List.ext_getElem
  · simp
  · intro j h1 h2
    rcases j with _ | j
    · simp [getElem_intBits]
    · simp only [List.getElem_cons_succ, getElem_intBits]
      congr 1
      omega

theorem bitsValue_intBits (v w a : Nat) : bitsValue a (intBits v w) = a * 2 ^ w + v % 2 ^ w := by
  induction w generalizing a with
  | zero => simp [bitsValue, intBits, Nat.mod_one]
  | succ w ih =>
    rw [intBits_succ, bitsValue, List.foldl_cons]
    change bitsValue (pushBit a (v.testBit w)) (intBits v w) = _
    have hb : (v.testBit w).toNat = v / 2 ^ w % 2 := by
      rw [Nat.testBit_eq_decide_div_mod_eq]
      rcases Nat.mod_two_eq_zero_or_one (v / 2 ^ w) with h | h <;> simp [h]
    rw [ih, Nat.mod_pow_succ, pushBit, hb]
    ring

theorem readIntFrom_holds (p : List Bit) (v : Nat) (s : State) (h : BinHolds s p) :
    readIntFrom p.length v s = (some (bitsValue v p), advanced p.length s) := by
  induction p generalizing v s with
  | nil => simp [readIntFrom, bitsValue]
  | cons b p ih =>
    obtain ⟨h1, h2⟩ := h.readBit
    simp only [List.length_cons, readIntFrom, h1]
    rw [ih _ _ h2, advanced_advanced, Nat.add_comm 1]
    rfl

theorem readIntFrom_eos (p : List Bit) (w v : Nat) (s : State) (hw : p.length < w) (h : BinEndsAfter s p) :
    readIntFrom w v s = (none, advanced p.length s) := by
  induction p generalizing v s w with
  | nil =>
    obtain ⟨w, rfl⟩ : ∃ k, w = k + 1 := ⟨w - 1, by simp at hw; omega⟩
    simp [readIntFrom, h.readBit]
  | cons b p ih =>
    obtain ⟨w, rfl⟩ : ∃ k, w = k + 1 := ⟨w - 1, by simp at hw; omega⟩
    have h' := BinEndsAfter.append.mp (show BinEndsAfter s ([b] ++ p) from h)
    have h1 := BinHolds.readBit (p := []) (by simpa using h'.1)
    simp only [readIntFrom, h1.1]
    rw [ih w _ _ (by simpa using hw) (by simpa using h'.2), advanced_advanced, List.length_cons, Nat.add_comm 1]

/-- Every read of a field either finds its bits or meets the end of the stream inside it. -/
theorem readIntFrom_cases (w v : Nat) (s : State) :
    (∃ p, p.length = w ∧ BinHolds s p ∧ readIntFrom w v s = (some (bitsValue v p), advanced w s)) ∨
    (∃ p, p.length < w ∧ BinEndsAfter s p ∧ readIntFrom w v s = (none, advanced p.length s)) := by
  induction w generalizing v s with
  | zero => exact .inl ⟨[], rfl, binHolds_nil s, by simp [readIntFrom, bitsValue]⟩
  | succ w ih =>
    rcases readBit_cases s with ⟨h, hr⟩ | ⟨h, hr⟩
    · exact .inr ⟨[], by simp, ⟨binHolds_nil s, by simpa using h⟩, by simp [readIntFrom, hr]⟩
    · have h1 : BinHolds s [binAt s.bin s.rcur.toNat] := by
        intro j hj
        obtain rfl : j = 0 := by simpa using hj
        exact ⟨h, rfl⟩
      simp only [readIntFrom, hr]
      rcases ih (pushBit v (binAt s.bin s.rcur.toNat)) (advanced 1 s) with ⟨p, hp, hh, he⟩ | ⟨p, hp, hh, he⟩
      · exact .inl ⟨binAt s.bin s.rcur.toNat :: p, by simp [hp], BinHolds.append.mpr ⟨h1, hh⟩, by
          rw [he, advanced_advanced, Nat.add_comm 1]; rfl⟩
      · exact .inr ⟨binAt s.bin s.rcur.toNat :: p, by simpa using hp, BinEndsAfter.append.mpr ⟨h1, hh⟩, by
          rw [he, advanced_advanced, List.length_cons, Nat.add_comm 1]⟩

/-! ## Tables -/

theorem freqAt_setFreqAt (t : Vector Word 256) (a b : Symbol) (v : Word) :
    freqAt (setFreqAt t a v) b = if a = b then v else freqAt t b := by
  simp only [freqAt, setFreqAt, Vector.getElem_set, BitVec.toNat_inj]

theorem codeAt_setCodeAt (t : Vector CodeEntry 256) (a b : Symbol) (e : CodeEntry) :
    codeAt (setCodeAt t a e) b = if a = b then e else codeAt t b := by
  simp only [codeAt, setCodeAt, Vector.getElem_set, BitVec.toNat_inj]

@[simp] theorem codeAt_noCodes (v : Symbol) : codeAt noCodes v = ⟨false, []⟩ := by
  simp [codeAt, noCodes]

theorem setNodeAt_getElem? (t : Vector Node 511) (n j : Nat) (nd : Node) (hn : n < 511) :
    (setNodeAt t n nd)[j]? = if n = j then some nd else t[j]? := by
  simp only [setNodeAt, Vector.getElem?_setIfInBounds, hn, if_true]

theorem mem_allSymbols (v : Symbol) : v ∈ Config.allSymbols :=
  List.mem_map.mpr ⟨v.toNat, List.mem_range.mpr v.isLt, by simp⟩

theorem allSymbols_nodup : Config.allSymbols.Nodup :=
  List.Nodup.map_on (fun a ha b hb h => by
    have := congrArg BitVec.toNat h
    simp only [BitVec.toNat_ofNat] at this
    rw [List.mem_range] at ha hb
    have h1 : a < 2 ^ 8 := ha
    have h2 : b < 2 ^ 8 := hb
    rwa [Nat.mod_eq_of_lt h1, Nat.mod_eq_of_lt h2] at this) List.nodup_range

/-! ## Commands -/

@[simp] theorem Res.bind_ok {α β : Type} (a : α) (s : State) (k : α → State → Res β) :
    (Res.ok a s).bind k = k a s := rfl
@[simp] theorem Res.bind_raised {α β : Type} (s : State) (k : α → State → Res β) :
    (Res.raised s : Res α).bind k = .raised s := rfl
@[simp] theorem Res.bind_stuck {α β : Type} (f : Fault) (k : α → State → Res β) :
    (Res.stuck f : Res α).bind k = .stuck f := rfl
@[simp] theorem Res.outcome_ok (a : Unit) (s : State) : (Res.ok a s).outcome = .next (complete s) := rfl
@[simp] theorem Res.outcome_raised (s : State) : (Res.raised s).outcome = .next s := rfl
@[simp] theorem Res.outcome_stuck (f : Fault) : (Res.stuck f).outcome = .fault f := rfl

theorem command_faulted (i : Instr) (body : State → Res Unit) (s : State) (h : s.status.fault = true) :
    command i body s = .next s := by
  simp [command, h]

theorem command_runs (i : Instr) (body : State → Res Unit) (s : State) (h : s.status.fault = false)
    (hp : precondition i s.status = true) : command i body s = (body (accept s)).outcome := by
  simp [command, h, hp]

theorem command_missing (i : Instr) (body : State → Res Unit) (s : State) (h : s.status.fault = false)
    (hp : precondition i s.status = false) : command i body s = .next (raise (opcodeOf i) .badSequence 0 s) := by
  simp [command, h, hp]

/-- A command that answers a next state was ignored, lacked its precondition, completed, or raised a fault of its own. -/
theorem command_cases {i : Instr} {body : State → Res Unit} {s t : State} (h : command i body s = .next t) :
    (s.status.fault = true ∧ t = s) ∨
    (s.status.fault = false ∧ precondition i s.status = false ∧ t = raise (opcodeOf i) .badSequence 0 s) ∨
    (s.status.fault = false ∧ precondition i s.status = true ∧
      ((∃ u, body (accept s) = .ok () u ∧ t = complete u) ∨ body (accept s) = .raised t)) := by
  rcases hf : s.status.fault with _ | _
  · rcases hp : precondition i s.status with _ | _
    · rw [command_missing i body s hf hp] at h
      cases h
      exact .inr (.inl ⟨rfl, rfl, rfl⟩)
    · rw [command_runs i body s hf hp] at h
      refine .inr (.inr ⟨rfl, rfl, ?_⟩)
      rcases hb : body (accept s) with ⟨⟨⟩, u⟩ | u | f
      · rw [hb] at h; cases h; exact .inl ⟨u, rfl, rfl⟩
      · rw [hb] at h; cases h; exact .inr rfl
      · rw [hb] at h; cases h
  · rw [command_faulted i body s hf] at h
    cases h
    exact .inl ⟨rfl, rfl⟩

end Sys2Proof.Machine
end

