-- ==== Sys2Proof/Laws/Tree.lean ====
section
/-! SUPPORT. One lemma per walker of the arena: what it computes on the tree under a handle. -/

namespace Sys2Proof.Machine

/-- What an arena that holds a tree under a handle looks like there. -/
theorem treeOf_cases {nodes : Vector Node 511} {d : Nat} {h : Handle} {t : Tree} (ht : treeOf nodes (d + 1) h = some t) :
    (∃ nd, nodeAt nodes h = some nd ∧ nd.leaf = true ∧ t = .leaf nd.sym) ∨
    (∃ nd l r, nodeAt nodes h = some nd ∧ nd.leaf = false ∧ treeOf nodes d nd.left = some l ∧
      treeOf nodes d nd.right = some r ∧ t = .inner l r) := by
  rw [treeOf] at ht
  rcases hn : nodeAt nodes h with _ | nd
  · simp [hn] at ht
  · rcases hl : nd.leaf with _ | _
    · rcases h1 : treeOf nodes d nd.left with _ | l
      · simp [hn, hl, h1] at ht
      · rcases h2 : treeOf nodes d nd.right with _ | r
        · simp [hn, hl, h1, h2] at ht
        · refine .inr ⟨nd, l, r, rfl, hl, h1, h2, ?_⟩
          simpa [hn, hl, h1, h2] using ht.symm
    · exact .inl ⟨nd, rfl, hl, by simpa [hn, hl] using ht.symm⟩

theorem treeOf_succ {nodes : Vector Node 511} {d : Nat} {h : Handle} {t : Tree} (ht : treeOf nodes d h = some t) :
    treeOf nodes (d + 1) h = some t := by
  induction d generalizing h t with
  | zero => simp [treeOf] at ht
  | succ d ih =>
    rcases treeOf_cases ht with ⟨nd, hn, hl, rfl⟩ | ⟨nd, l, r, hn, hl, h1, h2, rfl⟩
    · rw [treeOf]; simp [hn, hl]
    · rw [treeOf]; simp [hn, hl, ih h1, ih h2]

theorem treeOf_mono {nodes : Vector Node 511} {d e : Nat} {h : Handle} {t : Tree} (hde : d ≤ e)
    (ht : treeOf nodes d h = some t) : treeOf nodes e h = some t := by
  induction hde with
  | refl => exact ht
  | step _ ih => exact treeOf_succ ih

theorem headerBits_treeOf {nodes : Vector Node 511} {d : Nat} {h : Handle} {t : Tree} (ht : treeOf nodes d h = some t) :
    headerBits nodes d h = .ok t.header := by
  induction d generalizing h t with
  | zero => simp [treeOf] at ht
  | succ d ih =>
    rcases treeOf_cases ht with ⟨nd, hn, hl, rfl⟩ | ⟨nd, l, r, hn, hl, h1, h2, rfl⟩
    · simp [headerBits, hn, hl, Tree.header]
    · simp [headerBits, hn, hl, ih h1, ih h2, Tree.header]

/-- `GENCODES`'s walk under a handle: a symbol of the tree gets the path of its last leaf, every other keeps its entry. -/
theorem walkCodes_treeOf {nodes : Vector Node 511} {d : Nat} {h : Handle} {t : Tree} (ht : treeOf nodes d h = some t)
    (p : List Bit) (codes : Vector CodeEntry 256) :
    ∃ codes', walkCodes nodes d h p codes = .ok codes' ∧
      ∀ v, codeAt codes' v = (match t.pathOf v with | some q => ⟨true, p ++ q⟩ | none => codeAt codes v) := by
  induction d generalizing h t p codes with
  | zero => simp [treeOf] at ht
  | succ d ih =>
    rcases treeOf_cases ht with ⟨nd, hn, hl, rfl⟩ | ⟨nd, l, r, hn, hl, h1, h2, rfl⟩
    · refine ⟨_, by simp [walkCodes, hn, hl]; rfl, fun v => ?_⟩
      by_cases hv : nd.sym = v <;> simp [codeAt_setCodeAt, Tree.pathOf, hv]
    · obtain ⟨c1, e1, g1⟩ := ih h1 (p ++ [false]) codes
      obtain ⟨c2, e2, g2⟩ := ih h2 (p ++ [true]) c1
      refine ⟨c2, by simp [walkCodes, hn, hl, e1, e2], fun v => ?_⟩
      rw [g2, g1, Tree.pathOf]
      rcases r.pathOf v with _ | q
      · rcases l.pathOf v with _ | q <;> simp
      · simp

/-- The walk of `GENCODES` succeeds only on a tree. -/
theorem treeOf_of_walkCodes {nodes : Vector Node 511} {d : Nat} {h : Handle} {p : List Bit}
    {codes codes' : Vector CodeEntry 256} (hw : walkCodes nodes d h p codes = .ok codes') :
    ∃ t, treeOf nodes d h = some t := by
  induction d generalizing h p codes codes' with
  | zero => simp [walkCodes] at hw
  | succ d ih =>
    rw [walkCodes] at hw
    rcases hn : nodeAt nodes h with _ | nd
    · simp [hn] at hw
    · rcases hl : nd.leaf with _ | _
      · rcases h1 : walkCodes nodes d nd.left (p ++ [false]) codes with e | c1
        · simp [hn, hl, h1] at hw
        · simp only [hn, hl, h1] at hw
          obtain ⟨l, hl'⟩ := ih h1
          obtain ⟨r, hr'⟩ := ih hw
          exact ⟨.inner l r, by simp [treeOf, hn, hl, hl', hr']⟩
      · exact ⟨.leaf nd.sym, by simp [treeOf, hn, hl]⟩

/-- A tree under a handle is met by the preorder walk, and the other way round. -/
theorem handlesFrom_cases {nodes : Vector Node 511} {d : Nat} {h : Handle} {hs : List Handle}
    (ht : handlesFrom nodes (d + 1) h = some hs) :
    (∃ nd, nodeAt nodes h = some nd ∧ nd.leaf = true ∧ hs = [h]) ∨
    (∃ nd l r, nodeAt nodes h = some nd ∧ nd.leaf = false ∧ handlesFrom nodes d nd.left = some l ∧
      handlesFrom nodes d nd.right = some r ∧ hs = h :: (l ++ r)) := by
  rw [handlesFrom] at ht
  rcases hn : nodeAt nodes h with _ | nd
  · simp [hn] at ht
  · rcases hl : nd.leaf with _ | _
    · rcases h1 : handlesFrom nodes d nd.left with _ | l
      · simp [hn, hl, h1] at ht
      · rcases h2 : handlesFrom nodes d nd.right with _ | r
        · simp [hn, hl, h1, h2] at ht
        · refine .inr ⟨nd, l, r, rfl, hl, h1, h2, ?_⟩
          simpa [hn, hl, h1, h2] using ht.symm
    · exact .inl ⟨nd, rfl, hl, by simpa [hn, hl] using ht.symm⟩

theorem handlesFrom_mono {nodes : Vector Node 511} {d e : Nat} {h : Handle} {hs : List Handle} (hde : d ≤ e)
    (ht : handlesFrom nodes d h = some hs) : handlesFrom nodes e h = some hs := by
  induction d generalizing e h hs with
  | zero => simp [handlesFrom] at ht
  | succ d ih =>
    obtain ⟨e, rfl⟩ : ∃ k, e = k + 1 := ⟨e - 1, by omega⟩
    rcases handlesFrom_cases ht with ⟨nd, hn, hl, rfl⟩ | ⟨nd, l, r, hn, hl, h1, h2, rfl⟩
    · rw [handlesFrom]; simp [hn, hl]
    · have h1' := ih (e := e) (by omega) h1
      have h2' := ih (e := e) (by omega) h2
      rw [handlesFrom]; simp [hn, hl, h1', h2']

theorem handlesFrom_isSome_iff (nodes : Vector Node 511) (d : Nat) (h : Handle) :
    (handlesFrom nodes d h).isSome = (treeOf nodes d h).isSome := by
  induction d generalizing h with
  | zero => rfl
  | succ d ih =>
    rw [handlesFrom, treeOf]
    rcases nodeAt nodes h with _ | nd
    · rfl
    · rcases hl : nd.leaf with _ | _
      · have h1 := ih nd.left
        have h2 := ih nd.right
        simp only [hl, Bool.false_eq_true, if_false]
        generalize handlesFrom nodes d nd.left = a at h1 ⊢
        generalize treeOf nodes d nd.left = b at h1 ⊢
        generalize handlesFrom nodes d nd.right = c at h2 ⊢
        generalize treeOf nodes d nd.right = e at h2 ⊢
        cases a <;> cases b <;> cases c <;> cases e <;> simp_all
      · simp [hl]

/-- A well-formed arena (R29) holds a tree under its root. -/
theorem tree_of_treeWf {s : State} (h : treeWf s.nodes s.treeInfo = true) : ∃ t, s.tree = some t := by
  simp only [treeWf, Bool.and_eq_true] at h
  have ho := h.1.1.2
  rw [oneTree] at ho
  have := handlesFrom_isSome_iff s.nodes Config.nodeMax s.treeInfo.root
  rcases hh : handlesFrom s.nodes Config.nodeMax s.treeInfo.root with _ | hs
  · simp [hh] at ho
  · rw [hh] at this
    exact Option.isSome_iff_exists.mp this.symm

/-! ## Paths and codewords -/

theorem Tree.leafAt_pathOf {t : Tree} {v : Symbol} {p : List Bit} (h : t.pathOf v = some p) : t.leafAt p = some v := by
  induction t generalizing p with
  | leaf w =>
    rw [Tree.pathOf] at h
    split at h <;> simp_all [Tree.leafAt]
  | inner l r ihl ihr =>
    rw [Tree.pathOf] at h
    rcases hr : r.pathOf v with _ | q
    · rcases hl : l.pathOf v with _ | q
      · simp [hr, hl] at h
      · simp only [hr, hl, Option.some.injEq] at h
        subst h
        simp [Tree.leafAt, ihl hl]
    · simp only [hr, Option.some.injEq] at h
      subst h
      simp [Tree.leafAt, ihr hr]

theorem Tree.pathOf_isSome_iff (t : Tree) (v : Symbol) : (t.pathOf v).isSome = true ↔ v ∈ t.leaves := by
  induction t with
  | leaf w =>
    by_cases h : w = v
    · simp [Tree.pathOf, Tree.leaves, h]
    · simp [Tree.pathOf, Tree.leaves, h, Ne.symm h]
  | inner l r ihl ihr =>
    rw [Tree.leaves, List.mem_append, ← ihl, ← ihr, Tree.pathOf]
    rcases r.pathOf v with _ | q <;> rcases l.pathOf v with _ | q <;> simp

/-- A valid entry of the Code Table of a tree is a codeword of its symbol. -/
theorem Tree.codeword_of_codeEntry {t : Tree} {v : Symbol} (h : (t.codeEntry v).valid = true) :
    t.Codeword v (t.codeEntry v).bits := by
  cases t with
  | leaf w =>
    by_cases hw : w = v
    · simp [Tree.codeEntry, Tree.Codeword, hw]
    · simp [Tree.codeEntry, hw] at h
  | inner l r =>
    rcases hp : (Tree.inner l r).pathOf v with _ | p
    · simp [Tree.codeEntry, hp] at h
    · simp only [Tree.codeEntry, hp, Tree.Codeword]
      exact Tree.leafAt_pathOf hp

theorem Tree.codeEntry_valid_iff (t : Tree) (v : Symbol) : (t.codeEntry v).valid = true ↔ v ∈ t.leaves := by
  cases t with
  | leaf w =>
    by_cases h : w = v
    · simp [Tree.codeEntry, Tree.leaves, h]
    · simp [Tree.codeEntry, Tree.leaves, h, Ne.symm h]
  | inner l r =>
    rw [← Tree.pathOf_isSome_iff]
    rcases hp : (Tree.inner l r).pathOf v with _ | p <;> simp [Tree.codeEntry, hp]

/-- A path to a leaf is no proper beginning of another path to a leaf. -/
theorem Tree.leafAt_prefix_free {t : Tree} {p q : List Bit} {v w : Symbol} (hp : t.leafAt p = some v)
    (hq : t.leafAt q = some w) (hpq : p <+: q) : p = q := by
  induction t generalizing p q with
  | leaf u =>
    cases p with
    | nil => cases q with
      | nil => rfl
      | cons b q => simp [Tree.leafAt] at hq
    | cons b p => simp [Tree.leafAt] at hp
  | inner l r ihl ihr =>
    cases p with
    | nil => simp [Tree.leafAt] at hp
    | cons b p =>
      cases q with
      | nil => simp at hpq
      | cons c q =>
        obtain ⟨rfl, hpq'⟩ := List.cons_prefix_cons.mp hpq
        cases b
        · simp only [Tree.leafAt] at hp hq
          rw [ihl hp hq hpq']
        · simp only [Tree.leafAt, if_true] at hp hq
          rw [ihr hp hq hpq']

/-- The Code Table of an arena that holds a tree (R88). -/
theorem codeTable_treeOf {nodes : Vector Node 511} {root : Handle} {t : Tree}
    (ht : treeOf nodes Config.nodeMax root = some t) :
    ∃ codes, codeTable nodes root = .ok codes ∧ ∀ v, codeAt codes v = t.codeEntry v := by
  rcases treeOf_cases ht with ⟨nd, hn, hl, rfl⟩ | ⟨nd, l, r, hn, hl, h1, h2, rfl⟩
  · refine ⟨_, by simp [codeTable, hn, hl]; rfl, fun v => ?_⟩
    by_cases hv : nd.sym = v <;> simp [codeAt_setCodeAt, Tree.codeEntry, hv]
  · obtain ⟨codes, he, hc⟩ := walkCodes_treeOf ht [] noCodes
    refine ⟨codes, by simp [codeTable, hn, hl, he], fun v => ?_⟩
    rw [hc v, Tree.codeEntry]
    rcases (Tree.inner l r).pathOf v with _ | p <;> simp

theorem treeOf_of_codeTable {nodes : Vector Node 511} {root : Handle} {codes : Vector CodeEntry 256}
    (h : codeTable nodes root = .ok codes) : ∃ t, treeOf nodes Config.nodeMax root = some t := by
  rw [codeTable] at h
  rcases hn : nodeAt nodes root with _ | nd
  · simp [hn] at h
  · rcases hl : nd.leaf with _ | _
    · simp only [hn, hl] at h
      exact treeOf_of_walkCodes h
    · exact ⟨.leaf nd.sym, by simp [treeOf, hn, hl]⟩

end Sys2Proof.Machine
end

