-- ==== Sys2Proof/Laws/Loads.lean ====
section
/-! SUPPORT. The loads: what `hbit`, the symbol field and `des` of R98 do on a stream that holds what they read. -/

namespace Sys2Proof.Machine

/-- The declared length, where there is one, leaves room for `k` more bits (R98 `hbit`). -/
def Budget (bounded : Bool) (start k : Nat) (s : State) : Prop :=
  bounded = true → start ≤ s.rcur.toNat ∧ s.rcur.toNat - start + k ≤ s.hdrBits.toNat

theorem Budget.step {bounded : Bool} {start j k : Nat} {s : State} {p : List Bit} (hk : Budget bounded start (j + k) s)
    (hj : p.length = j) (hb : BinHolds s p) : Budget bounded start k (advanced j s) := by
  intro h
  have := hk h
  subst hj
  rw [hb.rcur_toNat]
  simp only [advanced_hdrBits]
  omega

theorem headerBit_holds {opc : Opcode} {bounded : Bool} {start k : Nat} {b : Bit} {p : List Bit} {s : State}
    (hb : BinHolds s (b :: p)) (hk : Budget bounded start (k + 1) s) :
    headerBit opc bounded start s = .ok b (advanced 1 s) := by
  have hn : (bounded && decide (s.rcur.toNat - start = s.hdrBits.toNat)) = false := by
    cases bounded with
    | false => rfl
    | true =>
      have := hk rfl
      simp
      omega
  rw [headerBit, hn]
  simp [hb.readBit.1]

theorem headerInt_holds {opc : Opcode} {bounded : Bool} {start : Nat} (p : List Bit) (v : Nat) {s : State}
    (hb : BinHolds s p) (hk : Budget bounded start p.length s) :
    headerInt opc bounded start p.length v s = .ok (bitsValue v p) (advanced p.length s) := by
  induction p generalizing v s with
  | nil => simp [headerInt, bitsValue]
  | cons b p ih =>
    have h1 : BinHolds s [b] := (BinHolds.append.mp (show BinHolds s ([b] ++ p) from hb)).1
    rw [List.length_cons, headerInt, headerBit_holds hb hk, Res.bind_ok,
      ih _ hb.readBit.2 (Budget.step (by rw [Nat.add_comm]; exact hk) rfl h1), advanced_advanced, Nat.add_comm 1]
    rfl

/-- How many nodes a tree has. -/
def Tree.size (t : Tree) : Nat := 2 * t.leaves.length - 1

theorem Tree.leaves_pos (t : Tree) : 0 < t.leaves.length := by
  induction t with
  | leaf v => simp [Tree.leaves]
  | inner l r ihl _ => simp [Tree.leaves]; omega

theorem Tree.header_length (t : Tree) : t.header.length = 10 * t.leaves.length - 1 := by
  induction t with
  | leaf v => simp [Tree.header, Tree.leaves]
  | inner l r ihl ihr =>
    have := l.leaves_pos
    have := r.leaves_pos
    simp only [Tree.header, Tree.leaves, List.length_cons, List.length_append, ihl, ihr]
    omega

theorem Tree.size_inner (l r : Tree) : (Tree.inner l r).size = l.size + r.size + 1 := by
  have := l.leaves_pos
  have := r.leaves_pos
  simp only [Tree.size, Tree.leaves, List.length_append]
  omega

theorem Tree.size_pos (t : Tree) : 0 < t.size := by
  have := t.leaves_pos
  simp only [Tree.size]
  omega

/-- What R98 says of one entry of a loaded arena: weight 0, and handles in preorder. -/
def PreorderEntry (nodes : Vector Node 511) (d j : Nat) : Prop :=
  ∃ nd, nodes[j]? = some nd ∧ nd.weight = 0 ∧
    (nd.leaf = true → nd.left = Config.nil ∧ nd.right = Config.nil) ∧
    (nd.leaf = false → nd.sym = 0 ∧ nd.left = BitVec.ofNat 9 (j + 1) ∧
      ∃ below, handlesFrom nodes d nd.left = some below ∧ nd.right = BitVec.ofNat 9 (j + 1 + below.length))

theorem PreorderEntry.succ {nodes : Vector Node 511} {d j : Nat} (h : PreorderEntry nodes d j) :
    PreorderEntry nodes (d + 1) j := by
  obtain ⟨nd, h1, h2, h3, h4⟩ := h
  refine ⟨nd, h1, h2, h3, fun hl => ?_⟩
  obtain ⟨h5, h6, below, h7, h8⟩ := h4 hl
  exact ⟨h5, h6, below, handlesFrom_mono (Nat.le_succ d) h7, h8⟩

/-- What the entries `n .. n + t.size - 1` hold after a load of the tree `t` from `n` on: the tree in preorder (R98). -/
structure LoadedAt (nodes : Vector Node 511) (n d : Nat) (t : Tree) : Prop where
  tree : treeOf nodes d (BitVec.ofNat 9 n) = some t
  handles : handlesFrom nodes d (BitVec.ofNat 9 n) = some ((List.range' n t.size).map (BitVec.ofNat 9))
  ok : ∀ j cnt, n ≤ j → j < n + t.size → n + t.size ≤ cnt → nodeOk nodes cnt j = true
  leaves : ((List.range' n t.size).filter (leafAtIndex nodes)).length = t.leaves.length
  entries : ∀ j, n ≤ j → j < n + t.size → PreorderEntry nodes d j

theorem nodeAt_ofNat (nodes : Vector Node 511) (n : Nat) (h : n < 512) : nodeAt nodes (BitVec.ofNat 9 n) = nodes[n]? := by
  rw [nodeAt, BitVec.toNat_ofNat, Nat.mod_eq_of_lt h]

theorem LoadedAt.leaf {nodes : Vector Node 511} {n d : Nat} {v : Symbol} (hn : n < 511)
    (h : nodes[n]? = some (leafNode v 0)) : LoadedAt nodes n (d + 1) (.leaf v) where
  tree := by rw [treeOf, nodeAt_ofNat _ _ (by omega), h]; rfl
  handles := by rw [handlesFrom, nodeAt_ofNat _ _ (by omega), h]; rfl
  ok j cnt h1 h2 h3 := by
    obtain rfl : j = n := by simp [Tree.size, Tree.leaves] at h2; omega
    simp [nodeOk, h, leafNode]
  leaves := by
    simp [Tree.size, Tree.leaves, leafAtIndex, h, leafNode]
  entries j h1 h2 := by
    obtain rfl : j = n := by simp [Tree.size, Tree.leaves] at h2; omega
    exact ⟨_, h, rfl, fun _ => ⟨rfl, rfl⟩, fun hl => by cases hl⟩

theorem LoadedAt.inner {nodes : Vector Node 511} {n d : Nat} {l r : Tree} (hn : n + (Tree.inner l r).size ≤ 511)
    (h : nodes[n]? = some (innerNode 0 (BitVec.ofNat 9 (n + 1)) (BitVec.ofNat 9 (n + 1 + l.size))))
    (hl : LoadedAt nodes (n + 1) d l) (hr : LoadedAt nodes (n + 1 + l.size) d r) :
    LoadedAt nodes n (d + 1) (.inner l r) where
  tree := by rw [treeOf, nodeAt_ofNat _ _ (by omega), h]; simp [innerNode, hl.tree, hr.tree]
  handles := by
    rw [handlesFrom, nodeAt_ofNat _ _ (by omega), h]
    simp only [innerNode, hl.handles, hr.handles, Tree.size_inner, Bool.false_eq_true, if_false]
    rw [show l.size + r.size + 1 = 1 + (l.size + r.size) by omega, ← List.range'_append_1, ← List.range'_append_1]
    simp [Nat.add_assoc]
  ok j cnt h1 h2 h3 := by
    rw [Tree.size_inner] at h2 h3 hn
    have := l.size_pos
    have := r.size_pos
    rcases Nat.lt_or_ge n j with h4 | h4
    · rcases Nat.lt_or_ge j (n + 1 + l.size) with h5 | h5
      · exact hl.ok j cnt h4 h5 (by omega)
      · exact hr.ok j cnt h5 (by omega) (by omega)
    · obtain rfl : j = n := by omega
      have e1 : (j + 1) % 512 = j + 1 := Nat.mod_eq_of_lt (by omega)
      have e2 : (j + 1 + l.size) % 512 = j + 1 + l.size := Nat.mod_eq_of_lt (by omega)
      simp only [nodeOk, h, innerNode, Bool.false_eq_true, if_false, Bool.and_eq_true, decide_eq_true_eq,
        BitVec.toNat_ofNat, ne_eq, ← BitVec.toNat_inj, Nat.reducePow, e1, e2]
      omega
  leaves := by
    rw [Tree.size_inner, show l.size + r.size + 1 = 1 + (l.size + r.size) by omega, ← List.range'_append_1,
      ← List.range'_append_1]
    simp only [List.filter_append, List.length_append, hl.leaves, hr.leaves, Tree.leaves, List.range', leafAtIndex, h,
      innerNode, List.filter_cons, Bool.false_eq_true, if_false, List.filter_nil, List.length_nil, Nat.zero_add]
  entries j h1 h2 := by
    rw [Tree.size_inner] at h2
    rcases Nat.lt_or_ge n j with h4 | h4
    · rcases Nat.lt_or_ge j (n + 1 + l.size) with h5 | h5
      · exact (hl.entries j h4 h5).succ
      · exact (hr.entries j h5 (by omega)).succ
    · obtain rfl : j = n := by omega
      exact ⟨_, h, rfl, (fun hf => by cases hf), fun _ => ⟨rfl, rfl, _, handlesFrom_mono (Nat.le_succ d) hl.handles,
        by simp [innerNode]⟩⟩

/-- `des()` on a stream that holds the header of a tree that fits the arena (R98). -/
theorem loadNode_header {opc : Opcode} {bounded : Bool} {start : Nat} (t : Tree) (d n lv : Nat) (s : State)
    (hd : t.size ≤ d) (hn : n + t.size ≤ 511) (hb : BinHolds s t.header)
    (hk : Budget bounded start t.header.length s) :
    ∃ nodes, loadNode opc bounded start d n lv s =
        .ok ⟨n, n + t.size, lv + t.leaves.length⟩ { advanced t.header.length s with nodes := nodes } ∧
      (∀ j, j < n ∨ n + t.size ≤ j → nodes[j]? = s.nodes[j]?) ∧
      ∀ nodes' : Vector Node 511, (∀ j, n ≤ j → j < n + t.size → nodes'[j]? = nodes[j]?) → LoadedAt nodes' n d t := by
  induction t generalizing d n lv s with
  | leaf v =>
    obtain ⟨d, rfl⟩ : ∃ e, d = e + 1 := ⟨d - 1, by simp [Tree.size, Tree.leaves] at hd; omega⟩
    have hsz : (Tree.leaf v).size = 1 := rfl
    rw [hsz] at hn ⊢
    have h1 : BinHolds s [true] := (BinHolds.append.mp (show BinHolds s ([true] ++ intBits v.toNat 8) from hb)).1
    refine ⟨setNodeAt s.nodes n (leafNode v 0), ?_, ?_, ?_⟩
    · rw [loadNode, if_neg (by simp only [Config.nodeMax]; omega), headerBit_holds hb hk, Res.bind_ok]
      have hi := headerInt_holds (opc := opc) (bounded := bounded) (start := start) (intBits v.toNat 8) 0 hb.readBit.2
        (Budget.step (by rw [Nat.add_comm]; exact hk) rfl h1)
      rw [intBits_length] at hi
      simp only [if_true]
      rw [hi, Res.bind_ok, bitsValue_intBits, advanced_advanced, Nat.mod_eq_of_lt v.isLt]
      simp [Tree.leaves, Tree.header, putNode, Nat.add_comm]
    · intro j hj
      rw [setNodeAt_getElem? _ _ _ _ (by omega), if_neg (by omega)]
    · intro nodes' hag
      apply LoadedAt.leaf (by omega)
      rw [hag n (le_refl _) (by omega), setNodeAt_getElem? _ _ _ _ (by omega), if_pos rfl]
  | inner l r ihl ihr =>
    have hsz := Tree.size_inner l r
    have hpos := l.size_pos
    have hposr := r.size_pos
    rw [hsz] at hd hn ⊢
    obtain ⟨d, rfl⟩ : ∃ e, d = e + 1 := ⟨d - 1, by omega⟩
    have hb' : BinHolds s ([false] ++ (l.header ++ r.header)) := hb
    obtain ⟨h1, h2⟩ := BinHolds.append.mp hb'
    obtain ⟨h3, h4⟩ := BinHolds.append.mp h2
    have hlen : (Tree.inner l r).header.length = 1 + (l.header.length + r.header.length) := by
      simp [Tree.header, Nat.add_comm]
    rw [hlen] at hk ⊢
    have hk1 : Budget bounded start (l.header.length + r.header.length) (advanced 1 s) := Budget.step hk rfl h1
    have hk2 : Budget bounded start r.header.length (advanced l.header.length (advanced 1 s)) :=
      Budget.step hk1 rfl h3
    have hk1' : Budget bounded start l.header.length (advanced 1 s) := fun h => by have := hk1 h; omega
    obtain ⟨nl, el, fl, tl⟩ := ihl d (n + 1) lv (advanced 1 s) (by omega) (by omega) h3 hk1'
    obtain ⟨nr, er, fr, tr⟩ := ihr d (n + 1 + l.size) (lv + l.leaves.length)
      { advanced l.header.length (advanced 1 s) with nodes := nl } (by omega) (by omega) h4 hk2
    refine ⟨setNodeAt nr n (innerNode 0 (BitVec.ofNat 9 (n + 1)) (BitVec.ofNat 9 (n + 1 + l.size))), ?_, ?_, ?_⟩
    · rw [loadNode, if_neg (by simp only [Config.nodeMax]; omega),
        headerBit_holds hb (k := l.header.length + r.header.length) (by rw [Nat.add_comm]; exact hk), Res.bind_ok]
      simp only [Bool.false_eq_true, if_false]
      rw [el, Res.bind_ok]
      simp only
      rw [er, Res.bind_ok]
      simp [putNode, Tree.leaves, advanced, BitVec.ofNat_add, BitVec.add_assoc, Nat.add_assoc, Nat.add_comm 1]
      rw [BitVec.add_comm, BitVec.add_assoc]
    · intro j hj
      rw [setNodeAt_getElem? _ _ _ _ (by omega), if_neg (by omega), fr j (by omega)]
      have := fl j (by omega)
      simpa using this
    · intro nodes' hag
      have key : ∀ j, n < j → j < n + (l.size + r.size + 1) → nodes'[j]? = nr[j]? := by
        intro j h5 h6
        rw [hag j (by omega) h6, setNodeAt_getElem? _ _ _ _ (by omega), if_neg (by omega)]
      apply LoadedAt.inner (by rw [hsz]; omega)
      · rw [hag n (le_refl _) (by omega), setNodeAt_getElem? _ _ _ _ (by omega), if_pos rfl]
      · refine tl nodes' (fun j h5 h6 => ?_)
        rw [key j (by omega) (by omega), fr j (by omega)]
      · exact tr nodes' (fun j h5 h6 => key j (by omega) (by omega))

/-- After the bits of `q` the next header bit is a fault of kind `kind`: the declared length or the stream has ended there. -/
def StopsAfter (opc : Opcode) (bounded : Bool) (start : Nat) (kind : FaultKind) (q : List Bit) (s : State) : Prop :=
  ∀ u : State, u.rcur = (advanced q.length s).rcur → u.binLen = s.binLen → u.bin = s.bin → u.hdrBits = s.hdrBits →
    headerBit opc bounded start u = .raised (raise opc kind u.rcur u)

theorem StopsAfter.tail {opc : Opcode} {bounded : Bool} {start : Nat} {kind : FaultKind} {p q : List Bit} {s : State}
    (h : StopsAfter opc bounded start kind (p ++ q) s) : StopsAfter opc bounded start kind q (advanced p.length s) := by
  intro u h1 h2 h3 h4
  exact h u (by rw [h1, advanced_advanced, List.length_append]) (by simpa using h2) (by simpa using h3) (by simpa using h4)

theorem headerInt_stop {opc : Opcode} {bounded : Bool} {start : Nat} {kind : FaultKind} (q : List Bit) (w v : Nat)
    {s : State} (hw : q.length < w) (hb : BinHolds s q) (hk : Budget bounded start q.length s)
    (hs : StopsAfter opc bounded start kind q s) :
    headerInt opc bounded start w v s = .raised (raise opc kind (advanced q.length s).rcur (advanced q.length s)) := by
  induction q generalizing v s w with
  | nil =>
    obtain ⟨w, rfl⟩ : ∃ k, w = k + 1 := ⟨w - 1, by simp at hw; omega⟩
    rw [headerInt, hs s (by simp) rfl rfl rfl]
    simp
  | cons b q ih =>
    obtain ⟨w, rfl⟩ : ∃ k, w = k + 1 := ⟨w - 1, by simp at hw; omega⟩
    have h1 : BinHolds s [b] := (BinHolds.append.mp (show BinHolds s ([b] ++ q) from hb)).1
    rw [headerInt, headerBit_holds hb hk, Res.bind_ok, ih w _ (by simpa using hw) hb.readBit.2
      (Budget.step (by rw [Nat.add_comm]; exact hk) rfl h1) (StopsAfter.tail (p := [b]) hs), advanced_advanced,
      List.length_cons, Nat.add_comm 1]

theorem prefix_append_cases {α : Type} {q a b : List α} (h : q <+: a ++ b) :
    (q <+: a ∧ q ≠ a) ∨ ∃ r, q = a ++ r ∧ r <+: b := by
  rcases Nat.lt_or_ge q.length a.length with hl | hl
  · exact .inl ⟨List.prefix_of_prefix_length_le h (List.prefix_append a b) (by omega), fun e => by rw [e] at hl; omega⟩
  · obtain ⟨r, rfl⟩ := List.prefix_of_prefix_length_le (List.prefix_append a b) h hl
    exact .inr ⟨r, rfl, (List.prefix_append_right_inj a).mp h⟩

/-! ## Headers cut off, and headers of too many nodes -/

/-- The bits of the first `m` nodes of a header. -/
def Tree.upTo (m : Nat) (t : Tree) : List Bit := (t.nodeBits.take m).flatten

theorem Tree.loadableBits_eq (t : Tree) : t.loadableBits = t.upTo 511 := rfl

theorem Tree.nodeBits_length (t : Tree) : t.nodeBits.length = t.size := by
  induction t with
  | leaf v => rfl
  | inner l r ihl ihr => rw [Tree.size_inner, ← ihl, ← ihr]; simp [Tree.nodeBits]

theorem Tree.nodeBits_flatten (t : Tree) : t.nodeBits.flatten = t.header := by
  induction t with
  | leaf v => simp [Tree.nodeBits, Tree.header]
  | inner l r ihl ihr => simp [Tree.nodeBits, Tree.header, ihl, ihr]

@[simp] theorem Tree.upTo_zero (t : Tree) : t.upTo 0 = [] := by simp [Tree.upTo]

theorem Tree.upTo_fits {m : Nat} {t : Tree} (h : t.size ≤ m) : t.upTo m = t.header := by
  rw [Tree.upTo, List.take_of_length_le (by rwa [Tree.nodeBits_length]), Tree.nodeBits_flatten]

theorem Tree.upTo_inner (m : Nat) (l r : Tree) :
    (Tree.inner l r).upTo (m + 1) = false :: (l.upTo m ++ r.upTo (m - l.size)) := by
  simp [Tree.upTo, Tree.nodeBits, List.take_append, Tree.nodeBits_length]

theorem Tree.loadableBits_fits {t : Tree} (h : t.leaves.length ≤ 256) : t.loadableBits = t.header :=
  Tree.upTo_fits (by simp only [Tree.size, Config.nodeMax]; omega)

/-- The start of `des()` on an internal node. -/
theorem loadNode_inner {opc : Opcode} {bounded : Bool} {start k d n lv : Nat} {p : List Bit} {s : State} (hn : n < 511)
    (hb : BinHolds s (false :: p)) (hk : Budget bounded start (k + 1) s) :
    loadNode opc bounded start (d + 1) n lv s =
      (loadNode opc bounded start d (n + 1) lv (advanced 1 s)).bind fun l s2 =>
        (loadNode opc bounded start d l.n l.leaves s2).bind fun r s3 =>
          .ok ⟨n, r.n, r.leaves⟩
            (putNode n (innerNode 0 (BitVec.ofNat 9 l.handle) (BitVec.ofNat 9 r.handle)) s3) := by
  rw [loadNode, if_neg (by simp only [Config.nodeMax]; omega), headerBit_holds hb hk, Res.bind_ok]
  simp

/-- `des()` on a stream that holds the beginning `q` of a header, short of the node the arena has no room for, and then stops
(R95, R96, R98). -/
theorem loadNode_stop {opc : Opcode} {bounded : Bool} {start : Nat} {kind : FaultKind} (t : Tree) (q : List Bit)
    (d n lv : Nat) (s : State) (hd : 511 ≤ d + n) (hn : n ≤ 511) (hq : q <+: t.upTo (511 - n)) (hne : q ≠ t.upTo (511 - n))
    (hb : BinHolds s q) (hk : Budget bounded start q.length s) (hs : StopsAfter opc bounded start kind q s) :
    ∃ nodes, loadNode opc bounded start d n lv s =
      .raised (raise opc kind (advanced q.length s).rcur { advanced q.length s with nodes := nodes }) := by
  have hlt : n < 511 := by
    rcases Nat.lt_or_ge n 511 with h | h
    · exact h
    · rw [show 511 - n = 0 by omega, Tree.upTo_zero] at hq hne
      exact absurd (List.prefix_nil.mp hq) hne
  induction t generalizing q d n lv s with
  | leaf v =>
    obtain ⟨d, rfl⟩ : ∃ e, d = e + 1 := ⟨d - 1, by omega⟩
    rw [Tree.upTo_fits (show 1 ≤ 511 - n by omega)] at hq hne
    cases q with
    | nil =>
      refine ⟨s.nodes, ?_⟩
      rw [loadNode, if_neg (by simp only [Config.nodeMax]; omega), hs s (by simp) rfl rfl rfl]
      simp
    | cons b q =>
      rw [Tree.header] at hq hne
      obtain ⟨rfl, hq'⟩ := List.cons_prefix_cons.mp hq
      have h1 : BinHolds s [true] := (BinHolds.append.mp (show BinHolds s ([true] ++ q) from hb)).1
      have hlt : q.length < 8 := by
        have h2 := hq'.length_le
        rw [intBits_length] at h2
        rcases Nat.lt_or_ge q.length 8 with h3 | h3
        · exact h3
        · exact absurd (by rw [hq'.eq_of_length (by rw [intBits_length]; omega)]) hne
      refine ⟨s.nodes, ?_⟩
      rw [loadNode, if_neg (by simp only [Config.nodeMax]; omega), headerBit_holds hb hk, Res.bind_ok]
      simp only [if_true]
      rw [headerInt_stop q 8 0 hlt hb.readBit.2 (Budget.step (by rw [Nat.add_comm]; exact hk) rfl h1)
        (StopsAfter.tail (p := [true]) hs), Res.bind_raised, advanced_advanced, List.length_cons, Nat.add_comm 1]
      rfl
  | inner l r ihl ihr =>
    obtain ⟨d, rfl⟩ : ∃ e, d = e + 1 := ⟨d - 1, by omega⟩
    obtain ⟨m, hm⟩ : ∃ m, 511 - n = m + 1 := ⟨511 - n - 1, by omega⟩
    rw [hm, Tree.upTo_inner] at hq hne
    cases q with
    | nil =>
      refine ⟨s.nodes, ?_⟩
      rw [loadNode, if_neg (by simp only [Config.nodeMax]; omega), hs s (by simp) rfl rfl rfl]
      simp
    | cons b q =>
      obtain ⟨rfl, hq'⟩ := List.cons_prefix_cons.mp hq
      have hne' : q ≠ l.upTo m ++ r.upTo (m - l.size) := fun e => hne (by rw [e])
      have hh : BinHolds s ([false] ++ q) := hb
      obtain ⟨h1, h2⟩ := BinHolds.append.mp hh
      have hk' : Budget bounded start q.length (advanced 1 s) := Budget.step (by rw [Nat.add_comm]; exact hk) rfl h1
      have hs' : StopsAfter opc bounded start kind q (advanced 1 s) := StopsAfter.tail (p := [false]) hs
      have em : 511 - (n + 1) = m := by omega
      rw [loadNode_inner hlt hb hk]
      rcases prefix_append_cases hq' with ⟨hql, hnl⟩ | ⟨q', rfl, hqr⟩
      · have hlt' : n + 1 < 511 := by
          rcases Nat.lt_or_ge (n + 1) 511 with h | h
          · exact h
          · rw [show m = 0 by omega, Tree.upTo_zero] at hql hnl
            exact absurd (List.prefix_nil.mp hql) hnl
        obtain ⟨nl, el⟩ := ihl q d (n + 1) lv (advanced 1 s) (by omega) (by omega) (by rwa [em]) (by rwa [em]) h2 hk' hs' hlt'
        refine ⟨nl, ?_⟩
        rw [el, Res.bind_raised, advanced_advanced, List.length_cons, Nat.add_comm 1]
      · have hfit : l.size ≤ m := by
          rcases Nat.lt_or_ge m l.size with h | h
          · rw [show m - l.size = 0 by omega, Tree.upTo_zero] at hqr hne'
            exact absurd (by rw [List.prefix_nil.mp hqr]) hne'
          · exact h
        rw [Tree.upTo_fits hfit] at h2 hk' hs' hne' ⊢
        have hltr : n + 1 + l.size < 511 := by
          rcases Nat.lt_or_ge (n + 1 + l.size) 511 with h | h
          · exact h
          · rw [show m - l.size = 0 by omega, Tree.upTo_zero] at hqr hne'
            exact absurd (by rw [List.prefix_nil.mp hqr]) hne'
        obtain ⟨h3, h4⟩ := BinHolds.append.mp h2
        rw [List.length_append] at hk'
        have hkl : Budget bounded start l.header.length (advanced 1 s) := fun h => by have := hk' h; omega
        have hkr : Budget bounded start q'.length (advanced l.header.length (advanced 1 s)) := Budget.step hk' rfl h3
        have hsr : StopsAfter opc bounded start kind q' (advanced l.header.length (advanced 1 s)) := StopsAfter.tail hs'
        obtain ⟨nl, el, -, -⟩ := loadNode_header (opc := opc) l d (n + 1) lv (advanced 1 s) (by omega) (by omega) h3 hkl
        have er' : 511 - (n + 1 + l.size) = m - l.size := by omega
        obtain ⟨nr, er⟩ := ihr q' d (n + 1 + l.size) (lv + l.leaves.length)
          { advanced l.header.length (advanced 1 s) with nodes := nl } (by omega) (by omega) (by rwa [er'])
          (by rw [er']; exact fun e => hne' (by rw [e])) h4 hkr hsr hltr
        refine ⟨nr, ?_⟩
        rw [el, Res.bind_ok]
        simp only
        rw [er, Res.bind_raised]
        rw [show (false :: (l.header ++ q')).length = 1 + (l.header.length + q'.length) by simp [Nat.add_comm],
          ← advanced_advanced, ← advanced_advanced]
        rfl

/-- `des()` on a full arena: the capacity is tested before the marker bit (R98). -/
theorem loadNode_full {opc : Opcode} {bounded : Bool} {start d lv : Nat} {s : State} :
    loadNode opc bounded start d 511 lv s = .raised (raise opc .capacityExceeded s.rcur s) := by
  cases d <;> simp [loadNode, Config.nodeMax]

/-- `des()` on a stream that holds a header of more nodes than the arena has room for (R95, R98). -/
theorem loadNode_overflow {opc : Opcode} {bounded : Bool} {start : Nat} (t : Tree) (d n lv : Nat) (s : State)
    (hd : 511 ≤ d + n) (hn : n ≤ 511) (ht : 511 < n + t.size) (hb : BinHolds s (t.upTo (511 - n)))
    (hk : Budget bounded start (t.upTo (511 - n)).length s) :
    ∃ nodes, loadNode opc bounded start d n lv s =
      .raised (raise opc .capacityExceeded (advanced (t.upTo (511 - n)).length s).rcur
        { advanced (t.upTo (511 - n)).length s with nodes := nodes }) := by
  rcases Nat.lt_or_ge n 511 with hlt | hge
  · induction t generalizing d n lv s with
    | leaf v =>
      have : (Tree.leaf v).size = 1 := rfl
      omega
    | inner l r ihl ihr =>
      obtain ⟨d, rfl⟩ : ∃ e, d = e + 1 := ⟨d - 1, by omega⟩
      obtain ⟨m, hm⟩ : ∃ m, 511 - n = m + 1 := ⟨511 - n - 1, by omega⟩
      have hsz := Tree.size_inner l r
      have em : 511 - (n + 1) = m := by omega
      rw [hm, Tree.upTo_inner] at hb hk ⊢
      have hh : BinHolds s ([false] ++ (l.upTo m ++ r.upTo (m - l.size))) := hb
      obtain ⟨h1, h2⟩ := BinHolds.append.mp hh
      obtain ⟨h3, h4⟩ := BinHolds.append.mp h2
      have hlen : (false :: (l.upTo m ++ r.upTo (m - l.size))).length =
          1 + ((l.upTo m).length + (r.upTo (m - l.size)).length) := by simp [Nat.add_comm]
      rw [loadNode_inner hlt hb (k := (l.upTo m ++ r.upTo (m - l.size)).length) hk]
      rw [hlen] at hk ⊢
      have hk1 : Budget bounded start ((l.upTo m).length + (r.upTo (m - l.size)).length) (advanced 1 s) :=
        Budget.step hk rfl h1
      have hkl : Budget bounded start (l.upTo m).length (advanced 1 s) := fun h => by have := hk1 h; omega
      rcases Nat.lt_or_ge m l.size with hbig | hfit
      · have er : r.upTo (m - l.size) = [] := by rw [show m - l.size = 0 by omega, Tree.upTo_zero]
        rw [er, List.length_nil, Nat.add_zero]
        rcases Nat.lt_or_ge (n + 1) 511 with h | h
        · obtain ⟨nl, el⟩ := ihl d (n + 1) lv (advanced 1 s) (by omega) (by omega) (by omega) (by rwa [em]) (by rwa [em]) h
          refine ⟨nl, ?_⟩
          rw [el, Res.bind_raised, em, advanced_advanced]
          rfl
        · obtain rfl : n = 510 := by omega
          obtain rfl : m = 0 := by omega
          refine ⟨s.nodes, ?_⟩
          rw [show 510 + 1 = 511 from rfl, loadNode_full, Res.bind_raised]
          simp
          rfl
      · rw [Tree.upTo_fits hfit] at h3 h4 hk1 hkl ⊢
        have hkr : Budget bounded start (r.upTo (m - l.size)).length (advanced l.header.length (advanced 1 s)) :=
          Budget.step hk1 rfl h3
        obtain ⟨nl, el, -, -⟩ := loadNode_header (opc := opc) l d (n + 1) lv (advanced 1 s) (by omega) (by omega) h3 hkl
        have er' : 511 - (n + 1 + l.size) = m - l.size := by omega
        rw [el, Res.bind_ok]
        simp only
        rcases Nat.lt_or_ge (n + 1 + l.size) 511 with h | h
        · obtain ⟨nr, er⟩ := ihr d (n + 1 + l.size) (lv + l.leaves.length)
            { advanced l.header.length (advanced 1 s) with nodes := nl } (by omega) (by omega) (by omega) (by rwa [er'])
            (by rwa [er']) h
          refine ⟨nr, ?_⟩
          rw [er, Res.bind_raised, er', ← advanced_advanced, ← advanced_advanced]
          rfl
        · have e0 : m - l.size = 0 := by omega
          refine ⟨nl, ?_⟩
          rw [show n + 1 + l.size = 511 by omega, loadNode_full, Res.bind_raised, e0, Tree.upTo_zero, List.length_nil,
            Nat.add_zero, ← advanced_advanced]
  · obtain rfl : n = 511 := by omega
    refine ⟨s.nodes, ?_⟩
    rw [loadNode_full]
    simp

theorem bitsValue_eq (a : Nat) (p : List Bit) : bitsValue a p = a * 2 ^ p.length + bitsValue 0 p ∧
    bitsValue 0 p < 2 ^ p.length := by
  induction p generalizing a with
  | nil => simp [bitsValue]
  | cons b p ih =>
    have e : ∀ c, bitsValue c (b :: p) = bitsValue (pushBit c b) p := fun _ => rfl
    have hb := b.toNat_le
    rw [e, e, (ih (pushBit a b)).1, (ih (pushBit 0 b)).1, List.length_cons, Nat.pow_succ]
    have := (ih 0).2
    simp only [pushBit]
    constructor
    · ring
    · nlinarith

/-- The bits of a field give back the sequence it was read from. -/
theorem intBits_bitsValue (a : Nat) (p : List Bit) : intBits (bitsValue a p) p.length = p := by
  induction p generalizing a with
  | nil => rfl
  | cons b p ih =>
    rw [show bitsValue a (b :: p) = bitsValue (pushBit a b) p from rfl, List.length_cons, intBits_succ, ih]
    congr 1
    obtain ⟨h1, h2⟩ := bitsValue_eq (pushBit a b) p
    rw [h1, Nat.testBit_eq_decide_div_mod_eq, Nat.add_comm, Nat.add_mul_div_right _ _ (Nat.two_pow_pos _),
      Nat.div_eq_of_lt h2, pushBit]
    cases b <;> simp

theorem intBits_mod (v w : Nat) : intBits v w = intBits (v % 2 ^ w) w := by
  apply List.ext_getElem (by simp)
  intro j h1 h2
  rw [intBits_length] at h1
  rw [getElem_intBits, getElem_intBits, Nat.testBit_mod_two_pow]
  simp only [show w - 1 - j < w by omega, decide_true, Bool.true_and]

theorem headerBit_ok {opc : Opcode} {bounded : Bool} {start : Nat} {b : Bit} {s s' : State}
    (hk : Budget bounded start 0 s) (h : headerBit opc bounded start s = .ok b s') :
    BinHolds s [b] ∧ s' = advanced 1 s ∧ Budget bounded start 1 s := by
  rw [headerBit] at h
  split at h
  · cases h
  · next hn =>
    rcases readBit_cases s with ⟨_, hr⟩ | ⟨hlt, hr⟩
    · rw [hr] at h; cases h
    · rw [hr] at h
      cases h
      refine ⟨?_, rfl, fun hb => ?_⟩
      · intro j hj
        obtain rfl : j = 0 := by simpa using hj
        exact ⟨hlt, rfl⟩
      · have := hk hb
        subst hb
        simp at hn
        omega

theorem headerInt_ok {opc : Opcode} {bounded : Bool} {start w v x : Nat} {s s' : State}
    (hk : Budget bounded start 0 s) (h : headerInt opc bounded start w v s = .ok x s') :
    ∃ p, p.length = w ∧ BinHolds s p ∧ x = bitsValue v p ∧ s' = advanced w s ∧ Budget bounded start w s := by
  induction w generalizing v s with
  | zero =>
    rw [headerInt] at h
    cases h
    exact ⟨[], rfl, binHolds_nil _, rfl, by simp, hk⟩
  | succ w ih =>
    rw [headerInt] at h
    rcases hb : headerBit opc bounded start s with ⟨b, s1⟩ | s1 | f
    · obtain ⟨h1, rfl, h3⟩ := headerBit_ok hk hb
      rw [hb, Res.bind_ok] at h
      obtain ⟨p, hp, hpb, hx, hs', hkp⟩ := ih (Budget.step (by simpa using h3) rfl h1) h
      refine ⟨b :: p, by simp [hp], BinHolds.append.mpr ⟨h1, hpb⟩, hx, by rw [hs', advanced_advanced, Nat.add_comm]; rfl, ?_⟩
      intro hbd
      have e1 := h3 hbd
      have e2 := hkp hbd
      have e3 := h1.rcur_toNat
      rw [e3] at e2
      simp only [advanced_hdrBits, List.length_singleton] at e2
      omega
    · rw [hb] at h; cases h
    · rw [hb] at h; cases h

/-- What `des()` has read when it returns: the header of some tree that fits the arena (R97, R98). -/
theorem loadNode_ok {opc : Opcode} {bounded : Bool} {start : Nat} {d n lv : Nat} {r : Loaded} {s s' : State}
    (hn : n ≤ 511) (hk : Budget bounded start 0 s) (h : loadNode opc bounded start d n lv s = .ok r s') :
    ∃ t : Tree, BinHolds s t.header ∧ n + t.size ≤ 511 ∧ Budget bounded start t.header.length s ∧ r.n = n + t.size ∧
      s' = { advanced t.header.length s with nodes := s'.nodes } := by
  induction d generalizing n lv r s s' with
  | zero => rw [loadNode] at h; cases h
  | succ d ih =>
    rw [loadNode] at h
    split at h
    · cases h
    · next hcap =>
      rcases hb : headerBit opc bounded start s with ⟨m, s1⟩ | s1 | f
      · obtain ⟨h1, rfl, h3⟩ := headerBit_ok hk hb
        rw [hb, Res.bind_ok] at h
        have hk1 : Budget bounded start 0 (advanced 1 s) := Budget.step (by simpa using h3) rfl h1
        have join : ∀ k, Budget bounded start k (advanced 1 s) → Budget bounded start (1 + k) s := by
          intro k hkk hbd
          have e1 := h3 hbd
          have e2 := hkk hbd
          have e3 := h1.rcur_toNat
          simp only [List.length_singleton] at e3
          rw [e3] at e2
          simp only [advanced_hdrBits] at e2
          omega
        cases m
        · simp only [Bool.false_eq_true, if_false] at h
          rcases hl : loadNode opc bounded start d (n + 1) lv (advanced 1 s) with ⟨l, s2⟩ | s2 | f
          · rw [hl, Res.bind_ok] at h
            have hcap' : n ≠ 511 := hcap
            obtain ⟨tl, b1, c1, k1, n1, e1⟩ := ih (by omega) hk1 hl
            have hk2 : Budget bounded start 0 s2 := by
              rw [e1]
              exact fun hbd => Budget.step (k := 0) k1 rfl b1 hbd
            rcases hr : loadNode opc bounded start d l.n l.leaves s2 with ⟨r', s3⟩ | s3 | f
            · rw [hr, Res.bind_ok] at h
              obtain ⟨tr, b2, c2, k2, n2, e2⟩ := ih (by omega) hk2 hr
              cases h
              have b2' : BinHolds (advanced tl.header.length (advanced 1 s)) tr.header := by rw [e1] at b2; exact b2
              have k2' : Budget bounded start tr.header.length (advanced tl.header.length (advanced 1 s)) := by
                rw [e1] at k2; exact k2
              have hlen : (Tree.inner tl tr).header.length = 1 + (tl.header.length + tr.header.length) := by
                simp [Tree.header, Nat.add_comm]
              refine ⟨.inner tl tr, (BinHolds.append (p := [false])).mpr ⟨h1, BinHolds.append.mpr ⟨b1, b2'⟩⟩,
                by rw [Tree.size_inner]; omega, ?_, by simp only [Tree.size_inner]; omega, ?_⟩
              · rw [hlen]
                apply join
                intro hbd
                have f1 := k1 hbd
                have f2 := k2' hbd
                rw [b1.rcur_toNat] at f2
                simp only [advanced_hdrBits] at f1 f2 ⊢
                omega
              · rw [hlen, ← advanced_advanced, ← advanced_advanced, putNode, e2, e1]
                rfl
            · rw [hr] at h; cases h
            · rw [hr] at h; cases h
          · rw [hl] at h; cases h
          · rw [hl] at h; cases h
        · simp only [if_true] at h
          rcases hi : headerInt opc bounded start 8 0 (advanced 1 s) with ⟨v, s2⟩ | s2 | f
          · rw [hi, Res.bind_ok] at h
            cases h
            obtain ⟨p, hp, hpb, hx, hs', hkp⟩ := headerInt_ok hk1 hi
            have hcap' : n ≠ 511 := hcap
            have hpv : p = intBits (BitVec.ofNat 8 (bitsValue 0 p)).toNat 8 := by
              rw [BitVec.toNat_ofNat, ← hp, ← intBits_mod, intBits_bitsValue]
            refine ⟨.leaf (BitVec.ofNat 8 (bitsValue 0 p)), ?_, ?_, ?_, rfl, ?_⟩
            · rw [Tree.header, ← hpv]
              exact (BinHolds.append (p := [true])).mpr ⟨h1, hpb⟩
            · change n + 1 ≤ 511; omega
            · rw [Tree.header, List.length_cons, intBits_length]
              exact join 8 hkp
            · rw [Tree.header, List.length_cons, intBits_length, Nat.add_comm, ← advanced_advanced, putNode, hs']
          · rw [hi] at h; cases h
          · rw [hi] at h; cases h
      · rw [hb] at h; cases h
      · rw [hb] at h; cases h

/-- A tree in preorder from handle 0 on is well formed (R29, R98). -/
theorem LoadedAt.treeWf {nodes : Vector Node 511} {t : Tree} (hs : t.size ≤ 511) (h : LoadedAt nodes 0 511 t) :
    Machine.treeWf nodes ⟨0, BitVec.ofNat 9 t.size, BitVec.ofNat 9 t.leaves.length⟩ = true := by
  have h1 := t.size_pos
  have h2 : t.size = 2 * t.leaves.length - 1 := rfl
  have h3 := t.leaves_pos
  have e1 : t.size % 512 = t.size := Nat.mod_eq_of_lt (by omega)
  have e2 : t.leaves.length % 512 = t.leaves.length := Nat.mod_eq_of_lt (by omega)
  have hh := h.handles
  simp only [Machine.treeWf, BitVec.toNat_ofNat, Nat.reducePow, e1, e2, Bool.and_eq_true, decide_eq_true_eq]
  refine ⟨⟨⟨⟨⟨h1, h1⟩, ?_⟩, ?_⟩, ?_⟩, h2⟩
  · rw [List.all_eq_true]
    intro j hj
    rw [List.mem_range] at hj
    exact h.ok j _ (Nat.zero_le _) (by omega) (by omega)
  · have : handlesFrom nodes Config.nodeMax 0#9 = some ((List.range' 0 t.size).map (BitVec.ofNat 9)) := hh
    rw [oneTree]
    change (match handlesFrom nodes Config.nodeMax 0#9 with | none => false | some hs => _) = true
    rw [this]
    simp only [List.length_map, List.length_range', BitVec.toNat_ofNat, Nat.reducePow, e1, decide_true, Bool.and_true, Bool.and_eq_true, decide_eq_true_eq]
    constructor
    · refine List.Nodup.map_on (fun a ha b hb e => ?_) (List.nodup_range')
      have := congrArg BitVec.toNat e
      simp only [BitVec.toNat_ofNat, Nat.reducePow] at this
      rw [List.mem_range'_1] at ha hb
      omega
    · rw [List.all_eq_true]
      intro x hx
      obtain ⟨j, hj, rfl⟩ := List.mem_map.mp hx
      rw [List.mem_range'_1] at hj
      simp only [BitVec.toNat_ofNat, Nat.reducePow, decide_eq_true_eq]
      omega
  · rw [List.range_eq_range', h.leaves]

end Sys2Proof.Machine
end

