-- ==== Sys2Proof/Laws/Build.lean ====
section
/-! SUPPORT. The tree builder: what a turn of `BUILD`'s loop keeps (R81, R84). -/

namespace Sys2Proof.Machine

/-! ## The queue -/

theorem firstOf_isSome (nodes : Vector Node 511) (q : List Handle) (hq : q ≠ []) : ∃ a, firstOf nodes q = some a := by
  cases q with
  | nil => exact absurd rfl hq
  | cons h rest =>
    rw [firstOf]
    split
    · exact ⟨_, rfl⟩
    · split <;> exact ⟨_, rfl⟩

theorem firstOf_mem {nodes : Vector Node 511} {q : List Handle} {a : Handle} (h : firstOf nodes q = some a) : a ∈ q := by
  induction q generalizing a with
  | nil => cases h
  | cons x rest ih =>
    rw [firstOf] at h
    split at h
    · cases h; simp
    · next m hm =>
      split at h
      · cases h; exact List.mem_cons_of_mem _ (ih hm)
      · cases h; simp

theorem removeFirst_perm {nodes : Vector Node 511} {q r : List Handle} {a : Handle}
    (h : removeFirst nodes q = some (a, r)) : q.Perm (a :: r) := by
  rw [removeFirst] at h
  split at h
  · cases h
  · next m hm =>
    cases h
    exact List.perm_cons_erase (firstOf_mem hm)

/-- R80: the comparator, spelled out. -/
theorem before_iff (nodes : Vector Node 511) (a b : Handle) : before nodes a b = true ↔
    weightAt nodes a < weightAt nodes b ∨ (weightAt nodes a = weightAt nodes b ∧ a.toNat < b.toNat) := by
  simp [before]

/-- R80: the comparator is total. -/
theorem before_total {nodes : Vector Node 511} {a b : Handle} (h : a ≠ b) :
    before nodes a b = true ∨ before nodes b a = true := by
  have : a.toNat ≠ b.toNat := fun e => h (BitVec.eq_of_toNat_eq e)
  simp only [before_iff]
  omega

theorem before_trans {nodes : Vector Node 511} {a b c : Handle} (h1 : before nodes a b = true)
    (h2 : before nodes b c = true) : before nodes a c = true := by
  simp only [before_iff] at *
  omega

theorem before_irrefl (nodes : Vector Node 511) (a : Handle) : before nodes a a ≠ true := by
  simp [before_iff]

/-- R81: what is removed is before every other element of the queue. -/
theorem firstOf_before {nodes : Vector Node 511} {q : List Handle} {a : Handle} (h : firstOf nodes q = some a) :
    ∀ b ∈ q, b ≠ a → before nodes a b = true := by
  induction q generalizing a with
  | nil => cases h
  | cons x rest ih =>
    rw [firstOf] at h
    split at h
    · next hn =>
      cases h
      intro b hb hne
      rcases List.mem_cons.mp hb with rfl | hb
      · exact absurd rfl hne
      · obtain ⟨_, hs⟩ := firstOf_isSome nodes rest (List.ne_nil_of_mem hb)
        rw [hn] at hs; cases hs
    · next m hm =>
      split at h
      · next hlt =>
        cases h
        intro b hb hne
        rcases List.mem_cons.mp hb with rfl | hb
        · exact hlt
        · exact ih hm b hb hne
      · next hge =>
        cases h
        have hxm : before nodes x m = true ∨ x = m := by
          rcases eq_or_ne x m with e | e
          · exact .inr e
          · exact .inl ((before_total e).resolve_right hge)
        intro b hb hne
        rcases List.mem_cons.mp hb with rfl | hb
        · exact absurd rfl hne
        · rcases eq_or_ne b m with rfl | hbm
          · exact hxm.resolve_right (fun e => hne e.symm)
          · rcases hxm with hxm | rfl
            · exact before_trans hxm (ih hm b hb hbm)
            · exact ih hm b hb hbm

theorem removeFirst_before {nodes : Vector Node 511} {q r : List Handle} {a : Handle}
    (h : removeFirst nodes q = some (a, r)) : ∀ b ∈ q, b ≠ a → before nodes a b = true := by
  rw [removeFirst] at h
  split at h
  · cases h
  · next m hm => cases h; exact firstOf_before hm

theorem removeFirst_isSome (nodes : Vector Node 511) (q : List Handle) (hq : q ≠ []) :
    ∃ a r, removeFirst nodes q = some (a, r) := by
  obtain ⟨a, h⟩ := firstOf_isSome nodes q hq
  exact ⟨a, q.erase a, by rw [removeFirst, h]⟩

/-! ## Trees whose nodes point downwards -/

/-- Every entry below `n` is a leaf or points to two different smaller handles. -/
def PointsDown (nodes : Vector Node 511) (n : Nat) : Prop :=
  ∀ j, j < n → ∃ nd, nodes[j]? = some nd ∧
    (nd.leaf = true ∨ (nd.leaf = false ∧ nd.left.toNat < j ∧ nd.right.toNat < j ∧ nd.left ≠ nd.right))

/-- In an arena that points downwards every handle carries a tree as deep as the handle at most. -/
theorem PointsDown.handles {nodes : Vector Node 511} {n : Nat} (hp : PointsDown nodes n) (h : Handle) (hh : h.toNat < n) :
    ∃ hs, handlesFrom nodes (h.toNat + 1) h = some hs := by
  generalize hm : h.toNat = m at hh
  induction m using Nat.strongRecOn generalizing h with
  | _ m ih =>
    obtain ⟨nd, hn, hl | ⟨hl, h1, h2, -⟩⟩ := hp m hh
    · exact ⟨[h], by rw [handlesFrom, nodeAt, hm, hn]; simp [hl]⟩
    · obtain ⟨l, el⟩ := ih _ h1 nd.left rfl (by omega)
      obtain ⟨r, er⟩ := ih _ h2 nd.right rfl (by omega)
      have el' : handlesFrom nodes m nd.left = some l := handlesFrom_mono (by omega) el
      have er' : handlesFrom nodes m nd.right = some r := handlesFrom_mono (by omega) er
      exact ⟨h :: (l ++ r), by
        rw [handlesFrom, nodeAt, hm, hn]
        simp [hl, el', er']⟩

/-- Entries at `n` and above do not matter to the trees below `n`. -/
theorem PointsDown.congr {nodes nodes' : Vector Node 511} {n : Nat} (hp : PointsDown nodes n)
    (hag : ∀ j, j < n → nodes'[j]? = nodes[j]?) (d : Nat) (h : Handle) (hh : h.toNat < n) :
    handlesFrom nodes' d h = handlesFrom nodes d h := by
  induction d generalizing h with
  | zero => rfl
  | succ d ih =>
    obtain ⟨nd, hn, hl | ⟨hl, h1, h2, -⟩⟩ := hp _ hh
    · rw [handlesFrom, handlesFrom, nodeAt, nodeAt, hag _ hh, hn]; simp [hl]
    · rw [handlesFrom, handlesFrom, nodeAt, nodeAt, hag _ hh, hn]
      simp [hl, ih nd.left (by omega), ih nd.right (by omega)]

/-- The leaves of a tree are the leaf symbols at its handles. -/
theorem leaves_of_handles {nodes : Vector Node 511} {d : Nat} {h : Handle} {hs : List Handle} {t : Tree}
    (h1 : handlesFrom nodes d h = some hs) (h2 : treeOf nodes d h = some t) :
    t.leaves = hs.filterMap (fun x => (nodeAt nodes x).bind (fun nd => if nd.leaf then some nd.sym else none)) := by
  induction d generalizing h hs t with
  | zero => simp [handlesFrom] at h1
  | succ d ih =>
    rcases handlesFrom_cases h1 with ⟨nd, hn, hl, rfl⟩ | ⟨nd, l, r, hn, hl, a1, a2, rfl⟩
    · rcases treeOf_cases h2 with ⟨nd', hn', -, rfl⟩ | ⟨nd', _, _, hn', hl', _⟩
      · rw [hn] at hn'; cases hn'
        simp [Tree.leaves, hn, hl]
      · rw [hn] at hn'; cases hn'; rw [hl] at hl'; cases hl'
    · rcases treeOf_cases h2 with ⟨nd', hn', hl', _⟩ | ⟨nd', tl, tr, hn', -, b1, b2, rfl⟩
      · rw [hn] at hn'; cases hn'; rw [hl] at hl'; cases hl'
      · rw [hn] at hn'; cases hn'
        simp [Tree.leaves, hn, hl, ih a1 b1, ih a2 b2]

/-! ## The forest -/

/-- What holds of the forest between two turns of the loop of R81, for a map of `k` symbols. -/
structure ForestOk (k : Nat) (f : Forest) : Prop where
  low : k ≤ f.n
  cap : f.n ≤ 511
  count : f.queue.length + f.n = 2 * k
  down : PointsDown f.nodes f.n
  leaf : ∀ (j : Nat) (nd : Node), j < f.n → f.nodes[j]? = some nd → (nd.leaf = true ↔ j < k)
  nil : ∀ (j : Nat) (nd : Node), j < k → f.nodes[j]? = some nd → nd.left = Config.nil ∧ nd.right = Config.nil
  small : ∀ h ∈ f.queue, h.toNat < f.n
  parts : (f.queue.flatMap (fun h => (handlesFrom f.nodes Config.nodeMax h).getD [])).Perm
    ((List.range f.n).map (BitVec.ofNat 9))

/-- The entry a turn of the loop makes, and the two handles it takes out of the queue (R81). -/
theorem mergeOnce_eq {k : Nat} {f : Forest} (hf : ForestOk k f) (hk : k ≤ 256) (hq : 2 ≤ f.queue.length) :
    ∃ (a b : Handle) (q : List Handle), f.queue.Perm (a :: b :: q) ∧ (∀ h ∈ f.queue, h ≠ a → before f.nodes a h = true) ∧
      (∀ h ∈ b :: q, h ≠ b → before f.nodes b h = true) ∧ f.n < 511 ∧ a.toNat < f.n ∧ b.toNat < f.n ∧
      Machine.mergeOnce f = ⟨setNodeAt f.nodes f.n
        (innerNode (BitVec.ofNat 32 (weightAt f.nodes a + weightAt f.nodes b)) a b), f.n + 1,
        q ++ [BitVec.ofNat 9 f.n]⟩ := by
  obtain ⟨a, q1, e1⟩ := removeFirst_isSome f.nodes f.queue (by intro e; simp [e] at hq)
  have p1 := removeFirst_perm e1
  have l1 := p1.length_eq
  rw [List.length_cons] at l1
  obtain ⟨b, q2, e2⟩ := removeFirst_isSome f.nodes q1 (by intro e; simp [e] at l1; omega)
  have p2 := removeFirst_perm e2
  have hc := hf.count
  refine ⟨a, b, q2, p1.trans (p2.cons a), removeFirst_before e1, fun h hh => removeFirst_before e2 h (p2.mem_iff.mpr hh),
    by omega, hf.small a (p1.mem_iff.mpr (by simp)), hf.small b (p1.mem_iff.mpr (by simp [p2.mem_iff])), ?_⟩
  rw [Machine.mergeOnce, e1]; simp only [e2]

theorem ForestOk.mergeOnce {k : Nat} {f : Forest} (hf : ForestOk k f) (hk : k ≤ 256) (hq : 2 ≤ f.queue.length) :
    ForestOk k (Machine.mergeOnce f) ∧ (Machine.mergeOnce f).n = f.n + 1 ∧
      (∀ j, j < f.n → (Machine.mergeOnce f).nodes[j]? = f.nodes[j]?) ∧
      ∃ q, (Machine.mergeOnce f).queue = q ++ [BitVec.ofNat 9 f.n] := by
  obtain ⟨a, b, q2, pq, -, -, hn, ha, hb, hm⟩ := mergeOnce_eq hf hk hq
  have hl := pq.length_eq
  simp only [List.length_cons] at hl
  have hc := hf.count
  have hab : a ≠ b := by
    rintro rfl
    have hnd : ((List.range f.n).map (BitVec.ofNat 9)).Nodup :=
      List.Nodup.map_on (fun x hx y hy e => by
        have := congrArg BitVec.toNat e
        simp only [BitVec.toNat_ofNat, Nat.reducePow] at this
        rw [List.mem_range] at hx hy
        omega) List.nodup_range
    have := hf.parts.nodup_iff.mpr hnd
    rw [(pq.flatMap_right _).nodup_iff] at this
    obtain ⟨hs, eh⟩ := hf.down.handles a ha
    have eh' := handlesFrom_mono (e := Config.nodeMax) (by simp only [Config.nodeMax]; omega) eh
    have hmem : a ∈ hs := by
      rcases handlesFrom_cases eh with ⟨nd, -, -, rfl⟩ | ⟨nd, l, r, -, -, -, -, rfl⟩ <;> simp
    simp only [List.flatMap_cons, eh', Option.getD_some, List.nodup_append] at this
    exact this.2.2 a hmem a (by simp [hmem]) rfl
  have hag : ∀ j, j < f.n → (Machine.mergeOnce f).nodes[j]? = f.nodes[j]? := by
    intro j hj
    rw [hm, setNodeAt_getElem? _ _ _ _ hn, if_neg (by omega)]
  have hnew : (Machine.mergeOnce f).nodes[f.n]? =
      some (innerNode (BitVec.ofNat 32 (weightAt f.nodes a + weightAt f.nodes b)) a b) := by
    rw [hm, setNodeAt_getElem? _ _ _ _ hn, if_pos rfl]
  have hdown : PointsDown (Machine.mergeOnce f).nodes (f.n + 1) := by
    intro j hj
    rcases Nat.lt_or_ge j f.n with h | h
    · rw [hag j h]; exact hf.down j h
    · obtain rfl : j = f.n := by omega
      exact ⟨_, hnew, .inr ⟨rfl, ha, hb, hab⟩⟩
  have hnn : (Machine.mergeOnce f).n = f.n + 1 := by rw [hm]
  have hqq : (Machine.mergeOnce f).queue = q2 ++ [BitVec.ofNat 9 f.n] := by rw [hm]
  refine ⟨⟨?_, ?_, ?_, ?_, ?_, ?_, ?_, ?_⟩, hnn, hag, q2, hqq⟩
  · rw [hnn]; have := hf.low; omega
  · rw [hnn]; omega
  · rw [hnn, hqq]; simp; omega
  · rw [hnn]; exact hdown
  · intro j nd hj hnd
    rw [hnn] at hj
    rcases Nat.lt_or_ge j f.n with h | h
    · exact hf.leaf j nd h (by rw [← hag j h]; exact hnd)
    · obtain rfl : j = f.n := by omega
      rw [hnew] at hnd
      cases hnd
      have := hf.low
      simp [innerNode]
      exact this
  · intro j nd hj hnd
    have := hf.low
    exact hf.nil j nd hj (by rw [← hag j (by omega)]; exact hnd)
  · intro h hh
    rw [hqq] at hh
    rw [hnn]
    rcases List.mem_append.mp hh with hh | hh
    · have := hf.small h (pq.mem_iff.mpr (by simp [hh])); omega
    · simp only [List.mem_singleton] at hh
      subst hh
      simp only [BitVec.toNat_ofNat, Nat.reducePow]
      omega
  · rw [hnn, hqq, List.flatMap_append, List.range_succ, List.map_append]
    have hcongr : q2.flatMap (fun h => (handlesFrom (Machine.mergeOnce f).nodes Config.nodeMax h).getD []) =
        q2.flatMap (fun h => (handlesFrom f.nodes Config.nodeMax h).getD []) := by
      apply List.flatMap_congr
      intro h hh
      rw [hf.down.congr hag _ h (hf.small h (pq.mem_iff.mpr (by simp [hh])))]
    obtain ⟨sa, ea⟩ := hf.down.handles a ha
    obtain ⟨sb, eb⟩ := hf.down.handles b hb
    have ea' : handlesFrom (Machine.mergeOnce f).nodes 510 a = some sa := by
      rw [hf.down.congr hag _ a ha]; exact handlesFrom_mono (by omega) ea
    have eb' : handlesFrom (Machine.mergeOnce f).nodes 510 b = some sb := by
      rw [hf.down.congr hag _ b hb]; exact handlesFrom_mono (by omega) eb
    have en : handlesFrom (Machine.mergeOnce f).nodes Config.nodeMax (BitVec.ofNat 9 f.n) =
        some (BitVec.ofNat 9 f.n :: (sa ++ sb)) := by
      rw [show Config.nodeMax = 510 + 1 from rfl, handlesFrom, nodeAt_ofNat _ _ (by omega), hnew]
      simp [innerNode, ea', eb']
    rw [hcongr]
    simp only [List.flatMap_cons, List.flatMap_nil, en, Option.getD_some, List.append_nil, List.map_cons, List.map_nil]
    have hold := hf.parts
    have hpq := (pq.flatMap_right (fun h => (handlesFrom f.nodes Config.nodeMax h).getD []))
    simp only [List.flatMap_cons, handlesFrom_mono (e := Config.nodeMax) (by simp only [Config.nodeMax]; omega) ea,
      handlesFrom_mono (e := Config.nodeMax) (by simp only [Config.nodeMax]; omega) eb, Option.getD_some] at hpq
    have h3 := hpq.symm.trans hold
    refine List.Perm.trans ?_ (h3.append_right [BitVec.ofNat 9 f.n])
    rw [List.perm_iff_count]
    intro x
    simp only [List.count_append, List.count_cons, List.count_nil]
    omega

/-- Turns of the loop of R81 keep the forest; each adds a node and shortens the queue by one. -/
theorem ForestOk.mergeTimes {k : Nat} (hk : k ≤ 256) (m : Nat) {f : Forest} (hf : ForestOk k f) (hm : m < f.queue.length) :
    ForestOk k (Machine.mergeTimes m f) ∧ (Machine.mergeTimes m f).n = f.n + m := by
  induction m generalizing f with
  | zero => exact ⟨hf, rfl⟩
  | succ m ih =>
    obtain ⟨h1, h2, -, -⟩ := hf.mergeOnce hk (by omega)
    have hc := hf.count
    have hc' := h1.count
    obtain ⟨h3, h4⟩ := ih h1 (by omega)
    exact ⟨h3, by rw [Machine.mergeTimes, h4, h2]; omega⟩

/-- Turns of the loop leave the entries made before alone. -/
theorem ForestOk.mergeTimes_getElem? {k : Nat} (hk : k ≤ 256) (m : Nat) {f : Forest} (hf : ForestOk k f)
    (hm : m < f.queue.length) (j : Nat) (hj : j < f.n) : (Machine.mergeTimes m f).nodes[j]? = f.nodes[j]? := by
  induction m generalizing f with
  | zero => rfl
  | succ m ih =>
    obtain ⟨h1, h2, h3, -⟩ := hf.mergeOnce hk (by omega)
    have hc := hf.count
    have hc' := h1.count
    rw [Machine.mergeTimes, ih h1 (by omega) (by omega), h3 j hj]

/-- The node made last stays at the end of the queue. -/
theorem ForestOk.mergeTimes_last {k : Nat} (hk : k ≤ 256) (m : Nat) {f : Forest} (hf : ForestOk k f)
    (hm : m < f.queue.length) (hlast : ∃ q, f.queue = q ++ [BitVec.ofNat 9 (f.n - 1)]) :
    ∃ q, (Machine.mergeTimes m f).queue = q ++ [BitVec.ofNat 9 ((Machine.mergeTimes m f).n - 1)] := by
  induction m generalizing f with
  | zero => exact hlast
  | succ m ih =>
    obtain ⟨h1, h2, -, q, h4⟩ := hf.mergeOnce hk (by omega)
    have hc := hf.count
    have hc' := h1.count
    exact ih h1 (by omega) ⟨q, by rw [h4, h2]; rfl⟩

/-! ## What the loop merges -/

theorem PendingAt.congr {nodes nodes' : Vector Node 511} {k j : Nat} {h : Handle}
    (hag : ∀ i, i < j → nodes'[i]? = nodes[i]?) : PendingAt nodes' k j h ↔ PendingAt nodes k j h := by
  constructor <;> exact fun hp => ⟨hp.1, fun i nd h1 h2 h3 => hp.2 i nd h1 h2 (by rw [← h3, hag i h2])⟩

theorem before_congr {nodes nodes' : Vector Node 511} {j : Nat} {a b : Handle} (hag : ∀ i, i < j → nodes'[i]? = nodes[i]?)
    (ha : a.toNat < j) (hb : b.toNat < j) : before nodes' a b = before nodes a b := by
  have h1 : weightAt nodes' a = weightAt nodes a := by rw [weightAt, weightAt, nodeAt, nodeAt, hag _ ha]
  have h2 : weightAt nodes' b = weightAt nodes b := by rw [weightAt, weightAt, nodeAt, nodeAt, hag _ hb]
  rw [before, before, h1, h2]

/-- What R81 says of the internal node at `j`: it merges the two first of the handles that wait, the first on the left. -/
def MergedAt (nodes : Vector Node 511) (k j : Nat) : Prop :=
  ∃ nd, nodes[j]? = some nd ∧ nd.leaf = false ∧ nd.sym = 0 ∧ nd.left ≠ nd.right ∧ PendingAt nodes k j nd.left ∧
    PendingAt nodes k j nd.right ∧ ∀ h : Handle, PendingAt nodes k j h →
      (h ≠ nd.left → before nodes nd.left h = true) ∧ (h ≠ nd.left → h ≠ nd.right → before nodes nd.right h = true)

theorem MergedAt.congr {nodes nodes' : Vector Node 511} {k j : Nat} (hag : ∀ i, i < j + 1 → nodes'[i]? = nodes[i]?)
    (hm : MergedAt nodes k j) : MergedAt nodes' k j := by
  have hag' : ∀ i, i < j → nodes'[i]? = nodes[i]? := fun i hi => hag i (by omega)
  obtain ⟨nd, h1, h2, h3, h4, h5, h6, h7⟩ := hm
  refine ⟨nd, by rw [hag j (by omega), h1], h2, h3, h4, (PendingAt.congr hag').mpr h5, (PendingAt.congr hag').mpr h6,
    fun h hh => ?_⟩
  have hh' := (PendingAt.congr hag').mp hh
  rw [before_congr hag' h5.1 hh.1, before_congr hag' h6.1 hh.1]
  exact h7 h hh'

/-- Between two turns: the queue is the set of the handles that wait, and every internal node made is a merge of R81. -/
structure MergeLog (k : Nat) (f : Forest) : Prop where
  nodup : f.queue.Nodup
  pending : ∀ h, h ∈ f.queue ↔ PendingAt f.nodes k f.n h
  merged : ∀ j, k ≤ j → j < f.n → MergedAt f.nodes k j

theorem MergeLog.mergeOnce {k : Nat} {f : Forest} (hf : ForestOk k f) (hl : MergeLog k f) (hk : k ≤ 256)
    (hq : 2 ≤ f.queue.length) : MergeLog k (Machine.mergeOnce f) := by
  obtain ⟨hf', hn', hag, -⟩ := hf.mergeOnce hk hq
  obtain ⟨a, b, q, pq, ba, bb, hn, ha, hb, hm⟩ := mergeOnce_eq hf hk hq
  have hnd := pq.nodup_iff.mp hl.nodup
  simp only [List.nodup_cons, List.mem_cons, not_or] at hnd
  obtain ⟨⟨hab, haq⟩, hbq, hqn⟩ := hnd
  have hqq : (Machine.mergeOnce f).queue = q ++ [BitVec.ofNat 9 f.n] := by rw [hm]
  have hnew : (Machine.mergeOnce f).nodes[f.n]? =
      some (innerNode (BitVec.ofNat 32 (weightAt f.nodes a + weightAt f.nodes b)) a b) := by
    rw [hm, setNodeAt_getElem? _ _ _ _ hn, if_pos rfl]
  have hnn : (BitVec.ofNat 9 f.n).toNat = f.n := by simp only [BitVec.toNat_ofNat, Nat.reducePow]; omega
  have hmem : ∀ h, h ∈ f.queue ↔ h = a ∨ h = b ∨ h ∈ q := fun h => by rw [pq.mem_iff]; simp
  refine ⟨?_, fun h => ?_, fun j h1 h2 => ?_⟩
  · rw [hqq, List.nodup_append]
    refine ⟨hqn, by simp, fun x hx y hy e => ?_⟩
    have := hf.small x ((hmem x).mpr (.inr (.inr hx)))
    rw [List.mem_singleton] at hy
    rw [e, hy, hnn] at this
    omega
  · rw [hqq, hn', List.mem_append, List.mem_singleton]
    constructor
    · rintro (hh | rfl)
      · have hp := (hl.pending h).mp ((hmem h).mpr (.inr (.inr hh)))
        refine ⟨by have := hp.1; omega, fun i nd h1 h2 h3 => ?_⟩
        rcases Nat.lt_or_ge i f.n with h4 | h4
        · exact hp.2 i nd h1 h4 (by rw [← hag i h4, h3])
        · obtain rfl : i = f.n := by omega
          rw [hnew] at h3
          cases h3
          exact ⟨fun e => haq (by have : a = h := e; rwa [this]), fun e => hbq (by have : b = h := e; rwa [this])⟩
      · refine ⟨by omega, fun i nd h1 h2 h3 => ?_⟩
        obtain ⟨nd', h4, h5⟩ := hf'.down i (by omega)
        rw [h3] at h4
        cases h4
        have hlf := hf'.leaf i nd (by omega) h3
        rcases h5 with h5 | ⟨-, h5, h6, -⟩
        · exact absurd (hlf.mp h5) (by omega)
        · exact ⟨fun e => by rw [e, hnn] at h5; omega, fun e => by rw [e, hnn] at h6; omega⟩
    · intro hp
      rcases Nat.lt_or_ge h.toNat f.n with h4 | h4
      · have h5 := (hl.pending h).mpr ⟨h4, fun i nd h1 h2 h3 => hp.2 i nd h1 (by omega) (by rw [hag i h2, h3])⟩
        have h6 := hp.2 f.n _ hf.low (by omega) hnew
        rcases (hmem h).mp h5 with rfl | rfl | h7
        · exact absurd rfl h6.1
        · exact absurd rfl h6.2
        · exact .inl h7
      · right
        apply BitVec.eq_of_toNat_eq
        rw [hnn]
        have := hp.1
        omega
  · rw [hn'] at h2
    rcases Nat.lt_or_ge j f.n with h4 | h4
    · exact (hl.merged j h1 h4).congr (fun i hi => hag i (by omega))
    · obtain rfl : j = f.n := by omega
      have hpc : ∀ h, PendingAt (Machine.mergeOnce f).nodes k f.n h ↔ h ∈ f.queue := fun h => by
        rw [PendingAt.congr hag, hl.pending]
      refine ⟨_, hnew, rfl, rfl, hab, (hpc a).mpr ((hmem a).mpr (.inl rfl)),
        (hpc b).mpr ((hmem b).mpr (.inr (.inl rfl))), fun h hh => ?_⟩
      have hh' := (hpc h).mp hh
      simp only [innerNode]
      rw [before_congr hag ha hh.1, before_congr hag hb hh.1]
      refine ⟨ba h hh', fun h5 h6 => bb h ?_ h6⟩
      rw [List.mem_cons]
      exact ((hmem h).mp hh').resolve_left h5

/-- Turns of the loop keep both invariants. -/
theorem MergeLog.mergeTimes {k : Nat} (hk : k ≤ 256) (m : Nat) {f : Forest} (hf : ForestOk k f) (hl : MergeLog k f)
    (hm : m < f.queue.length) : MergeLog k (Machine.mergeTimes m f) := by
  induction m generalizing f with
  | zero => exact hl
  | succ m ih =>
    obtain ⟨h1, -, -, -⟩ := hf.mergeOnce hk (by omega)
    have hc := hf.count
    have hc' := h1.count
    have hn := (hf.mergeOnce hk (by omega)).2.1
    exact ih h1 (hl.mergeOnce hf hk (by omega)) (by omega)

/-! ## The seed -/

theorem seedLeaves_below (freq : Vector Word 256) (l : List Symbol) (n : Nat) (nodes : Vector Node 511)
    (hn : n + l.length ≤ 511) (j : Nat) (hj : j < n) : (seedLeaves freq l n nodes)[j]? = nodes[j]? := by
  induction l generalizing n nodes with
  | nil => rfl
  | cons s rest ih =>
    rw [List.length_cons] at hn
    rw [seedLeaves, ih (n + 1) _ (by omega) (by omega), setNodeAt_getElem? _ _ _ _ (by omega), if_neg (by omega)]

theorem seedLeaves_getElem? (freq : Vector Word 256) (l : List Symbol) (n : Nat) (nodes : Vector Node 511)
    (hn : n + l.length ≤ 511) (i : Nat) (hi : i < l.length) :
    (seedLeaves freq l n nodes)[n + i]? = some (leafNode l[i] (freqAt freq l[i])) := by
  induction l generalizing n nodes i with
  | nil => simp at hi
  | cons s rest ih =>
    rw [List.length_cons] at hn hi
    rw [seedLeaves]
    cases i with
    | zero =>
      rw [seedLeaves_below _ _ _ _ (by omega) _ (by omega), setNodeAt_getElem? _ _ _ _ (by omega), if_pos (by omega)]
      rfl
    | succ i => rw [show n + (i + 1) = n + 1 + i by omega, ih _ _ (by omega) _ (by omega)]; rfl

theorem presentSymbols_length (freq : Vector Word 256) : (presentSymbols freq).length ≤ 256 := by
  refine le_trans (List.length_filter_le _ _) ?_
  simp [Config.allSymbols]

/-- The leaves of the seed (R81). -/
theorem seedForest_leaf (freq : Vector Word 256) (nodes : Vector Node 511) (j : Nat) (h : j < (presentSymbols freq).length) :
    (seedForest freq nodes).nodes[j]? =
      some (leafNode (presentSymbols freq)[j] (freqAt freq (presentSymbols freq)[j])) := by
  have := presentSymbols_length freq
  have h1 := seedLeaves_getElem? freq (presentSymbols freq) 0 nodes (by omega) j h
  rwa [Nat.zero_add] at h1

theorem ForestOk.seed (freq : Vector Word 256) (nodes : Vector Node 511) :
    ForestOk (presentSymbols freq).length (seedForest freq nodes) := by
  have hk := presentSymbols_length freq
  have hn : (seedForest freq nodes).n = (presentSymbols freq).length := rfl
  have hq : (seedForest freq nodes).queue = (List.range (presentSymbols freq).length).map (BitVec.ofNat 9) := rfl
  have small : ∀ h ∈ (seedForest freq nodes).queue, h.toNat < (presentSymbols freq).length := by
    intro h hh
    rw [hq] at hh
    obtain ⟨i, hi, rfl⟩ := List.mem_map.mp hh
    rw [List.mem_range] at hi
    simp only [BitVec.toNat_ofNat, Nat.reducePow]
    omega
  refine ⟨by rw [hn], by rw [hn]; omega, ?_, ?_, ?_, ?_, by rw [hn]; exact small, ?_⟩
  · rw [hq, hn]; simp; omega
  · intro j hj
    exact ⟨_, seedForest_leaf freq nodes j hj, .inl rfl⟩
  · intro j nd hj he
    rw [seedForest_leaf freq nodes j hj] at he
    cases he
    exact ⟨fun _ => hj, fun _ => rfl⟩
  · intro j nd hj he
    rw [seedForest_leaf freq nodes j hj] at he
    cases he
    exact ⟨rfl, rfl⟩
  · have : (seedForest freq nodes).queue.flatMap
        (fun h => (handlesFrom (seedForest freq nodes).nodes Config.nodeMax h).getD []) =
        (seedForest freq nodes).queue.flatMap (fun h => [h]) := by
      apply List.flatMap_congr
      intro h hh
      rw [show Config.nodeMax = 510 + 1 from rfl, handlesFrom, nodeAt, seedForest_leaf freq nodes _ (small h hh)]
      simp [leafNode]
    rw [this, hn, hq, List.flatMap_singleton']

theorem MergeLog.seed (freq : Vector Word 256) (nodes : Vector Node 511) :
    MergeLog (presentSymbols freq).length (seedForest freq nodes) := by
  have hk := presentSymbols_length freq
  refine ⟨?_, fun h => ?_, fun j h1 h2 => ?_⟩
  · refine List.Nodup.map_on (fun x hx y hy e => ?_) List.nodup_range
    have := congrArg BitVec.toNat e
    simp only [BitVec.toNat_ofNat, Nat.reducePow] at this
    rw [List.mem_range] at hx hy
    omega
  · constructor
    · exact fun hh => ⟨(ForestOk.seed freq nodes).small h hh, fun i nd h1 h2 => absurd h2 (by
        have : (seedForest freq nodes).n = (presentSymbols freq).length := rfl
        omega)⟩
    · intro hp
      exact List.mem_map.mpr ⟨h.toNat, List.mem_range.mpr hp.1, by simp⟩
  · have : (seedForest freq nodes).n = (presentSymbols freq).length := rfl
    omega

/-- What `BUILD` ends with (R81): a forest of one tree, `2k - 1` nodes, each internal one a merge of the two first. -/
theorem buildForest_ok (freq : Vector Word 256) (nodes : Vector Node 511) (h : presentSymbols freq ≠ []) :
    ForestOk (presentSymbols freq).length (buildForest freq nodes) ∧
    MergeLog (presentSymbols freq).length (buildForest freq nodes) ∧
    (buildForest freq nodes).n = 2 * (presentSymbols freq).length - 1 := by
  have hk := presentSymbols_length freq
  have h0 := List.length_pos_iff.mpr h
  have hq : (presentSymbols freq).length - 1 < (seedForest freq nodes).queue.length := by
    simp only [seedForest, List.length_map, List.length_range]
    omega
  obtain ⟨h1, h2⟩ := (ForestOk.seed freq nodes).mergeTimes hk _ hq
  exact ⟨h1, (MergeLog.seed freq nodes).mergeTimes hk _ (ForestOk.seed freq nodes) hq, by
    rw [buildForest, h2]
    change (presentSymbols freq).length + _ = _
    omega⟩

end Sys2Proof.Machine
end

