-- ==== Sys2Proof/Laws/Payload.lean ====
section
/-! SUPPORT. The payload codec: what the loops of `ENCODE`, `DECN`, `DECL` and the walk step do on whole codewords. -/

namespace Sys2Proof.Machine

/-! ## The payload codec -/

theorem encodeSymbols_valid (input : List Symbol) (s : State) (h : ∀ v ∈ input, (codeAt s.codes v).valid = true) :
    encodeSymbols input s = .ok () (wrote (payloadOf s.codes input) s) := by
  induction input generalizing s with
  | nil => simp [encodeSymbols, payloadOf]
  | cons v rest ih =>
    rw [encodeSymbols, if_pos (h v (by simp)), writeBits_eq_wrote,
      ih _ (fun u hu => by simpa using h u (by simp [hu])), wrote_wrote]
    simp [payloadOf]

theorem encodeSymbols_unknown (pre post : List Symbol) (v : Symbol) (s : State)
    (h : ∀ u ∈ pre, (codeAt s.codes u).valid = true) (hv : (codeAt s.codes v).valid = false) :
    encodeSymbols (pre ++ v :: post) s =
      .raised (raise 0x30 .unknownSymbol (v.zeroExtend 32) (wrote (payloadOf s.codes pre) s)) := by
  induction pre generalizing s with
  | nil => simp [encodeSymbols, hv, payloadOf, opcodeOf]
  | cons u pre ih =>
    rw [List.cons_append, encodeSymbols, if_pos (h u (by simp)), writeBits_eq_wrote,
      ih _ (fun w hw => by simpa using h w (by simp [hw])) (by simpa using hv), wrote_wrote]
    simp [payloadOf]

/-- A step of the walk in a tree of two or more leaves goes to a child: to a leaf, which is emitted, or further down. -/
theorem walkStep_inner {nodes : Vector Node 511} {root cur : Handle} {top nd : Node} {d : Nat} {l r : Tree}
    (ht : nodeAt nodes root = some top) (htl : top.leaf = false) (hn : nodeAt nodes cur = some nd)
    (hl : treeOf nodes d nd.left = some l) (hr : treeOf nodes d nd.right = some r) (b : Bit) :
    walkStep nodes root cur b =
      .ok (match (if b then r else l) with
        | .leaf v => ⟨root, some v⟩
        | .inner _ _ => ⟨if b then nd.right else nd.left, none⟩) := by
  have key : ∀ (c : Handle) (t : Tree), treeOf nodes d c = some t →
      ∃ cn, nodeAt nodes c = some cn ∧ ((cn.leaf = true ∧ t = .leaf cn.sym) ∨
        (cn.leaf = false ∧ ∃ a b, t = .inner a b)) := by
    intro c t hc
    cases d with
    | zero => simp [treeOf] at hc
    | succ d =>
      rcases treeOf_cases hc with ⟨cn, h1, h2, h3⟩ | ⟨cn, a, b, h1, h2, -, -, h3⟩
      · exact ⟨cn, h1, .inl ⟨h2, h3⟩⟩
      · exact ⟨cn, h1, .inr ⟨h2, a, b, h3⟩⟩
  cases b
  · obtain ⟨cn, h1, ⟨h2, h3⟩ | ⟨h2, a, b, h3⟩⟩ := key _ _ hl <;> simp [walkStep, ht, htl, hn, h1, h2, h3]
  · obtain ⟨cn, h1, ⟨h2, h3⟩ | ⟨h2, a, b, h3⟩⟩ := key _ _ hr <;> simp [walkStep, ht, htl, hn, h1, h2, h3]

/-- What `declLoop` and `decnLoop` meet at a handle that carries an internal node. -/
theorem treeOf_inner {nodes : Vector Node 511} {d : Nat} {h : Handle} {l r : Tree}
    (ht : treeOf nodes d h = some (.inner l r)) :
    ∃ nd e, nodeAt nodes h = some nd ∧ nd.leaf = false ∧ treeOf nodes e nd.left = some l ∧
      treeOf nodes e nd.right = some r := by
  cases d with
  | zero => simp [treeOf] at ht
  | succ d =>
    rcases treeOf_cases ht with ⟨nd, -, -, h3⟩ | ⟨nd, a, b, h1, h2, ha, hb, h3⟩
    · cases h3
    · cases h3; exact ⟨nd, d, h1, h2, ha, hb⟩

theorem declLoop_word {root cur : Handle} {top : Node} {d : Nat} {t : Tree} {l r : Tree} {p : List Bit} {v : Symbol}
    {s : State} (n : Nat) (ht : nodeAt s.nodes root = some top) (htl : top.leaf = false)
    (hc : treeOf s.nodes d cur = some t) (hti : t = .inner l r) (hp : t.leafAt p = some v) (hb : BinHolds s p) :
    declLoop root (p.length + n) cur s = declLoop root n root (emittedAll [v] (advanced p.length s)) := by
  induction p generalizing cur t l r d s with
  | nil => subst hti; simp [Tree.leafAt] at hp
  | cons b p ih =>
    subst hti
    obtain ⟨nd, e, hn, -, hl, hr⟩ := treeOf_inner hc
    obtain ⟨h1, h2⟩ := hb.readBit
    rw [List.length_cons, show p.length + 1 + n = (p.length + n) + 1 by omega, declLoop, h1]
    simp only [advanced_nodes]
    rw [walkStep_inner ht htl hn hl hr b]
    have hchild : treeOf s.nodes e (if b then nd.right else nd.left) = some (if b then r else l) := by
      cases b <;> simpa
    rw [Tree.leafAt] at hp
    have hp' : (if b then r else l).leafAt p = some v := by cases b <;> simpa using hp
    rcases hch : (if b then r else l) with w | ⟨a, c⟩
    · rw [hch] at hp'
      cases p with
      | nil =>
        simp only [Tree.leafAt, Option.some.injEq] at hp'
        subst hp'
        simp [emit, symWrite_eq]
      | cons b' p => simp [Tree.leafAt] at hp'
    · rw [hch] at hchild hp'
      simp only [emit]
      rw [ih (s := advanced 1 s) (by simpa using ht) (by simpa using hchild) rfl hp' h2, advanced_advanced, Nat.add_comm 1]

theorem decnLoop_word {root cur : Handle} {top : Node} {d : Nat} {t : Tree} {l r : Tree} {p : List Bit} {v : Symbol}
    {s : State} (n owed : Nat) (ht : nodeAt s.nodes root = some top) (htl : top.leaf = false)
    (hc : treeOf s.nodes d cur = some t) (hti : t = .inner l r) (hp : t.leafAt p = some v) (hb : BinHolds s p) :
    decnLoop root (p.length + n) cur (owed + 1) s = decnLoop root n root owed (emittedAll [v] (advanced p.length s)) := by
  induction p generalizing cur t l r d s with
  | nil => subst hti; simp [Tree.leafAt] at hp
  | cons b p ih =>
    subst hti
    obtain ⟨nd, e, hn, -, hl, hr⟩ := treeOf_inner hc
    obtain ⟨h1, h2⟩ := hb.readBit
    rw [List.length_cons, show p.length + 1 + n = (p.length + n) + 1 by omega, decnLoop, if_neg (by omega), h1]
    simp only [advanced_nodes]
    rw [walkStep_inner ht htl hn hl hr b]
    have hchild : treeOf s.nodes e (if b then nd.right else nd.left) = some (if b then r else l) := by
      cases b <;> simpa
    rw [Tree.leafAt] at hp
    have hp' : (if b then r else l).leafAt p = some v := by cases b <;> simpa using hp
    rcases hch : (if b then r else l) with w | ⟨a, c⟩
    · rw [hch] at hp'
      cases p with
      | nil =>
        simp only [Tree.leafAt, Option.some.injEq] at hp'
        subst hp'
        simp [emit, symWrite_eq]
      | cons b' p => simp [Tree.leafAt] at hp'
    · rw [hch] at hchild hp'
      simp only [emit, Option.isSome_none, Bool.false_eq_true, if_false]
      rw [ih (s := advanced 1 s) (by simpa using ht) (by simpa using hchild) rfl hp' h2, advanced_advanced, Nat.add_comm 1]

theorem treeOf_unique {nodes : Vector Node 511} {d e : Nat} {h : Handle} {t u : Tree} (ht : treeOf nodes d h = some t)
    (hu : treeOf nodes e h = some u) : t = u := by
  have h1 := treeOf_mono (Nat.le_max_left d e) ht
  have h2 := treeOf_mono (Nat.le_max_right d e) hu
  rw [h1] at h2
  exact Option.some.inj h2

/-- A walk along a path to an internal node emits nothing and stops below where it started. -/
theorem declLoop_part {root cur : Handle} {top : Node} {d : Nat} {t : Tree} {q : List Bit} {s : State} (n : Nat)
    (ht : nodeAt s.nodes root = some top) (htl : top.leaf = false) (hc : treeOf s.nodes d cur = some t)
    (hq : t.innerAt q = true) (hb : BinHolds s q) :
    ∃ cur' e t', treeOf s.nodes e cur' = some t' ∧ t'.header.length + q.length ≤ t.header.length ∧
      declLoop root (q.length + n) cur s = declLoop root n cur' (advanced q.length s) := by
  induction q generalizing cur t d s with
  | nil => exact ⟨cur, d, t, hc, by simp, by simp⟩
  | cons b q ih =>
    cases t with
    | leaf v => simp [Tree.innerAt] at hq
    | inner l r =>
      obtain ⟨nd, e, hn, -, hl, hr⟩ := treeOf_inner hc
      obtain ⟨h1, h2⟩ := hb.readBit
      have hchild : treeOf s.nodes e (if b then nd.right else nd.left) = some (if b then r else l) := by
        cases b <;> simpa
      have hq' : (if b then r else l).innerAt q = true := by
        rw [Tree.innerAt] at hq; cases b <;> simpa using hq
      have hle : (if b then r else l).header.length + 1 ≤ (Tree.inner l r).header.length := by
        cases b <;> simp [Tree.header]
      rcases hch : (if b then r else l) with w | ⟨a, c⟩
      · rw [hch] at hq'; simp [Tree.innerAt] at hq'
      · rw [hch] at hchild hq' hle
        obtain ⟨cur', e', t', g1, g2, g3⟩ := ih (s := advanced 1 s) (by simpa using ht) (by simpa using hchild) hq' h2
        refine ⟨cur', e', t', by simpa using g1, by simp only [List.length_cons]; omega, ?_⟩
        rw [List.length_cons, show q.length + 1 + n = (q.length + n) + 1 by omega, declLoop, h1]
        simp only [advanced_nodes]
        rw [walkStep_inner ht htl hn hl hr b, hch]
        simp only [emit]
        rw [g3, advanced_advanced, Nat.add_comm 1]

theorem decnLoop_part {root cur : Handle} {top : Node} {d : Nat} {t : Tree} {q : List Bit} {s : State} (n owed : Nat)
    (ho : owed ≠ 0)
    (ht : nodeAt s.nodes root = some top) (htl : top.leaf = false) (hc : treeOf s.nodes d cur = some t)
    (hq : t.innerAt q = true) (hb : BinHolds s q) :
    ∃ cur' e t', treeOf s.nodes e cur' = some t' ∧ t'.header.length + q.length ≤ t.header.length ∧
      decnLoop root (q.length + n) cur owed s = decnLoop root n cur' owed (advanced q.length s) := by
  induction q generalizing cur t d s with
  | nil => exact ⟨cur, d, t, hc, by simp, by simp⟩
  | cons b q ih =>
    cases t with
    | leaf v => simp [Tree.innerAt] at hq
    | inner l r =>
      obtain ⟨nd, e, hn, -, hl, hr⟩ := treeOf_inner hc
      obtain ⟨h1, h2⟩ := hb.readBit
      have hchild : treeOf s.nodes e (if b then nd.right else nd.left) = some (if b then r else l) := by
        cases b <;> simpa
      have hq' : (if b then r else l).innerAt q = true := by
        rw [Tree.innerAt] at hq; cases b <;> simpa using hq
      have hle : (if b then r else l).header.length + 1 ≤ (Tree.inner l r).header.length := by
        cases b <;> simp [Tree.header]
      rcases hch : (if b then r else l) with w | ⟨a, c⟩
      · rw [hch] at hq'; simp [Tree.innerAt] at hq'
      · rw [hch] at hchild hq' hle
        obtain ⟨cur', e', t', g1, g2, g3⟩ := ih (s := advanced 1 s) (by simpa using ht) (by simpa using hchild) hq' h2
        refine ⟨cur', e', t', by simpa using g1, by simp only [List.length_cons]; omega, ?_⟩
        rw [List.length_cons, show q.length + 1 + n = (q.length + n) + 1 by omega, decnLoop, if_neg ho, h1]
        simp only [advanced_nodes]
        rw [walkStep_inner ht htl hn hl hr b, hch]
        simp only [emit, Option.isSome_none, Bool.false_eq_true, if_false]
        rw [g3, advanced_advanced, Nat.add_comm 1]

/-- `DECL` over a sequence of codewords. -/
theorem declLoop_words {root : Handle} {t : Tree} (words : List (Symbol × List Bit)) {s : State} (n : Nat) {d : Nat}
    (hr : treeOf s.nodes d root = some t) (hw : ∀ w ∈ words, t.Codeword w.1 w.2)
    (hb : BinHolds s (words.map Prod.snd).flatten) :
    declLoop root ((words.map Prod.snd).flatten.length + n) root s =
      declLoop root n root
        (emittedAll (words.map Prod.fst) (advanced (words.map Prod.snd).flatten.length s)) := by
  induction words generalizing s with
  | nil => simp
  | cons w words ih =>
    obtain ⟨v, p⟩ := w
    simp only [List.map_cons, List.flatten_cons] at hb ⊢
    obtain ⟨hb1, hb2⟩ := BinHolds.append.mp hb
    have hcw : t.Codeword v p := hw (v, p) (by simp)
    have hstep : ∀ m, declLoop root (p.length + m) root s = declLoop root m root (emittedAll [v] (advanced p.length s)) := by
      intro m
      cases t with
      | leaf u =>
        obtain ⟨rfl, hp⟩ := hcw
        obtain ⟨b, rfl⟩ := List.length_eq_one_iff.mp hp
        cases d with
        | zero => simp [treeOf] at hr
        | succ d =>
          rcases treeOf_cases hr with ⟨nd, h1, h2, h3⟩ | ⟨nd, _, _, _, _, _, _, h3⟩
          · cases h3
            rw [show [b].length + m = m + 1 by simp [Nat.add_comm], declLoop, hb1.readBit.1]
            simp [walkStep, h1, h2, emit, symWrite_eq]
          · cases h3
      | inner l r =>
        obtain ⟨nd, e, h1, h2, -, -⟩ := treeOf_inner hr
        exact declLoop_word m h1 h2 hr rfl hcw hb1
    rw [List.length_append, Nat.add_assoc, hstep,
      ih (s := emittedAll [v] (advanced p.length s)) (by simpa using hr) (fun w h => hw w (by simp [h]))
        (by simpa [BinHolds] using hb2),
      advanced_emittedAll, advanced_advanced, emittedAll_emittedAll]
    simp

theorem decnLoop_words {root : Handle} {t : Tree} (words : List (Symbol × List Bit)) {s : State} (n owed : Nat) {d : Nat}
    (hr : treeOf s.nodes d root = some t) (hw : ∀ w ∈ words, t.Codeword w.1 w.2)
    (hb : BinHolds s (words.map Prod.snd).flatten) :
    decnLoop root ((words.map Prod.snd).flatten.length + n) root (words.length + owed) s =
      decnLoop root n root owed
        (emittedAll (words.map Prod.fst) (advanced (words.map Prod.snd).flatten.length s)) := by
  induction words generalizing s with
  | nil => simp
  | cons w words ih =>
    obtain ⟨v, p⟩ := w
    simp only [List.map_cons, List.flatten_cons] at hb ⊢
    obtain ⟨hb1, hb2⟩ := BinHolds.append.mp hb
    have hcw : t.Codeword v p := hw (v, p) (by simp)
    have hstep : ∀ m o, decnLoop root (p.length + m) root (o + 1) s =
        decnLoop root m root o (emittedAll [v] (advanced p.length s)) := by
      intro m o
      cases t with
      | leaf u =>
        obtain ⟨rfl, hp⟩ := hcw
        obtain ⟨b, rfl⟩ := List.length_eq_one_iff.mp hp
        cases d with
        | zero => simp [treeOf] at hr
        | succ d =>
          rcases treeOf_cases hr with ⟨nd, h1, h2, h3⟩ | ⟨nd, _, _, _, _, _, _, h3⟩
          · cases h3
            rw [show [b].length + m = m + 1 by simp [Nat.add_comm], decnLoop, if_neg (by omega), hb1.readBit.1]
            simp [walkStep, h1, h2, emit, symWrite_eq]
          · cases h3
      | inner l r =>
        obtain ⟨nd, e, h1, h2, -, -⟩ := treeOf_inner hr
        exact decnLoop_word m o h1 h2 hr rfl hcw hb1
    rw [List.length_append, Nat.add_assoc, List.length_cons,
      show words.length + 1 + owed = (words.length + owed) + 1 by omega, hstep,
      ih (s := emittedAll [v] (advanced p.length s)) (by simpa using hr) (fun w h => hw w (by simp [h]))
        (by simpa [BinHolds] using hb2),
      advanced_emittedAll, advanced_advanced, emittedAll_emittedAll]
    simp

end Sys2Proof.Machine
end

