-- ==== Sys2Proof/Laws/PerInstr.lean ====
section
/-! SUPPORT. The statements made per command: what its command word is made of (R60, R61). -/

/-- The command word of a command: zeros in bits 31:8, its opcode in bits 7:0, and that opcode in the opcode map (R60, R61). -/
def Sys2Proof.Laws.OpcodeWord.Statement (i : Sys2Proof.Instr) : Prop :=
  Sys2Proof.zeroField (Sys2Proof.encode i) = 0 ∧ Sys2Proof.opcField (Sys2Proof.encode i) = Sys2Proof.opcodeOf i ∧
    (Sys2Proof.opcodeOf i, i) ∈ Sys2Proof.opcodeMap

namespace Sys2Proof.Laws.OpcodeWord

theorem nop : Statement .nop := by unfold Statement; decide
theorem rst : Statement .rst := by unfold Statement; decide
theorem count : Statement .count := by unfold Statement; decide
theorem build : Statement .build := by unfold Statement; decide
theorem gencodes : Statement .gencodes := by unfold Statement; decide
theorem calclen : Statement .calclen := by unfold Statement; decide
theorem sttree : Statement .sttree := by unfold Statement; decide
theorem ldtree : Statement .ldtree := by unfold Statement; decide
theorem ldtreeb : Statement .ldtreeb := by unfold Statement; decide
theorem encode : Statement .encode := by unfold Statement; decide
theorem decn : Statement .decn := by unfold Statement; decide
theorem decl : Statement .decl := by unfold Statement; decide
theorem wrmark : Statement .wrmark := by unfold Statement; decide
theorem rdmark : Statement .rdmark := by unfold Statement; decide
theorem wrhlen : Statement .wrhlen := by unfold Statement; decide
theorem rdhlen : Statement .rdhlen := by unfold Statement; decide
theorem wrplen : Statement .wrplen := by unfold Statement; decide
theorem rdplen : Statement .rdplen := by unfold Statement; decide
theorem pad : Statement .pad := by unfold Statement; decide

end Sys2Proof.Laws.OpcodeWord
end

