-- ==== Sys2Proof/Tests/Slice0.lean ====
section
/-! SUPPORT. The model's own tests: words of the opcode map, ill-formed terms, vectors of spec/95_test_vectors.md on one step
each, and for each statement with hypotheses a state that meets them. -/

set_option Elab.async false

namespace Sys2Proof.Tests

open Sys2Proof.Machine

/-! ## Helpers -/

/-- Does an outcome go on, in a state with a property? -/
def holds (o : Outcome) (P : State → Bool) : Bool :=
  match o with
  | .next t => P t
  | .fault _ => false
  | .refused _ => false

theorem holds_iff (o : Outcome) (P : State → Bool) : holds o P = true ↔ ∃ t, o = .next t ∧ P t = true := by
  cases o <;> simp [holds]

/-- A state with plain zeros in the tables. -/
def blank : State :=
  { State.reset with
    freq := Vector.replicate 256 0
    nodes := Vector.replicate 511 (leafNode 0 0)
    codes := noCodes }

def withSin (xs : List Symbol) (s : State) : State := { s with sin := ⟨xs, 0⟩, sinLen := BitVec.ofNat 32 xs.length }
def withBin (bs : List Bit) (s : State) : State :=
  { s with bin := ⟨bs, 0⟩, binLen := BitVec.ofNat 32 bs.length, rcur := 0 }
def withProgram (p : List HostAction) (s : State) : State := { s with program := p }
def faulted (s : State) : State := { s with status := { s.status with fault := true }, err := ⟨some .emptyInput, 0x11⟩ }
/-- The bits of `v`, most significant first: a bit string of the vectors. -/
def bits (v w : Nat) : List Bit := intBits v w
def validAll : Status := ⟨false, true, false, true, true, true, true⟩

/-- "bbaac" (V1, V2). -/
def bbaac : List Symbol := [0x62, 0x62, 0x61, 0x61, 0x63]
/-- The arena of V2, written out from it. -/
def arenaV2 : Vector Node 511 :=
  setNodeAt (setNodeAt (setNodeAt (setNodeAt (setNodeAt (Vector.replicate 511 (leafNode 0 0))
    0 (leafNode 0x61 2)) 1 (leafNode 0x62 2)) 2 (leafNode 0x63 1)) 3 (innerNode 3 2 0)) 4 (innerNode 5 1 3)
def codesV2 : Vector CodeEntry 256 :=
  setCodeAt (setCodeAt (setCodeAt noCodes 0x61 ⟨true, [true, true]⟩) 0x62 ⟨true, [false]⟩) 0x63 ⟨true, [true, false]⟩
def freqV2 : Vector Word 256 := setFreqAt (setFreqAt (setFreqAt (Vector.replicate 256 0) 0x61 2) 0x62 2) 0x63 1
/-- After `COUNT; BUILD; GENCODES; CALCLEN` on "bbaac" (V2). -/
def stateV2 : State :=
  { withSin bbaac blank with
    freq := freqV2
    nodes := arenaV2
    codes := codesV2
    treeInfo := ⟨4, 5, 3⟩
    hdrBits := 29
    payBits := 8
    status := validAll }
def treeV2 : Tree := .inner (.leaf 0x62) (.inner (.leaf 0x63) (.leaf 0x61))
/-- The words of the payload of V2. -/
def wordsV2 : List (Symbol × List Bit) :=
  [(0x62, [false]), (0x62, [false]), (0x61, [true, true]), (0x61, [true, true]), (0x63, [true, false])]
/-- `H3`, the header of V2. -/
def h3 : List Bit := bits 0b01011000100101100011101100001 29
def payV2 : List Bit := bits 0b00111110 8
/-- A tree of one leaf. -/
def stateV3 : State :=
  { blank with
    nodes := setNodeAt (Vector.replicate 511 (leafNode 0 0)) 0 (leafNode 0x61 4)
    treeInfo := ⟨0, 1, 1⟩
    status := ⟨false, true, false, true, true, false, false⟩ }

/-! ## Decoding: words written out from R61 -/

theorem test_decode_system : decode 0b00000000000000000000000000000000#32 = .ok .nop ∧
    decode 0b00000000000000000000000000000001#32 = .ok .rst := ⟨rfl, rfl⟩
theorem test_decode_construction : decode 0b00000000000000000000000000010000#32 = .ok .count ∧
    decode 0b00000000000000000000000000010001#32 = .ok .build ∧
    decode 0b00000000000000000000000000010010#32 = .ok .gencodes ∧
    decode 0b00000000000000000000000000010011#32 = .ok .calclen := ⟨rfl, rfl, rfl, rfl⟩
theorem test_decode_tree : decode 0b00000000000000000000000000100000#32 = .ok .sttree ∧
    decode 0b00000000000000000000000000100001#32 = .ok .ldtree ∧
    decode 0b00000000000000000000000000100010#32 = .ok .ldtreeb := ⟨rfl, rfl, rfl⟩
theorem test_decode_payload : decode 0b00000000000000000000000000110000#32 = .ok .encode ∧
    decode 0b00000000000000000000000000110001#32 = .ok .decn ∧
    decode 0b00000000000000000000000000110010#32 = .ok .decl := ⟨rfl, rfl, rfl⟩
theorem test_decode_framing : decode 0b00000000000000000000000001000000#32 = .ok .wrmark ∧
    decode 0b00000000000000000000000001000001#32 = .ok .rdmark ∧
    decode 0b00000000000000000000000001000010#32 = .ok .wrhlen ∧
    decode 0b00000000000000000000000001000011#32 = .ok .rdhlen ∧
    decode 0b00000000000000000000000001000100#32 = .ok .wrplen ∧
    decode 0b00000000000000000000000001000101#32 = .ok .rdplen ∧
    decode 0b00000000000000000000000001000110#32 = .ok .pad := ⟨rfl, rfl, rfl, rfl, rfl, rfl, rfl⟩
/-- R62: the ends of the reserved ranges, and a nonzero bit above `OPC`. -/
theorem test_decode_illegal :
    ([0x02, 0x0F, 0x14, 0x1F, 0x23, 0x2F, 0x33, 0x3F, 0x47, 0xFF] : List Word).all
      (fun c => decide (decode c = .error .reservedOpcode)) = true ∧
    ([0x110, 0x80000000, 0x01000001] : List Word).all
      (fun c => decide (decode c = .error .upperBitsNotZero)) = true := by
  simp only [decode]; decide +kernel
theorem test_decodeTableWord : decodeTableWord 32 0x46 = some .pad ∧ decodeTableWord 32 0x99 = none := ⟨rfl, rfl⟩

/-! ## Ill-formed terms are refused -/

theorem test_wf_unaligned_access : HostAction.wf (.wr 0x11 0) = false ∧ HostAction.wf (.rd 0x46) = false := by decide
theorem test_wf_marker_width : Marker.wf ⟨33, 0⟩ = false := by decide
theorem test_wf_marker_value : Marker.wf ⟨8, 0x100⟩ = false := by decide
theorem test_wf_marker_ok : Marker.wf ⟨8, 0xA5⟩ = true ∧ Marker.wf ⟨0, 0⟩ = true ∧ Marker.wf ⟨32, 0xFFFFFFFF⟩ = true := by
  decide
theorem test_wf_command : Instr.wf .ldtreeb = true := by decide

/-! ## Vectors of spec/95_test_vectors.md, one step each -/

/-- V1. -/
theorem test_count : holds (exec .count (withSin bbaac blank)) (fun t =>
    freqAt t.freq 0x61 == 2 && freqAt t.freq 0x62 == 2 && freqAt t.freq 0x63 == 1 && freqAt t.freq 0x64 == 0 &&
      t.status.toWord == 0x12) = true := by decide +kernel
/-- V1a. -/
theorem test_count_empty : holds (exec .count blank) (fun t =>
    freqAt t.freq 0x00 == 0 && freqAt t.freq 0xFF == 0 && t.status.toWord == 0x12) = true := by decide +kernel
/-- V2. -/
theorem test_build : holds (exec .build { blank with freq := freqV2, status := ⟨false, true, false, true, false, true, true⟩ })
    (fun t => [0, 1, 2, 3, 4].map (nodeAt t.nodes) == [0, 1, 2, 3, 4].map (nodeAt arenaV2) &&
      t.treeInfo.toWord == 0x000C0A04 && t.status.toWord == 0x32) = true := by decide +kernel
/-- V5: a leaf goes before an internal node of the same weight. -/
theorem test_build_leaf_first : holds
    (exec .build { blank with
      freq := setFreqAt (setFreqAt (setFreqAt (Vector.replicate 256 0) 0x61 1) 0x62 1) 0x63 2
      status := ⟨false, true, false, true, false, false, false⟩ })
    (fun t => nodeAt t.nodes 3 == some (innerNode 2 0 1) && nodeAt t.nodes 4 == some (innerNode 4 2 3)) = true := by
  decide +kernel
/-- V2. -/
theorem test_gencodes : holds (exec .gencodes { stateV2 with codes := noCodes }) (fun t =>
    [0x61, 0x62, 0x63, 0x64].map (codeAt t.codes) == [0x61, 0x62, 0x63, 0x64].map (codeAt codesV2) &&
      t.status.toWord == 0x72) = true := by decide +kernel
/-- V3: a lone leaf has the 1-bit code 0. -/
theorem test_gencodes_single : holds (exec .gencodes stateV3) (fun t =>
    codeAt t.codes 0x61 == ⟨true, [false]⟩ && (codeAt t.codes 0x62).valid == false) = true := by decide +kernel
/-- V2. -/
theorem test_calclen : holds (exec .calclen { stateV2 with hdrBits := 0, payBits := 0 }) (fun t =>
    t.hdrBits == 29 && t.payBits == 8 && t.status.toWord == 0xF2) = true := by decide +kernel
/-- R90, R130: a counted symbol without a code. -/
theorem test_calclen_unknown : holds (exec .calclen { stateV2 with freq := setFreqAt freqV2 0x64 1 }) (fun t =>
    t.err.toWord == 0x1302 && t.errInfo == 0x64 && t.status.toWord == 0x74) = true := by decide +kernel
/-- V2. -/
theorem test_sttree : holds (exec .sttree stateV2) (fun t => t.bout == h3 && t.wcnt == 29) = true := by decide +kernel
/-- V14. -/
theorem test_ldtree : holds (exec .ldtree (withBin h3 blank)) (fun t =>
    t.treeInfo.toWord == 0x000C0A00 && t.rcur == 29 && t.status.toWord == 0x22 &&
      [0, 1, 2, 3, 4].map (fun h => (nodeAt t.nodes h).map Node.shape) ==
        [some 0x00000202, some 0x058BFFFF, some 0x00000604, some 0x058FFFFF, some 0x0587FFFF]) = true := by decide +kernel
/-- V16. -/
theorem test_ldtree_malformed : holds (exec .ldtree (withBin (bits 0b10110 5) blank)) (fun t =>
    t.status.toWord == 0x4 && t.err.toWord == 0x2104 && t.errInfo == 5 && t.rcur == 5) = true := by decide +kernel
/-- V18. -/
theorem test_ldtreeb : holds
    (exec .ldtreeb { withBin (bits 0b111 3 ++ h3 ++ [true]) blank with rcur := 3, hdrBits := 29 }) (fun t =>
      t.treeInfo.toWord == 0x000C0A00 && t.rcur == 32 && t.status.toWord == 0x22) = true := by decide +kernel
/-- V12a. -/
theorem test_ldtreeb_truncated : holds (exec .ldtreeb { withBin (h3.take 20) blank with hdrBits := 29 }) (fun t =>
    t.err.toWord == 0x2203 && t.errInfo == 20 && t.rcur == 20) = true := by decide +kernel
/-- V2. -/
theorem test_encode : holds (exec .encode stateV2) (fun t => t.bout == payV2 && t.wcnt == 8) = true := by decide +kernel
/-- V31, with the table of V2: "bd". -/
theorem test_encode_unknown : holds (exec .encode (withSin [0x62, 0x64] stateV2)) (fun t =>
    t.bout == [false] && t.err.toWord == 0x3002 && t.errInfo == 0x64) = true := by decide +kernel
/-- V23a. -/
theorem test_decn : holds (exec .decn { withBin (payV2 ++ [false, false, false]) stateV2 with symCount := 5 }) (fun t =>
    t.sout == bbaac && t.rcur == 8 && t.soutCnt == 5) = true := by decide +kernel
/-- V24. -/
theorem test_decn_unterminated : holds (exec .decn { withBin (payV2.take 7) stateV2 with symCount := 5 }) (fun t =>
    t.sout == [0x62, 0x62, 0x61, 0x61] && t.err.toWord == 0x3105 && t.errInfo == 7) = true := by decide +kernel
/-- V20. -/
theorem test_decl : holds (exec .decl (withBin payV2 stateV2)) (fun t =>
    t.sout == bbaac && t.rcur == 8 && t.soutCnt == 5) = true := by decide +kernel
/-- V13. -/
theorem test_decl_unterminated : holds (exec .decl { withBin payV2 stateV2 with payBits := 7 }) (fun t =>
    t.sout == [0x62, 0x62, 0x61, 0x61] && t.err.toWord == 0x3205 && t.errInfo == 7 && t.soutCnt == 4) = true := by
  decide +kernel
/-- V35. -/
theorem test_wrmark : holds (exec .wrmark { blank with marker := ⟨8, 0xA5⟩ }) (fun t =>
    t.bout == [true, false, true, false, false, true, false, true] && t.wcnt == 8) = true := by decide +kernel
/-- V35a, V35b. -/
theorem test_rdmark : holds (exec .rdmark { withBin (bits 0b10100101 8) blank with marker := ⟨8, 0xA5⟩ }) (fun t =>
    t.rcur == 8 && t.status.toWord == 0x2) = true ∧
    holds (exec .rdmark { withBin (bits 0b10100100 8) blank with marker := ⟨8, 0xA5⟩ }) (fun t =>
      t.err.toWord == 0x4104 && t.errInfo == 8) = true := by decide +kernel
/-- V35c. -/
theorem test_rdmark_truncated : holds (exec .rdmark { withBin (bits 0b1010010 7) blank with marker := ⟨8, 0xA5⟩ }) (fun t =>
    t.err.toWord == 0x4103 && t.errInfo == 7 && t.rcur == 7) = true := by decide +kernel
/-- V32. -/
theorem test_wrhlen : holds (exec .wrhlen stateV2) (fun t =>
    t.bout == bits 0b00000000000000000000000000011101 32 && t.wcnt == 32) = true := by decide +kernel
/-- V33, V33a. -/
theorem test_rdhlen : holds (exec .rdhlen { withBin (bits 29 32 ++ [true]) blank with status := validAll }) (fun t =>
    t.hdrBits == 29 && t.rcur == 32 && t.status.toWord == 0x72) = true := by decide +kernel
theorem test_rdhlen_truncated : holds (exec .rdhlen { withBin (bits 0 31) blank with hdrBits := 7 }) (fun t =>
    t.err.toWord == 0x4303 && t.errInfo == 31 && t.rcur == 31 && t.hdrBits == 7) = true := by decide +kernel
/-- V32a. -/
theorem test_wrplen : holds (exec .wrplen stateV2) (fun t =>
    t.bout == bits 0b00000000000000000000000000001000 32 && t.wcnt == 32) = true := by decide +kernel
theorem test_rdplen : holds (exec .rdplen (withBin (bits 8 32) blank)) (fun t =>
    t.payBits == 8 && t.rcur == 32 && t.hdrBits == 0) = true := by decide +kernel
/-- V34. -/
theorem test_pad : holds (exec .pad { blank with wcnt := 101 }) (fun t =>
    t.bout == [false, false, false] && t.wcnt == 104) = true := by decide +kernel
theorem test_pad_aligned : holds (exec .pad { blank with wcnt := 8 }) (fun t => t.bout == [] && t.wcnt == 8) = true := by
  decide +kernel
/-- V38. -/
theorem test_nop : exec .nop blank = .next { blank with status := ⟨false, true, false, false, false, false, false⟩ } := rfl
/-- V37a. -/
theorem test_rst : holds (exec .rst (faulted { stateV2 with bout := [true] })) (fun t =>
    t.status.toWord == 0x2 && t.err.toWord == 0 && t.hdrBits == 0 && t.bout == [true]) = true := by decide +kernel
/-- V37. -/
theorem test_ignored : exec .count (faulted stateV2) = .next (faulted stateV2) := rfl

/-! ## The front end -/

/-- V36, V36a. -/
theorem test_illegal_word : holds (step (withProgram [.wr 0x00 0x00000110] blank)) (fun t =>
    t.status.toWord == 0x4 && t.err.toWord == 0x1006 && t.errInfo == 0x110) = true := by decide +kernel
/-- A command word fetched right after reset runs (R13, R117). -/
theorem test_fetch : holds (step (State.reset.withFetchWord 32 0x00)) (fun t =>
    t.status.toWord == 0x2 && decide (t.program = [])) = true := by decide +kernel
/-- R12, R23: a host write of `HDR_BITS` clears `LEN_V`. -/
theorem test_host_write : holds (step (withProgram [.wr 0x28 7] stateV2)) (fun t =>
    t.hdrBits == 7 && t.status.toWord == 0x72) = true := by decide +kernel
/-- V2: the table window. -/
theorem test_window : holds (step (withProgram [.rd 0x44] { stateV2 with tblAddr := TblAddr.ofWord 0x01000301 })) (fun t =>
    t.hostReads == [0x00000400]) = true ∧
    holds (step (withProgram [.rd 0x44] { stateV2 with tblAddr := TblAddr.ofWord 0x02006101 })) (fun t =>
      t.hostReads == [0xC0000000]) = true ∧
    holds (step (withProgram [.rd 0x44] { stateV2 with tblAddr := TblAddr.ofWord 0x02006400 })) (fun t =>
      t.hostReads == [0x00000000]) = true := by decide +kernel
/-- V8: the empty input. -/
theorem test_empty_input : holds (exec .build { blank with status := ⟨false, true, false, true, false, false, false⟩ })
    (fun t => t.err.toWord == 0x1101 && t.status.toWord == 0x14) = true := by decide +kernel

/-! ## Each statement with hypotheses: a state that meets them together -/

theorem witness_CommandWordsDecode :
    (0x47#32) ∉ ([0x00, 0x01, 0x10, 0x11, 0x12, 0x13, 0x20, 0x21, 0x22, 0x30, 0x31, 0x32, 0x40, 0x41, 0x42, 0x43, 0x44,
      0x45, 0x46] : List Word) ∧ (0x00000110#32).extractLsb' 8 24 ≠ 0#24 := by decide

theorem witness_EncodeDecodeAgree : Instr.pad.wf = true ∧ decode 0x46#32 = .ok .pad := ⟨rfl, rfl⟩

theorem witness_IllegalWordRaisesIllegalCommand :
    (withProgram [.wr 0x00 0x47] blank).program = .wr 0x00 0x47 :: [] ∧ blank.status.busy = false ∧
      (∀ i, 0x47 ≠ encode i) ∧ blank.status.fault = false :=
  ⟨rfl, rfl, fun i => by cases i <;> decide, rfl⟩

theorem witness_StepRunsTheDecodedCommand :
    (withProgram [.wr 0x00 0x10] blank).program = .wr 0x00 0x10 :: [] ∧ blank.status.busy = false ∧
      decode 0x10#32 = .ok .count ∧ Instr.count.wf = true := ⟨rfl, rfl, rfl, rfl⟩

theorem witness_IdleEngineHoldsItsState : blank.program = [] := rfl

theorem witness_FaultedEngineIgnoresCommands :
    (faulted blank).status.busy = false ∧ (faulted blank).status.fault = true ∧
    ((withProgram [.wr 0x00 0x99] (faulted blank)).program = .wr 0x00 0x99 :: [] ∧ (0x99#32) ≠ 0x00000001#32) ∧
    (withProgram [.wr 0x00 0x1] (faulted blank)).program = .wr 0x00 0x00000001#32 :: [] ∧
    ∀ addr ∈ ([0x10, 0x14, 0x18, 0x1C, 0x20, 0x24, 0x28, 0x2C, 0x40, 0x04] : List (BitVec 8)),
      addr.toNat % 4 = 0 ∧ addr ≠ 0x00 ∧ (withProgram [.wr addr 5] (faulted blank)).program = .wr addr 5 :: [] :=
  ⟨rfl, rfl, ⟨rfl, by decide⟩, rfl, fun addr h => ⟨by revert addr; decide, by revert addr; decide, rfl⟩⟩

/-- One action at each address a clause names, and at three the last clause takes. -/
theorem witness_HostWritesReachTheirRegister :
    blank.status.busy = false ∧
    (∀ addr ∈ ([0x10, 0x14, 0x18, 0x1C, 0x20, 0x24, 0x28, 0x2C, 0x40] : List (BitVec 8)),
      (withProgram [.wr addr 7] blank).program = .wr addr 7 :: []) ∧
    ∀ addr ∈ ([0x04, 0x48, 0xFC] : List (BitVec 8)), addr.toNat % 4 = 0 ∧
      addr ∉ ([0x00, 0x10, 0x14, 0x18, 0x1C, 0x20, 0x24, 0x28, 0x2C, 0x40] : List (BitVec 8)) ∧
      (withProgram [.wr addr 7] blank).program = .wr addr 7 :: [] :=
  ⟨rfl, fun _ _ => rfl, by
    intro addr h
    exact ⟨by revert addr; decide, by revert addr; decide, rfl⟩⟩

/-- One action at each address a clause names, and at three the last clause takes. -/
theorem witness_HostReadsReturnTheRegister :
    blank.status.busy = false ∧
    (∀ addr ∈ ([0x04, 0x08, 0x0C, 0x10, 0x14, 0x18, 0x1C, 0x20, 0x24, 0x28, 0x2C, 0x30, 0x40, 0x00, 0x48, 0xFC] :
      List (BitVec 8)), addr.toNat % 4 = 0 ∧ addr ≠ 0x44 ∧ (withProgram [.rd addr] blank).program = .rd addr :: []) ∧
    ∀ addr ∈ ([0x00, 0x48, 0xFC] : List (BitVec 8)),
      addr ∉ ([0x04, 0x08, 0x0C, 0x10, 0x14, 0x18, 0x1C, 0x20, 0x24, 0x28, 0x2C, 0x30, 0x40] : List (BitVec 8)) :=
  ⟨rfl, fun addr h => ⟨by revert addr; decide, by revert addr; decide, rfl⟩, by decide⟩

/-- Each clause at the end of its range: the last symbol, the last node in use, the last word of a code. -/
theorem witness_WindowShowsTheTables :
    stateV2.status.busy = false ∧ (withProgram [.rd 0x44] stateV2).program = .rd 0x44 :: [] ∧
    stateV2.status.freqV = true ∧ (255#9).toNat < 256 ∧ (255#8 : Symbol) = (255#9).extractLsb' 0 8 ∧
    ({ stateV2 with tblAddr := ⟨0, 255, 0⟩ } : State).tblAddr = ⟨0, 255, 0⟩ ∧
    stateV2.status.treeV = true ∧ (4#9).toNat < stateV2.treeInfo.nodeCnt.toNat ∧
    ({ stateV2 with tblAddr := ⟨1, 4, 0⟩ } : State).tblAddr = ⟨1, 4, 0⟩ ∧
    ({ stateV2 with tblAddr := ⟨1, 4, 1⟩ } : State).tblAddr = ⟨1, 4, 1⟩ ∧
    stateV2.status.codeV = true ∧ (0x61#9).toNat < 256 ∧ (0x61#8 : Symbol) = (0x61#9).extractLsb' 0 8 ∧
    (codeAt stateV2.codes 0x61).valid = true ∧
    ({ stateV2 with tblAddr := ⟨2, 0x61, 0⟩ } : State).tblAddr = ⟨2, 0x61, 0⟩ ∧
    ({ stateV2 with tblAddr := ⟨2, 0x61, 1⟩ } : State).tblAddr = ⟨2, 0x61, 1⟩ ∧ 0 / 32 + 1 = (1#4).toNat ∧
    ({ stateV2 with tblAddr := ⟨2, 0x61, 8⟩ } : State).tblAddr = ⟨2, 0x61, 8⟩ ∧ 1 ≤ (8#4).toNat ∧ (8#4).toNat ≤ 8 ∧
      255 / 32 + 1 = (8#4).toNat :=
  ⟨rfl, rfl, rfl, by decide, by decide, rfl, rfl, by decide, rfl, rfl, rfl, by decide, by decide, by decide +kernel,
    rfl, rfl, rfl, rfl, by decide, by decide, rfl⟩

theorem witness_AccessesOutsideTheHardwareAreRefused :
    ({ withProgram [.rd 0x04] blank with status := ⟨true, false, false, false, false, false, false⟩ } : State).program =
        .rd 0x04 :: [] ∧
      (⟨true, false, false, false, false, false, false⟩ : Status).busy = true ∧
    (withProgram [.wr 0x11 0] blank).program = .wr 0x11 0 :: [] ∧ blank.status.busy = false ∧ (0x11#8).toNat % 4 ≠ 0 :=
  ⟨rfl, rfl, rfl, rfl, by decide⟩

theorem witness_ResetClearsEveryHostRegister : (withProgram [.reset] stateV2).program = .reset :: [] := rfl

/-- `STTREE` abandoned, a command that appends; and a word that is no command. -/
theorem witness_AbandonedCommandKeepsOnlyItsAppends :
    (withProgram [.resetDuring 0x20] stateV2).program = .resetDuring 0x20 :: [] ∧ (stateV2.status.busy = false ∧
      decode 0x20#32 = .ok .sttree ∧ ∃ t, exec .sttree { withProgram [.resetDuring 0x20] stateV2 with program := [] } = .next t ∧
        decide (t.bout = h3) = true) ∧
    (withProgram [.resetDuring 0x47] stateV2).program = .resetDuring 0x47 :: [] ∧ ∀ i, decode 0x47#32 ≠ .ok i :=
  ⟨rfl, ⟨rfl, rfl, (holds_iff _ _).mp (by decide +kernel)⟩, rfl, fun i h => by
    rw [show decode 0x47#32 = .error .reservedOpcode from rfl] at h
    cases h⟩

theorem witness_MissingPreconditionRaisesBadSequence :
    blank.status.fault = false ∧ blank.status.freqV = false ∧ blank.status.treeV = false ∧ blank.status.codeV = false ∧
      blank.status.lenV = false := ⟨rfl, rfl, rfl, rfl, rfl⟩

theorem witness_OnlyResetsClearTheFault :
    (faulted blank).status.fault = true ∧
    (∃ t, step (withProgram [.wr 0x00 0x1] (faulted blank)) = .next t ∧ (!t.status.fault) = true) ∧
    ∃ t, step (withProgram [.wr 0x00 0x10] (faulted blank)) = .next t ∧ t.status.fault = true :=
  ⟨rfl, (holds_iff _ _).mp (by decide +kernel), (holds_iff _ _).mp (by decide +kernel)⟩

theorem witness_NopOnlySetsDone : blank.status.fault = false ∧ (faulted blank).status.fault = true := ⟨rfl, rfl⟩

theorem witness_CountMakesTheFrequencyMap : (withSin bbaac blank).status.fault = false := rfl

theorem witness_QueueRemovalTakesTheUniqueFirst :
    removeFirst arenaV2 [0, 1, 2] = some (2, [0, 1]) ∧ ([0, 1, 2] : List Handle) ≠ [] ∧ (0#9) ≠ 1#9 ∧
      before arenaV2 2 0 = true ∧ before arenaV2 0 1 = true := by decide +kernel

/-- "bbaac" counted. -/
def countedV2 : State := { withSin bbaac blank with freq := freqV2, status := ⟨false, true, false, true, false, false, false⟩ }

/-- "bbaac" counted; in its arena (V2) the handle 1 waits beside 2 and 0, which the first merge takes. -/
theorem witness_BuildCompletesOnANonEmptyMap :
    countedV2.status.fault = false ∧ countedV2.status.freqV = true ∧
      [0x61, 0x62, 0x63] = Config.allSymbols.filter (fun v => decide (0 < (freqAt countedV2.freq v).toNat)) ∧
      ([0x61, 0x62, 0x63] : List Symbol) ≠ [] ∧ 3 ≤ 3 ∧ 3 < 2 * 3 - 1 ∧ PendingAt arenaV2 3 3 1 ∧ (1#9) ≠ 2#9 ∧
      (1#9) ≠ 0#9 :=
  ⟨rfl, rfl, by decide +kernel, by decide, by decide, by decide, ⟨by decide, fun _ _ h1 h2 => by omega⟩, by decide,
    by decide⟩

theorem witness_EmptyInputIsRaisedByBuild :
    ({ blank with status := ⟨false, true, false, true, false, false, false⟩ } : State).status.freqV = true ∧
      (∀ v, freqAt blank.freq v = 0) ∧ blank.status.fault = false ∧ blank.sinLen = 0 :=
  ⟨rfl, fun v => by simp [freqAt, blank], rfl, rfl⟩

theorem build_countedV2 : ∃ t, exec .build countedV2 = .next t ∧
    (!t.status.fault && decide (t.treeInfo = ⟨4, 5, 3⟩) && decide (nodeAt t.nodes 4 = some (innerNode 5 1 3))) = true :=
  (holds_iff _ _).mp (by decide +kernel)

theorem freqTotal_countedV2 : freqTotal countedV2.freq < 2 ^ 32 := by decide +kernel

theorem witness_BuildMakesAWellFormedTree :
    countedV2.status.fault = false ∧ countedV2.status.freqV = true ∧
      ∃ t, exec .build countedV2 = .next t ∧ t.status.fault = false :=
  ⟨rfl, rfl, by obtain ⟨t, h, hp⟩ := build_countedV2; exact ⟨t, h, by simp_all⟩⟩

/-- The root is an internal node in use. -/
theorem witness_BuildWeightsAreSums :
    countedV2.status.fault = false ∧ countedV2.status.freqV = true ∧ freqTotal countedV2.freq < 2 ^ 32 ∧
      ∃ t, exec .build countedV2 = .next t ∧ t.status.fault = false ∧ (4#9).toNat < t.treeInfo.nodeCnt.toNat ∧
        nodeAt t.nodes 4 = some (innerNode 5 1 3) ∧ (innerNode 5 1 3).leaf = false :=
  ⟨rfl, rfl, freqTotal_countedV2, by
    obtain ⟨t, h, hp⟩ := build_countedV2
    simp only [Bool.and_eq_true, decide_eq_true_eq, Bool.not_eq_true'] at hp
    exact ⟨t, h, hp.1.1, by rw [hp.1.2]; decide, hp.2, rfl⟩⟩

theorem witness_MergeWeightsNeverDecrease :
    countedV2.status.fault = false ∧ countedV2.status.freqV = true ∧ freqTotal countedV2.freq < 2 ^ 32 ∧
      ∃ t, exec .build countedV2 = .next t ∧ t.status.fault = false ∧ t.treeInfo.leafCnt.toNat ≤ (3#9).toNat ∧
        (3#9).toNat ≤ (4#9).toNat ∧ (4#9).toNat < t.treeInfo.nodeCnt.toNat :=
  ⟨rfl, rfl, freqTotal_countedV2, by
    obtain ⟨t, h, hp⟩ := build_countedV2
    simp only [Bool.and_eq_true, decide_eq_true_eq, Bool.not_eq_true'] at hp
    exact ⟨t, h, hp.1.1, by rw [hp.1.2]; decide, by decide, by rw [hp.1.2]; decide⟩⟩

/-- Two states with the same map that differ in the arena. -/
theorem witness_BuildDependsOnTheMapAlone :
    countedV2.freq = ({ countedV2 with nodes := arenaV2 } : State).freq ∧ countedV2.status.fault = false ∧
      countedV2.status.freqV = true ∧ (∃ t, exec .build countedV2 = .next t ∧ t.status.fault = false) ∧
      ∃ t, exec .build { countedV2 with nodes := arenaV2 } = .next t ∧ (!t.status.fault) = true :=
  ⟨rfl, rfl, rfl, witness_BuildMakesAWellFormedTree.2.2, (holds_iff _ _).mp (by decide +kernel)⟩

/-- A tree of three leaves, and one of one leaf. -/
theorem witness_GencodesWritesThePathOfEverySymbol :
    stateV2.status.fault = false ∧ stateV2.status.treeV = true ∧ stateV2.tree = some treeV2 ∧
      stateV3.status.fault = false ∧ stateV3.status.treeV = true ∧ stateV3.tree = some (.leaf 0x61) :=
  ⟨rfl, rfl, by decide +kernel, rfl, rfl, by decide +kernel⟩

theorem witness_CodesArePrefixFree :
    stateV2.status.fault = false ∧ stateV2.status.treeV = true ∧ ∃ t, exec .gencodes stateV2 = .next t ∧
      (decide ((0x61#8) ≠ 0x62#8) && (codeAt t.codes 0x61).valid && (codeAt t.codes 0x62).valid) = true :=
  ⟨rfl, rfl, (holds_iff _ _).mp (by decide +kernel)⟩

theorem witness_CodeLengthsFitTheirField :
    stateV2.status.fault = false ∧ stateV2.status.treeV = true ∧ treeWf stateV2.nodes stateV2.treeInfo = true ∧
      ∃ t, exec .gencodes stateV2 = .next t ∧ (codeAt t.codes 0x61).valid = true :=
  ⟨rfl, rfl, by decide +kernel, (holds_iff _ _).mp (by decide +kernel)⟩

/-- Every symbol of V2 has a code. -/
theorem coded_V2 (v : Symbol) (h : 0 < (freqAt freqV2 v).toNat) : (codeAt codesV2 v).valid = true := by
  simp only [freqV2, freqAt_setFreqAt] at h
  simp only [codesV2, codeAt_setCodeAt, codeAt_noCodes]
  split_ifs at h ⊢ <;> simp_all [freqAt]

/-- One state for each of the three outcomes: V2, a symbol without a code, a count of `2^32 - 1`. -/
theorem witness_CalclenComputesTheLengths :
    (stateV2.status.fault = false ∧ stateV2.status.freqV = true ∧ stateV2.status.treeV = true ∧
      stateV2.status.codeV = true) ∧
    ((∀ v : Symbol, 0 < (freqAt freqV2 v).toNat → (codeAt codesV2 v).valid = true) ∧ payloadTotal freqV2 codesV2 < 2 ^ 32 ∧
      1 ≤ stateV2.treeInfo.leafCnt.toNat) ∧
    (0 < (freqAt (setFreqAt freqV2 0x64 1) 0x64).toNat ∧ (codeAt codesV2 0x64).valid = false ∧
      ∀ u : Symbol, u.toNat < (0x64#8).toNat → 0 < (freqAt (setFreqAt freqV2 0x64 1) u).toNat →
        (codeAt codesV2 u).valid = true) ∧
    ((∀ v : Symbol, 0 < (freqAt (setFreqAt freqV2 0x61 0xFFFFFFFF) v).toNat → (codeAt codesV2 v).valid = true) ∧
      2 ^ 32 ≤ payloadTotal (setFreqAt freqV2 0x61 0xFFFFFFFF) codesV2) := by
  refine ⟨⟨rfl, rfl, rfl, rfl⟩, ⟨coded_V2, by decide +kernel, by decide⟩,
    ⟨by rw [freqAt_setFreqAt]; decide, by decide +kernel, fun u hu h => coded_V2 u ?_⟩, fun v h => ?_, by decide +kernel⟩
  · rwa [freqAt_setFreqAt, if_neg (fun e => by subst e; simp at hu)] at h
  · rw [freqAt_setFreqAt] at h
    split at h
    · next e => subst e; decide +kernel
    · exact coded_V2 v h

theorem witness_SttreeWritesTheHeader :
    stateV2.status.fault = false ∧ stateV2.status.treeV = true ∧ stateV2.tree = some treeV2 :=
  ⟨rfl, rfl, by decide +kernel⟩

theorem witness_HeaderLengthLaw : treeWf stateV2.nodes stateV2.treeInfo = true ∧ treeV2.header = treeV2.header :=
  ⟨by decide +kernel, rfl⟩

theorem binHolds_of (s : State) (p : List Bit)
    (h : (List.range p.length).all (fun j => decide (s.rcur.toNat + j < s.binLen.toNat) &&
      decide (some (binAt s.bin (s.rcur.toNat + j)) = p[j]?)) = true) : BinHolds s p := by
  intro j hj
  have := List.all_eq_true.mp h j (List.mem_range.mpr hj)
  simpa [List.getElem?_eq_getElem hj] using this

theorem binHolds_withBin (p : List Bit) (s : State) (h : p.length < 2 ^ 32) : BinHolds (withBin p s) p := by
  intro j hj
  have hl : (withBin p s).binLen.toNat = p.length := Nat.mod_eq_of_lt h
  have hr : (withBin p s).rcur.toNat = 0 := rfl
  rw [hl, hr, Nat.zero_add]
  exact ⟨hj, by simp [withBin, binAt, List.getElem?_eq_getElem hj]⟩

theorem witness_LoadsRebuildTheTree :
    (withBin h3 blank).status.fault = false ∧ treeV2.leaves.length ≤ 256 ∧ BinHolds (withBin h3 blank) treeV2.header ∧
      ({ withBin h3 blank with hdrBits := 29 } : State).hdrBits.toNat = treeV2.header.length ∧
      BinHolds { withBin h3 blank with hdrBits := 29 } treeV2.header :=
  ⟨rfl, by decide, binHolds_of _ _ (by decide +kernel), by decide +kernel, binHolds_of _ _ (by decide +kernel)⟩

theorem witness_LoadedTreeIsTheHeaderRead :
    (withBin h3 blank).status.fault = false ∧
      (∃ t, exec .ldtree (withBin h3 blank) = .next t ∧ (!t.status.fault) = true) ∧
      ∃ t, exec .ldtreeb { withBin h3 blank with hdrBits := 29 } = .next t ∧ (!t.status.fault) = true :=
  ⟨rfl, (holds_iff _ _).mp (by decide +kernel), (holds_iff _ _).mp (by decide +kernel)⟩

/-- The tree of `n + 1` leaves whose internal nodes all stand on its leftmost path. -/
def spine : Nat → Tree
  | 0 => .leaf 0
  | n + 1 => .inner (spine n) (.leaf 0)

theorem loadableBits_spine : (spine 511).loadableBits = List.replicate 511 false := by decide +kernel

/-- The first 20 bits of `H3` (V12a, V11), and the whole of it with a longer declared length (V12). -/
theorem witness_LoadsFaultOnABrokenHeader :
    (withBin (h3.take 20) blank).status.fault = false ∧ h3.take 20 <+: treeV2.loadableBits ∧
    (h3.take 20 ≠ treeV2.loadableBits ∧ BinEndsAfter (withBin (h3.take 20) blank) (h3.take 20)) ∧
    (BinEndsAfter { withBin (h3.take 20) blank with hdrBits := 29 } (h3.take 20) ∧
      (h3.take 20).length < ({ withBin (h3.take 20) blank with hdrBits := 29 } : State).hdrBits.toNat) ∧
    (BinHolds { withBin h3 blank with hdrBits := 20 } (h3.take 20) ∧
      ({ withBin h3 blank with hdrBits := 20 } : State).hdrBits.toNat = (h3.take 20).length) ∧
    (h3 <+: treeV2.loadableBits ∧ treeV2.leaves.length ≤ 256 ∧ h3 = treeV2.header ∧
      BinHolds { withBin h3 blank with hdrBits := 30 } h3 ∧
      h3.length < ({ withBin h3 blank with hdrBits := 30 } : State).hdrBits.toNat) :=
  ⟨rfl, by decide +kernel,
    ⟨by decide +kernel, binHolds_of _ _ (by decide +kernel), by decide +kernel⟩,
    ⟨⟨binHolds_of _ _ (by decide +kernel), by decide +kernel⟩, by decide +kernel⟩,
    ⟨binHolds_of _ _ (by decide +kernel), by decide +kernel⟩,
    ⟨by decide +kernel, by decide, by decide +kernel, binHolds_of _ _ (by decide +kernel), by decide +kernel⟩⟩

/-- V17a: 510 zero bits, the beginning of no header that fits the arena. -/
theorem witness_LoadsFaultOnABrokenHeader_V17a :
    List.replicate 510 false <+: (spine 511).loadableBits ∧ List.replicate 510 false ≠ (spine 511).loadableBits ∧
      BinEndsAfter (withBin (List.replicate 510 false) blank) (List.replicate 510 false) := by
  rw [loadableBits_spine]
  exact ⟨by decide +kernel, by decide +kernel, binHolds_withBin _ _ (by rw [List.length_replicate]; decide), by decide +kernel⟩

/-- V17, as the header of a tree of 512 leaves and as 511 zero bits. -/
theorem witness_LoadOfTooManyNodesIsCapacityExceeded :
    (withBin (List.replicate 511 false) blank).status.fault = false ∧ 256 < (spine 511).leaves.length ∧
      BinHolds { withBin (List.replicate 511 false) blank with hdrBits := 511 } (spine 511).loadableBits ∧
      (spine 511).loadableBits.length ≤
        ({ withBin (List.replicate 511 false) blank with hdrBits := 511 } : State).hdrBits.toNat ∧
      BinHolds { withBin (List.replicate 511 false) blank with hdrBits := 511 } (List.replicate 511 false) ∧
      511 ≤ ({ withBin (List.replicate 511 false) blank with hdrBits := 511 } : State).hdrBits.toNat := by
  have h : BinHolds { withBin (List.replicate 511 false) blank with hdrBits := 511 } (List.replicate 511 false) :=
    binHolds_withBin _ { blank with hdrBits := 511 } (by rw [List.length_replicate]; decide)
  rw [loadableBits_spine]
  exact ⟨rfl, by decide +kernel, h, by rw [List.length_replicate]; decide, h, by decide⟩

/-- V2, and "bd" under its table. -/
theorem witness_EncodeWritesThePayload :
    stateV2.status.fault = false ∧ stateV2.status.codeV = true ∧
    (∀ v ∈ (List.range stateV2.sinLen.toNat).map (symRead stateV2), (codeAt stateV2.codes v).valid = true) ∧
    (List.range (withSin [0x62, 0x64] stateV2).sinLen.toNat).map (symRead (withSin [0x62, 0x64] stateV2)) =
      [0x62] ++ 0x64 :: [] ∧
    (∀ u ∈ ([0x62] : List Symbol), (codeAt stateV2.codes u).valid = true) ∧ (codeAt stateV2.codes 0x64).valid = false :=
  ⟨rfl, rfl, by decide +kernel, by decide +kernel, by decide +kernel, by decide +kernel⟩

theorem witness_PayloadLengthIsTheWeightedSum : ∀ v, (freqAt freqV2 v).toNat = bbaac.count v := by decide +kernel

theorem codewords_wordsV2 : ∀ w ∈ wordsV2, treeV2.Codeword w.1 w.2 := by
  simp [wordsV2, treeV2, Tree.Codeword, Tree.leafAt]

theorem witness_DecnDecodesTheDeclaredCount :
    stateV2.status.fault = false ∧ stateV2.status.treeV = true ∧ stateV2.tree = some treeV2 ∧
      (∀ w ∈ wordsV2, treeV2.Codeword w.1 w.2) ∧
      ({ withBin payV2 stateV2 with symCount := 5 } : State).symCount.toNat = wordsV2.length ∧
      BinHolds { withBin payV2 stateV2 with symCount := 5 } (wordsV2.map Prod.snd).flatten :=
  ⟨rfl, rfl, by decide +kernel, codewords_wordsV2, by decide, binHolds_of _ _ (by decide +kernel)⟩

theorem witness_DeclDecodesTheDeclaredLength :
    stateV2.status.fault = false ∧ stateV2.status.treeV = true ∧ stateV2.tree = some treeV2 ∧
      (∀ w ∈ wordsV2, treeV2.Codeword w.1 w.2) ∧
      (withBin payV2 stateV2).payBits.toNat = (wordsV2.map Prod.snd).flatten.length ∧
      BinHolds (withBin payV2 stateV2) (wordsV2.map Prod.snd).flatten :=
  ⟨rfl, rfl, by decide +kernel, codewords_wordsV2, by decide, binHolds_of _ _ (by decide +kernel)⟩

/-- V25 (between codewords) and V24 (mid-walk). -/
theorem witness_DecnFaultsAtTheEndOfTheStream :
    stateV2.status.fault = false ∧ stateV2.status.treeV = true ∧ stateV2.tree = some treeV2 ∧
      (∀ w ∈ wordsV2, treeV2.Codeword w.1 w.2) ∧
    (wordsV2.length < ({ withBin payV2 stateV2 with symCount := 6 } : State).symCount.toNat ∧
      BinEndsAfter { withBin payV2 stateV2 with symCount := 6 } ((wordsV2.map Prod.snd).flatten ++ [])) ∧
    ((wordsV2.take 4).length < ({ withBin (payV2.take 7) stateV2 with symCount := 5 } : State).symCount.toNat ∧
      treeV2.innerAt [true] = true ∧
      BinEndsAfter { withBin (payV2.take 7) stateV2 with symCount := 5 }
        (((wordsV2.take 4).map Prod.snd).flatten ++ [true])) :=
  ⟨rfl, rfl, by decide +kernel, codewords_wordsV2,
    ⟨by decide, binHolds_of _ _ (by decide +kernel), by decide +kernel⟩,
    by decide, by decide, binHolds_of _ _ (by decide +kernel), by decide +kernel⟩

/-- V21 (the stream ends) and V13 (the declared length ends). -/
theorem witness_DeclFaultsOnABrokenPayload :
    stateV2.status.fault = false ∧ stateV2.status.treeV = true ∧ stateV2.tree = some treeV2 ∧
      (∀ w ∈ wordsV2, treeV2.Codeword w.1 w.2) ∧ treeV2.innerAt [true] = true ∧
    (BinEndsAfter (withBin (payV2.take 7) stateV2) (((wordsV2.take 4).map Prod.snd).flatten ++ [true]) ∧
      (((wordsV2.take 4).map Prod.snd).flatten ++ [true]).length < stateV2.payBits.toNat) ∧
    (BinHolds { withBin payV2 stateV2 with payBits := 7 } (((wordsV2.take 4).map Prod.snd).flatten ++ [true]) ∧
      ([true] : List Bit) ≠ [] ∧ ({ withBin payV2 stateV2 with payBits := 7 } : State).payBits.toNat =
        (((wordsV2.take 4).map Prod.snd).flatten ++ [true]).length) :=
  ⟨rfl, rfl, by decide +kernel, codewords_wordsV2, by decide,
    ⟨⟨binHolds_of _ _ (by decide +kernel), by decide +kernel⟩, by decide⟩,
    binHolds_of _ _ (by decide +kernel), by decide, by decide⟩

theorem witness_DecodersKeepTheDeclaredSize :
    stateV2.status.fault = false ∧
      (∃ t, exec .decn { withBin payV2 stateV2 with symCount := 5 } = .next t ∧ (!t.status.fault) = true) ∧
      ∃ t, exec .decl (withBin payV2 stateV2) = .next t ∧ (!t.status.fault) = true :=
  ⟨rfl, (holds_iff _ _).mp (by decide +kernel), (holds_iff _ _).mp (by decide +kernel)⟩

theorem witness_PayloadRoundTrip :
    stateV2.tree = some treeV2 ∧ codeTable stateV2.nodes stateV2.treeInfo.root = .ok stateV2.codes ∧
      (∀ v ∈ inputSymbols stateV2, (codeAt stateV2.codes v).valid = true) ∧ stateV2.status.fault = false ∧
      stateV2.status.codeV = true ∧ payV2 = payloadOf stateV2.codes (inputSymbols stateV2) ∧
      (withBin payV2 stateV2).tree = some treeV2 ∧ stateV2.status.treeV = true ∧ BinHolds (withBin payV2 stateV2) payV2 ∧
      ({ withBin payV2 stateV2 with symCount := 5 } : State).symCount = stateV2.sinLen ∧
      (withBin payV2 stateV2).payBits.toNat = payV2.length :=
  ⟨by decide +kernel, by decide +kernel, by decide +kernel, rfl, rfl, by decide +kernel, by decide +kernel, rfl,
    binHolds_of _ _ (by decide +kernel), rfl, by decide⟩

theorem witness_EveryInputCanBeEncoded :
    (withSin bbaac blank).status.fault = false ∧ 1 ≤ (withSin bbaac blank).sinLen.toNat := ⟨rfl, by decide⟩

theorem witness_ReadIntInvertsWriteInt :
    8 ≤ 32 ∧ 0xA5 < 2 ^ 8 ∧ BinHolds (withBin (bits 0xA5 8) blank) (intBits 0xA5 8) ∧
      ((bits 0x52 7).length < 8 ∧ BinEndsAfter (withBin (bits 0x52 7) blank) (bits 0x52 7)) :=
  ⟨by decide, by decide, binHolds_of _ _ (by decide +kernel), by decide, binHolds_of _ _ (by decide +kernel),
    by decide +kernel⟩

theorem witness_FieldWritersAppendTheirField : stateV2.status.fault = false ∧ stateV2.status.lenV = true := ⟨rfl, rfl⟩

/-- V35a, V35b, V35c. -/
theorem witness_RdmarkChecksTheMarker :
    blank.status.fault = false ∧ Marker.wf ⟨8, 0xA5⟩ = true ∧
    (bits 0b10100101 8 = intBits (0xA5#32).toNat 8 ∧
      BinHolds { withBin (bits 0b10100101 8) blank with marker := ⟨8, 0xA5⟩ } (bits 0b10100101 8)) ∧
    ((bits 0b10100100 8).length = 8 ∧ bits 0b10100100 8 ≠ intBits (0xA5#32).toNat 8 ∧
      BinHolds { withBin (bits 0b10100100 8) blank with marker := ⟨8, 0xA5⟩ } (bits 0b10100100 8)) ∧
    ((bits 0b1010010 7).length < 8 ∧
      BinEndsAfter { withBin (bits 0b1010010 7) blank with marker := ⟨8, 0xA5⟩ } (bits 0b1010010 7)) :=
  ⟨rfl, by decide, ⟨by decide, binHolds_of _ _ (by decide +kernel)⟩,
    ⟨by decide, by decide +kernel, binHolds_of _ _ (by decide +kernel)⟩, by decide,
    binHolds_of _ _ (by decide +kernel), by decide +kernel⟩

/-- V33, V33a. -/
theorem witness_LengthReadersFillTheirRegister :
    blank.status.fault = false ∧ BinHolds (withBin (bits 29 32) blank) (intBits (29#32).toNat 32) ∧
      ((bits 0 31).length < 32 ∧ BinEndsAfter (withBin (bits 0 31) blank) (bits 0 31)) :=
  ⟨rfl, binHolds_of _ _ (by decide +kernel), by decide, binHolds_of _ _ (by decide +kernel), by decide +kernel⟩

theorem witness_PadReachesTheByteBoundary : ({ blank with wcnt := 0xFFFFFFFF } : State).status.fault = false := rfl

theorem witness_EncframeWritesTheFrame :
    (withSin bbaac blank).status.fault = false ∧ 1 ≤ (withSin bbaac blank).sinLen.toNat ∧
      (withSin bbaac blank).marker.wf = true ∧ (withSin bbaac blank).wcnt.toNat % 8 = 0 ∧
      ∃ g, execAll [.count, .build, .gencodes] (withSin bbaac blank) = .next g ∧
        decide ((payloadOf g.codes (inputSymbols (withSin bbaac blank))).length < 2 ^ 32) = true :=
  ⟨rfl, by decide, by decide, by decide, (holds_iff _ _).mp (by decide +kernel)⟩

theorem witness_DecframeReadsTheFrame :
    (withBin (frameBits ⟨0, 0⟩ treeV2 payV2) blank).status.fault = false ∧ blank.marker.wf = true ∧
      treeV2.leaves.length ≤ 256 ∧ (∀ w ∈ wordsV2, treeV2.Codeword w.1 w.2) ∧
      BinHolds (withBin (frameBits ⟨0, 0⟩ treeV2 payV2) blank)
        (frameBits blank.marker treeV2 (wordsV2.map Prod.snd).flatten) :=
  ⟨rfl, by decide, by decide, codewords_wordsV2, binHolds_of _ _ (by decide +kernel)⟩

theorem witness_StateIsWrittenOnlyByItsCommands :
    Instr.sttree ≠ .rst ∧ ∃ t, exec .sttree stateV2 = .next t ∧
      (decide (t.bout = h3) && decide (t.status.fault = stateV2.status.fault)) = true :=
  ⟨by decide, (holds_iff _ _).mp (by decide +kernel)⟩

theorem witness_StreamsAreOnlyAppendedTo :
    ∃ t, exec .sttree stateV2 = .next t ∧ decide (t.bout = h3) = true := (holds_iff _ _).mp (by decide +kernel)

/-- A command that completes, one that lacks its precondition, one that faults after it started. -/
theorem witness_ValidBitsFollowTheTable :
    stateV2.status.fault = false ∧ (∃ t, exec .gencodes stateV2 = .next t ∧ (!t.status.fault) = true) ∧
      (∃ t, exec .build blank = .next t ∧ (t.status.fault && decide (t.err.kind = some .badSequence)) = true) ∧
      ∃ t, exec .ldtree stateV2 = .next t ∧ (t.status.fault && decide (t.err.kind ≠ some .badSequence)) = true :=
  ⟨rfl, (holds_iff _ _).mp (by decide +kernel), (holds_iff _ _).mp (by decide +kernel),
    (holds_iff _ _).mp (by decide +kernel)⟩

theorem statusOk_stateV2 (p : List HostAction) : StatusOk (withProgram p stateV2) :=
  ⟨rfl, rfl, fun h => by simp [withProgram, stateV2, validAll] at h, fun _ => ⟨rfl, rfl⟩, fun _ => rfl,
    fun _ => ⟨rfl, rfl, rfl⟩⟩

theorem step_stateV2 : ∃ t, step (withProgram [.wr 0x00 0x12] stateV2) = .next t ∧ t.status.codeV = true :=
  (holds_iff _ _).mp (by decide +kernel)

theorem witness_StepKeepsStatusOk :
    StatusOk (withProgram [.wr 0x00 0x12] stateV2) ∧
      ∃ t, step (withProgram [.wr 0x00 0x12] stateV2) = .next t ∧ t.status.codeV = true :=
  ⟨statusOk_stateV2 _, step_stateV2⟩

theorem witness_StepKeepsTheWellFormedTree :
    TreeOk (withProgram [.wr 0x00 0x12] stateV2) ∧ stateV2.status.treeV = true ∧
      ∃ t, step (withProgram [.wr 0x00 0x12] stateV2) = .next t ∧ t.status.codeV = true :=
  ⟨fun _ => witness_HeaderLengthLaw.1, rfl, step_stateV2⟩

theorem witness_StepKeepsTheDerivedTables :
    DerivedOk (withProgram [.wr 0x00 0x12] stateV2) ∧ stateV2.status.codeV = true ∧ stateV2.status.lenV = true ∧
      ∃ t, step (withProgram [.wr 0x00 0x12] stateV2) = .next t ∧ t.status.codeV = true :=
  ⟨⟨fun _ => witness_PayloadRoundTrip.2.1, fun _ => ⟨by decide +kernel, by decide⟩⟩, rfl, rfl, step_stateV2⟩

theorem witness_StepKeepsTheCountBound :
    FreqOk (withProgram [.wr 0x00 0x12] stateV2) ∧ stateV2.status.freqV = true ∧
      ∃ t, step (withProgram [.wr 0x00 0x12] stateV2) = .next t ∧ t.status.codeV = true :=
  ⟨fun _ => freqTotal_countedV2, rfl, step_stateV2⟩

theorem witness_StepNeverStops :
    StatusOk (withProgram [.wr 0x00 0x12] stateV2) ∧ TreeOk (withProgram [.wr 0x00 0x12] stateV2) ∧
      ProgramOk (withProgram [.wr 0x00 0x12] stateV2) :=
  ⟨statusOk_stateV2 _, fun _ => witness_HeaderLengthLaw.1, by unfold ProgramOk; decide⟩

end Sys2Proof.Tests
end

/-! PROOFS. O60: no host action stops the machine from a state that meets the invariants (R8, R156). The only procedures
that can be stuck walk the arena (log 6), and they cannot be on a tree. -/

namespace Sys2Proof.Machine

/-! ## Procedures that are never stuck -/

/-- The procedure has returned or has raised a fault of the engine (R131): the model did not stop in it (log 6). -/
def Res.NotStuck {α : Type} (r : Res α) : Prop := ∀ f, r ≠ .stuck f

@[simp] theorem Res.notStuck_ok {α : Type} (a : α) (s : State) : (Res.ok a s).NotStuck := nofun

@[simp] theorem Res.notStuck_raised {α : Type} (s : State) : (Res.raised s : Res α).NotStuck := nofun

theorem Res.NotStuck.bind {α β : Type} {r : Res α} {k : α → State → Res β} (hr : r.NotStuck)
    (hk : ∀ a s, (k a s).NotStuck) : (r.bind k).NotStuck := by
  cases r with
  | ok a s => exact hk a s
  | raised s => simp
  | stuck f => exact absurd rfl (hr f)

theorem Res.NotStuck.outcome_next {r : Res Unit} (hr : r.NotStuck) : ∃ t, r.outcome = .next t := by
  cases r with
  | ok a s => exact ⟨complete s, rfl⟩
  | raised s => exact ⟨s, rfl⟩
  | stuck f => exact absurd rfl (hr f)

/-- A command has its next state if its procedure, once it runs, is not stuck. -/
theorem command_next {i : Instr} {body : State → Res Unit} {s : State}
    (h : precondition i s.status = true → (body (accept s)).NotStuck) : ∃ t, command i body s = .next t := by
  rcases hf : s.status.fault with _ | _
  · rcases hp : precondition i s.status with _ | _
    · exact ⟨_, command_missing i body s hf hp⟩
    · rw [command_runs i body s hf hp]
      exact (h hp).outcome_next
  · exact ⟨s, command_faulted i body s hf⟩

/-! ## The procedures that do not walk the arena -/

theorem encodeSymbols_notStuck (input : List Symbol) (s : State) : (encodeSymbols input s).NotStuck := by
  induction input generalizing s with
  | nil => simp [encodeSymbols]
  | cons v rest ih =>
    rw [encodeSymbols]
    split
    · exact ih _
    · simp

theorem readLength_notStuck (opc : Opcode) (s : State) : (readLength opc s).NotStuck := by
  rw [readLength]
  split <;> simp

theorem headerBit_notStuck (opc : Opcode) (bounded : Bool) (start : Nat) (s : State) :
    (headerBit opc bounded start s).NotStuck := by
  rw [headerBit]
  split
  · simp
  · split <;> simp

theorem headerInt_notStuck (opc : Opcode) (bounded : Bool) (start w v : Nat) (s : State) :
    (headerInt opc bounded start w v s).NotStuck := by
  induction w generalizing v s with
  | zero => simp [headerInt]
  | succ w ih => exact (headerBit_notStuck opc bounded start s).bind fun b s' => ih _ s'

/-- `des()` of R98 only allocates: every call ends in a node or in a fault of the engine. -/
theorem loadNode_notStuck (opc : Opcode) (bounded : Bool) (start d n leaves : Nat) (s : State) :
    (loadNode opc bounded start d n leaves s).NotStuck := by
  induction d generalizing n leaves s with
  | zero => simp [loadNode]
  | succ d ih =>
    rw [loadNode]
    split
    · simp
    · refine (headerBit_notStuck opc bounded start s).bind fun m s1 => ?_
      split
      · exact (headerInt_notStuck opc bounded start 8 0 s1).bind fun v s2 => by simp
      · exact (ih _ _ s1).bind fun l s2 => (ih _ _ s2).bind fun r s3 => by simp

theorem loadTree_notStuck (opc : Opcode) (bounded : Bool) (s : State) : (loadTree opc bounded s).NotStuck := by
  refine (loadNode_notStuck opc bounded _ _ _ _ _).bind fun r s2 => ?_
  split <;> simp

/-! ## The walk of the decoders -/

/-- Where the walk of R103 can stand: there is a tree under the root, and the walk pointer is at the root or at an internal
node. -/
def WalkStands (nodes : Vector Node 511) (root cur : Handle) : Prop :=
  (∃ d t, treeOf nodes d root = some t) ∧ (cur = root ∨ ∃ d l r, treeOf nodes d cur = some (.inner l r))

theorem WalkStands.at_root {nodes : Vector Node 511} {root : Handle} {d : Nat} {t : Tree}
    (h : treeOf nodes d root = some t) : WalkStands nodes root root := ⟨⟨d, t, h⟩, .inl rfl⟩

/-- A step of the walk is never stuck where the walk can stand, and leads to where it can stand. -/
theorem WalkStands.walkStep {nodes : Vector Node 511} {root cur : Handle} (h : WalkStands nodes root cur) (b : Bit) :
    ∃ w, Machine.walkStep nodes root cur b = .ok w ∧ WalkStands nodes root w.cur := by
  have ⟨⟨d, t, ht⟩, hcur⟩ := h
  cases t with
  | leaf v =>
    -- A lone leaf: every bit emits its symbol and the pointer stays (R103).
    cases d with
    | zero => simp [treeOf] at ht
    | succ d =>
      rcases treeOf_cases ht with ⟨top, hn, hl, -⟩ | ⟨_, _, _, -, -, -, -, he⟩
      · exact ⟨⟨cur, some top.sym⟩, by simp [Machine.walkStep, hn, hl], h⟩
      · cases he
  | inner tl tr =>
    have hin : ∃ e l r, treeOf nodes e cur = some (.inner l r) := by
      rcases hcur with rfl | hc
      · exact ⟨d, tl, tr, ht⟩
      · exact hc
    obtain ⟨e, l, r, hc⟩ := hin
    obtain ⟨top, -, htop, htopl, -, -⟩ := treeOf_inner ht
    obtain ⟨nd, e', hn, -, hl, hr⟩ := treeOf_inner hc
    refine ⟨_, walkStep_inner htop htopl hn hl hr b, ?_⟩
    have hchild : treeOf nodes e' (if b then nd.right else nd.left) = some (if b then r else l) := by
      cases b <;> simpa
    rcases hch : (if b then r else l) with v | ⟨a, c⟩
    · exact .at_root ht
    · exact ⟨⟨d, _, ht⟩, .inr ⟨e', a, c, by rw [hchild, hch]⟩⟩

@[simp] theorem emit_nodes (e : Option Symbol) (s : State) : (emit e s).nodes = s.nodes := by
  cases e <;> rfl

theorem decnEnd_notStuck (root cur : Handle) (s : State) : (decnEnd root cur s).NotStuck := by
  rw [decnEnd]
  split <;> simp

theorem decnLoop_notStuck {root cur : Handle} {s : State} (left owed : Nat) (h : WalkStands s.nodes root cur) :
    (decnLoop root left cur owed s).NotStuck := by
  induction left generalizing cur owed s with
  | zero =>
    rw [decnLoop]
    split
    · simp
    · exact decnEnd_notStuck _ _ _
  | succ left ih =>
    rw [decnLoop]
    split
    · simp
    · rcases readBit_cases s with ⟨-, hr⟩ | ⟨-, hr⟩
      · simp [hr, decnEnd_notStuck]
      · obtain ⟨w, hw, hs⟩ := h.walkStep (binAt s.bin s.rcur.toNat)
        simp only [hr, advanced_nodes, hw]
        exact ih _ (by simpa using hs)

theorem declLoop_notStuck {root cur : Handle} {s : State} (left : Nat) (h : WalkStands s.nodes root cur) :
    (declLoop root left cur s).NotStuck := by
  induction left generalizing cur s with
  | zero => rw [declLoop]; split <;> simp
  | succ left ih =>
    rw [declLoop]
    rcases readBit_cases s with ⟨-, hr⟩ | ⟨-, hr⟩
    · simp [hr]
    · obtain ⟨w, hw, hs⟩ := h.walkStep (binAt s.bin s.rcur.toNat)
      simp only [hr, advanced_nodes, hw]
      exact ih (by simpa using hs)

/-! ## Every command -/

section
variable {s : State}

/-- A command whose procedure raises nothing. -/
theorem command_next_of_ok {i : Instr} (f : State → State) :
    ∃ t, command i (fun u => .ok () (f u)) s = .next t :=
  command_next fun _ => Res.notStuck_ok () _

theorem execBuild_next : ∃ t, execBuild s = .next t := by
  rw [execBuild]
  refine command_next fun _ => ?_
  dsimp only
  split <;> simp

theorem execCalclen_next : ∃ t, execCalclen s = .next t := by
  rw [execCalclen]
  refine command_next fun _ => ?_
  dsimp only
  split
  · simp
  · split <;> simp

theorem execRdmark_next : ∃ t, execRdmark s = .next t := by
  rw [execRdmark]
  refine command_next fun _ => ?_
  split
  · simp
  · split <;> simp

theorem execRdhlen_next : ∃ t, execRdhlen s = .next t := by
  rw [execRdhlen]
  exact command_next fun _ => (readLength_notStuck _ _).bind fun v s1 => Res.notStuck_ok () _

theorem execRdplen_next : ∃ t, execRdplen s = .next t := by
  rw [execRdplen]
  exact command_next fun _ => (readLength_notStuck _ _).bind fun v s1 => Res.notStuck_ok () _

/-! The four commands that walk the arena run only while `TREE_V` = 1 (R31); then there is a tree to walk. -/

variable (h : s.status.treeV = true → ∃ t, s.tree = some t)
include h

theorem execGencodes_next : ∃ t, execGencodes s = .next t := by
  rw [execGencodes]
  refine command_next fun hp => ?_
  obtain ⟨t, ht⟩ := h hp
  obtain ⟨codes, hc, -⟩ := codeTable_treeOf ht
  simp [hc]

theorem execSttree_next : ∃ t, execSttree s = .next t := by
  rw [execSttree]
  refine command_next fun hp => ?_
  obtain ⟨t, ht⟩ := h hp
  simp [headerBits_treeOf ht]

theorem execDecn_next : ∃ t, execDecn s = .next t := by
  rw [execDecn]
  refine command_next fun hp => ?_
  obtain ⟨t, ht⟩ := h hp
  exact decnLoop_notStuck _ _ (.at_root ht)

theorem execDecl_next : ∃ t, execDecl s = .next t := by
  rw [execDecl]
  refine command_next fun hp => ?_
  obtain ⟨t, ht⟩ := h hp
  exact declLoop_notStuck _ (.at_root ht)

theorem exec_next (i : Instr) : ∃ t, exec i s = .next t := by
  cases i with
  | nop => rw [exec, execNop]; exact command_next_of_ok id
  | rst => exact ⟨softReset s, rfl⟩
  | count => rw [exec, execCount]; exact command_next_of_ok _
  | build => exact execBuild_next
  | gencodes => exact execGencodes_next h
  | calclen => exact execCalclen_next
  | sttree => exact execSttree_next h
  | ldtree => exact command_next fun _ => loadTree_notStuck _ _ _
  | ldtreeb => exact command_next fun _ => loadTree_notStuck _ _ _
  | encode => exact command_next fun _ => encodeSymbols_notStuck _ _
  | decn => exact execDecn_next h
  | decl => exact execDecl_next h
  | wrmark => rw [exec, execWrmark]; exact command_next_of_ok _
  | rdmark => exact execRdmark_next
  | wrhlen => rw [exec, execWrhlen]; exact command_next_of_ok _
  | rdhlen => exact execRdhlen_next
  | wrplen => rw [exec, execWrplen]; exact command_next_of_ok _
  | rdplen => exact execRdplen_next
  | pad => rw [exec, execPad]; exact command_next_of_ok _

end

/-! ## Every host action -/

theorem TreeOk.tree {s : State} (h : TreeOk s) (hv : s.status.treeV = true) : ∃ t, s.tree = some t :=
  tree_of_treeWf (h hv)

theorem issue_next (c : Word) {s : State} (h : TreeOk s) : ∃ t, issue c s = .next t := by
  rw [issue]
  split
  · exact exec_next h.tree _
  · split <;> exact ⟨_, rfl⟩

theorem abandon_next (c : Word) {s : State} (h : TreeOk s) : ∃ t, abandon c s = .next t := by
  obtain ⟨t, ht⟩ := issue_next c h
  exact ⟨_, by rw [abandon, ht]⟩

theorem whenIdle_of_idle {s : State} (h : s.status.busy = false) (o : Outcome) : whenIdle s o = o := by
  simp [whenIdle, h]

theorem whenAligned_of_aligned {addr : BitVec 8} (h : aligned addr = true) (o : Outcome) : whenAligned addr o = o :=
  if_pos h

/-- An idle engine performs every host action that the hardware has (R12, R154). -/
theorem perform_next {a : HostAction} {s : State} (hi : s.status.busy = false) (ht : TreeOk s) (ha : a.wf = true) :
    ∃ t, perform a s = .next t := by
  cases a with
  | wr addr v =>
    rw [perform, whenIdle_of_idle hi, whenAligned_of_aligned ha]
    split
    · exact issue_next v ht
    · exact ⟨_, rfl⟩
  | rd addr => exact ⟨_, by rw [perform, whenIdle_of_idle hi, whenAligned_of_aligned ha]⟩
  | reset => exact ⟨_, rfl⟩
  | resetDuring c =>
    rw [perform, whenIdle_of_idle hi]
    exact abandon_next c ht
  | supplySin xs => exact ⟨_, whenIdle_of_idle hi _⟩
  | supplyBin bs => exact ⟨_, whenIdle_of_idle hi _⟩

/-- Settles O60: the engine is idle, the next host action is one the hardware has, and its walks are on a tree. -/
theorem stepNeverStops : Obligations.StepNeverStops := by
  intro s hs ht hp
  rw [step]
  rcases hprog : s.program with _ | ⟨a, rest⟩
  · exact ⟨s, rfl⟩
  · have ha : a.wf = true := by
      rw [ProgramOk, hprog, List.all_cons, Bool.and_eq_true] at hp
      exact hp.1
    exact perform_next hs.idle ht ha

end Sys2Proof.Machine

/-! PROOFS. What one host action can do (R11, R12, R65), said once, and the statements about single register accesses:
O4, O7, O8, O9. -/

namespace Sys2Proof.Machine

/-! ## The decoder read backwards -/

theorem opcodeMap_opcode : ∀ row ∈ opcodeMap, row.1 = opcodeOf row.2 := by decide

/-- R61: a word that decodes is the command word of its command. -/
theorem eq_encode_of_decode {c : Word} {i : Instr} (h : decode c = .ok i) : c = encode i := by
  have hzero : zeroField c = 0 := by
    by_contra hz
    rw [decode, if_neg hz] at h
    cases h
  have hopc : opcField c = opcodeOf i := by
    rw [decode, if_pos hzero] at h
    rcases hf : opcodeMap.find? (fun row => row.1 == opcField c) with _ | row
    · simp [lookupOpcode, hf] at h
    · have hrow := opcodeMap_opcode row (List.mem_of_find?_eq_some hf)
      have hkey : row.1 = opcField c := by simpa using List.find?_some hf
      simp only [lookupOpcode, hf, Option.map_some, Except.ok.injEq] at h
      rw [← hkey, hrow, h]
  rw [encode, ← hopc, show 0#24 = zeroField c from hzero.symm]
  exact (BitVec.extractLsb'_append_extractLsb' (x := c) (len := 8) (w := 24)).symm

/-! ## One host action -/

section
variable {s : State}

theorem step_of_program {a : HostAction} {rest : List HostAction} (h : s.program = a :: rest) :
    step s = perform a (takeAction rest s) := by rw [step, h]

theorem perform_wr_cmd (c : Word) (hi : s.status.busy = false) : perform (.wr Reg.cmd c) s = issue c s := by
  rw [perform, whenIdle_of_idle hi, whenAligned_of_aligned (by decide), if_pos rfl]

theorem perform_wr {addr : BitVec 8} (v : Word) (hi : s.status.busy = false) (ha : aligned addr = true)
    (hc : addr ≠ Reg.cmd) : perform (.wr addr v) s = .next (writeReg addr v s) := by
  rw [perform, whenIdle_of_idle hi, whenAligned_of_aligned ha, if_neg hc]

theorem perform_rd {addr : BitVec 8} (hi : s.status.busy = false) (ha : aligned addr = true) :
    perform (.rd addr) s = .next (readReg addr s) := by
  rw [perform, whenIdle_of_idle hi, whenAligned_of_aligned ha]

/-- Settles O4: the write to `CMD` is issued, and issuing a word that decodes is running its command. -/
theorem stepRunsTheDecodedCommand : Obligations.StepRunsTheDecodedCommand := by
  intro s c i rest hp hi hd _
  have hcmd := perform_wr_cmd (s := takeAction rest s) c hi
  rw [issue, hd] at hcmd
  rw [step_of_program hp]
  exact hcmd

/-! ## Register writes (R12, R17 to R24, R26) -/

theorem step_write {addr : BitVec 8} {v : Word} {rest : List HostAction} (hi : s.status.busy = false)
    (ha : aligned addr = true) (hc : addr ≠ Reg.cmd) (hp : s.program = .wr addr v :: rest) :
    step s = .next (writeReg addr v (takeAction rest s)) := by
  rw [step_of_program hp]
  exact perform_wr v hi ha hc

/-- A read-only or reserved address ignores the write (R12). -/
theorem writeReg_ignored {addr : BitVec 8} (v : Word)
    (h : addr ∉ ([0x10, 0x14, 0x18, 0x1C, 0x20, 0x24, 0x28, 0x2C, 0x40] : List (BitVec 8))) :
    writeReg addr v s = s := by
  simp only [List.mem_cons, List.not_mem_nil, or_false, not_or] at h
  obtain ⟨h1, h2, h3, h4, h5, h6, h7, h8, h9⟩ := h
  rw [writeReg, if_neg h1, if_neg h2, if_neg h3, if_neg h4, if_neg h5, if_neg h6, if_neg h7, if_neg h8, if_neg h9]

/-- Settles O7: the address picks the register that takes the word. -/
theorem hostWritesReachTheirRegister : Obligations.HostWritesReachTheirRegister := by
  intro s v rest hi
  refine ⟨step_write hi (by decide) (by decide), step_write hi (by decide) (by decide),
    step_write hi (by decide) (by decide), step_write hi (by decide) (by decide), step_write hi (by decide) (by decide),
    step_write hi (by decide) (by decide), step_write hi (by decide) (by decide), step_write hi (by decide) (by decide),
    step_write hi (by decide) (by decide), fun addr ha hn hp => ?_⟩
  rw [List.mem_cons, not_or] at hn
  rw [step_write hi (by simpa [aligned] using ha) hn.1 hp, writeReg_ignored v hn.2]
  rfl

/-! ## Register reads (R12 to R16, R25) -/

theorem step_read {addr : BitVec 8} {rest : List HostAction} (hi : s.status.busy = false) (ha : aligned addr = true)
    (hp : s.program = .rd addr :: rest) : step s = .next (readReg addr (takeAction rest s)) := by
  rw [step_of_program hp]
  exact perform_rd hi ha

/-- What a read of any address does (R26, R49): a value is recorded, and perhaps a free value is drawn for it (log 4, 8). -/
theorem readReg_eq (addr : BitVec 8) (s : State) :
    ∃ v n, readReg addr s = { s with hostReads := s.hostReads ++ [v], freeCtr := n } := by
  rw [readReg]
  split
  · split <;> exact ⟨_, _, rfl⟩
  · exact ⟨_, s.freeCtr, rfl⟩

/-- `CMD` and the reserved addresses read 0 (R12, R13). -/
theorem regValue_reserved {addr : BitVec 8} (h : addr ∉ ([0x04, 0x08, 0x0C, 0x10, 0x14, 0x18, 0x1C, 0x20, 0x24, 0x28,
    0x2C, 0x30, 0x40] : List (BitVec 8))) : regValue s addr = 0 := by
  simp only [List.mem_cons, List.not_mem_nil, or_false, not_or] at h
  obtain ⟨h1, h2, h3, h4, h5, h6, h7, h8, h9, h10, h11, h12, h13⟩ := h
  rw [regValue, if_neg h1, if_neg h2, if_neg h3, if_neg h4, if_neg h5, if_neg h6, if_neg h7, if_neg h8, if_neg h9,
    if_neg h10, if_neg h11, if_neg h12, if_neg h13]

/-- The fields of `STATUS` in the word the host reads (R14). -/
theorem Status.toWord_fields (st : Status) :
    st.toWord.getLsbD 0 = st.busy ∧ st.toWord.getLsbD 1 = st.done ∧ st.toWord.getLsbD 2 = st.fault ∧
    st.toWord.getLsbD 3 = false ∧ st.toWord.getLsbD 4 = st.freqV ∧ st.toWord.getLsbD 5 = st.treeV ∧
    st.toWord.getLsbD 6 = st.codeV ∧ st.toWord.getLsbD 7 = st.lenV ∧ st.toWord.extractLsb' 8 24 = 0#24 := by
  obtain ⟨b, d, f, fv, tv, cv, lv⟩ := st
  revert b d f fv tv cv lv
  decide

theorem Err.toWord_fields (e : Err) :
    e.toWord.extractLsb' 0 4 = e.code ∧ e.toWord.extractLsb' 4 4 = 0#4 ∧ e.toWord.extractLsb' 8 8 = e.opc ∧
    e.toWord.extractLsb' 16 16 = 0#16 := by
  have h : ∀ i n, e.toWord.extractLsb' i n = (0#16 ++ e.opc ++ 0#4 ++ e.code).extractLsb' i n := fun _ _ => rfl
  simp [h, BitVec.extractLsb'_append_eq_of_le, BitVec.extractLsb'_append_eq_of_add_le, -Nat.reduceAdd]

theorem TreeInfo.toWord_fields (t : TreeInfo) :
    t.toWord.extractLsb' 0 9 = t.root ∧ t.toWord.extractLsb' 9 9 = t.nodeCnt ∧ t.toWord.extractLsb' 18 9 = t.leafCnt ∧
    t.toWord.extractLsb' 27 5 = 0#5 := by
  have h : ∀ i n, t.toWord.extractLsb' i n = (0#5 ++ t.leafCnt ++ t.nodeCnt ++ t.root).extractLsb' i n :=
    fun _ _ => rfl
  simp [h, BitVec.extractLsb'_append_eq_of_le, BitVec.extractLsb'_append_eq_of_add_le, -Nat.reduceAdd]

theorem TblAddr.toWord_fields (a : TblAddr) :
    a.toWord.extractLsb' 24 2 = a.sel ∧ a.toWord.extractLsb' 8 9 = a.idx ∧ a.toWord.extractLsb' 0 4 = a.word ∧
    a.toWord.extractLsb' 26 6 = 0#6 ∧ a.toWord.extractLsb' 17 7 = 0#7 ∧ a.toWord.extractLsb' 4 4 = 0#4 := by
  have h : ∀ i n, a.toWord.extractLsb' i n = (0#6 ++ a.sel ++ 0#7 ++ a.idx ++ 0#4 ++ a.word).extractLsb' i n :=
    fun _ _ => rfl
  simp [h, BitVec.extractLsb'_append_eq_of_le, BitVec.extractLsb'_append_eq_of_add_le, -Nat.reduceAdd]

/-- Settles O8: the value recorded is `regValue`, which holds the fields in their places. -/
theorem hostReadsReturnTheRegister : Obligations.HostReadsReturnTheRegister := by
  intro s addr rest hi ha hne hp
  refine ⟨regValue s addr, ?_, ?_, ?_, ?_, ?_, ?_, ?_, ?_, ?_, ?_, ?_, ?_, ?_, ?_, regValue_reserved⟩
  · rw [step_read hi (by simpa [aligned] using ha) hp, readReg, if_neg hne]
    rfl
  · rintro rfl; exact s.status.toWord_fields
  · rintro rfl; exact s.err.toWord_fields
  iterate 9 rintro rfl; rfl
  · rintro rfl; exact s.treeInfo.toWord_fields
  · rintro rfl; exact s.tblAddr.toWord_fields

/-! ## The table read window (R26) -/

theorem ofBool_beq_one (b : Bool) : (BitVec.ofBool b == 1#1) = b := by cases b <;> rfl

theorem getElem_eight {idx : BitVec 9} (h : idx.toNat < 256) : idx[8] = false := by
  rw [BitVec.getElem_eq_testBit_toNat, Nat.testBit_lt_two_pow h]

theorem windowWord_freq {idx : BitVec 9} (ha : s.tblAddr = ⟨0, idx, 0⟩) (hv : s.status.freqV = true)
    (hi : idx.toNat < 256) : windowWord s = some (freqAt s.freq (idx.extractLsb' 0 8)) := by
  simp [windowWord, ha, hv, getElem_eight hi]

theorem windowWord_node {idx : BitVec 9} {w : BitVec 4} (ha : s.tblAddr = ⟨1, idx, w⟩) (hv : s.status.treeV = true)
    (hi : idx.toNat < s.treeInfo.nodeCnt.toNat) :
    ∃ nd, nodeAt s.nodes idx = some nd ∧
      windowWord s = if w = 0 then some nd.weight else if w = 1 then some nd.shape else none := by
  have hlt : idx.toNat < 511 := by have := s.treeInfo.nodeCnt.isLt; omega
  exact ⟨s.nodes[idx.toNat], by simp [nodeAt, hlt], by simp [windowWord, ha, hv, hi, nodeAt, hlt]⟩

theorem windowWord_code {idx : BitVec 9} {w : BitVec 4} (ha : s.tblAddr = ⟨2, idx, w⟩) (hv : s.status.codeV = true)
    (hi : idx.toNat < 256) :
    windowWord s = if w = 0 then some (codeAt s.codes (idx.extractLsb' 0 8)).head
      else if (codeAt s.codes (idx.extractLsb' 0 8)).valid && decide (w.toNat ≤ 8) then
        some ((codeAt s.codes (idx.extractLsb' 0 8)).bitsWord (w.toNat - 1))
      else none := by
  simp [windowWord, ha, hv, getElem_eight hi]

theorem Node.shape_fields (nd : Node) :
    nd.shape.getLsbD 26 = nd.leaf ∧ nd.shape.extractLsb' 18 8 = nd.sym ∧ nd.shape.extractLsb' 9 9 = nd.left ∧
    nd.shape.extractLsb' 0 9 = nd.right ∧ nd.shape.extractLsb' 27 5 = 0#5 := by
  have h : ∀ i n, nd.shape.extractLsb' i n =
      (0#5 ++ BitVec.ofBool nd.leaf ++ nd.sym ++ nd.left ++ nd.right).extractLsb' i n := fun _ _ => rfl
  rw [BitVec.getLsbD_eq_extractLsb']
  simp [h, ofBool_beq_one, BitVec.extractLsb'_append_eq_of_le, BitVec.extractLsb'_append_eq_of_add_le, -Nat.reduceAdd]

theorem CodeEntry.head_fields (e : CodeEntry) :
    e.head.getLsbD 8 = e.valid ∧ e.head.extractLsb' 0 8 = BitVec.ofNat 8 e.len ∧ e.head.extractLsb' 9 23 = 0#23 := by
  have h : ∀ i n, e.head.extractLsb' i n = (0#23 ++ BitVec.ofBool e.valid ++ BitVec.ofNat 8 e.len).extractLsb' i n :=
    fun _ _ => rfl
  rw [BitVec.getLsbD_eq_extractLsb']
  simp [h, ofBool_beq_one, BitVec.extractLsb'_append_eq_of_le, BitVec.extractLsb'_append_eq_of_add_le, -Nat.reduceAdd]

/-- R26: code bit `j` is bit `31 - j mod 32` of word `1 + j div 32`. -/
theorem CodeEntry.bitsWord_getLsbD (e : CodeEntry) (j : Nat) :
    (e.bitsWord (j / 32)).getLsbD (31 - j % 32) = e.bits.getD j false := by
  have hlt : 31 - j % 32 < 32 := by omega
  have hj : 32 * (j / 32) + (31 - (31 - j % 32)) = j := by omega
  rw [CodeEntry.bitsWord, BitVec.getLsbD_ofFnLE, dif_pos hlt, hj]

end

/-- The word a read of `TBL_DATA` records: the window's, or a free one (R26, U6). -/
def windowRead (s : State) : Word := (windowWord s).getD (Config.unspecifiedRead s.freeCtr)

theorem windowRead_of_some {s : State} {v : Word} (h : windowWord s = some v) : windowRead s = v := by
  rw [windowRead, h, Option.getD_some]

theorem readReg_tblData (s : State) :
    ∃ n, readReg Reg.tblData s = { s with hostReads := s.hostReads ++ [windowRead s], freeCtr := n } := by
  rw [readReg, if_pos rfl, windowRead]
  rcases windowWord s with _ | v
  · exact ⟨s.freeCtr + 1, rfl⟩
  · exact ⟨s.freeCtr, rfl⟩

/-- Settles O9: the read records `windowRead`, and every clause of R26 is one branch of `windowWord`. -/
theorem windowShowsTheTables : Obligations.WindowShowsTheTables := by
  intro s rest hi hp
  obtain ⟨n, hr⟩ := readReg_tblData (takeAction rest s)
  refine ⟨windowRead s, n, ?_, fun idx word sym hsym => ?_⟩
  · rw [step_read hi (by decide) hp, hr]
    rfl
  subst hsym
  refine ⟨fun ha hv hx => windowRead_of_some (windowWord_freq ha hv hx), fun ha hv hx => ?_, fun ha hv hx => ?_,
    fun ha hv hx => ?_, fun ha h1 h8 hv hx hc j hj => ?_⟩
  · obtain ⟨nd, hn, hw⟩ := windowWord_node ha hv hx
    exact ⟨nd, hn, windowRead_of_some hw⟩
  · obtain ⟨nd, hn, hw⟩ := windowWord_node ha hv hx
    rw [windowRead_of_some hw]
    exact ⟨nd, hn, nd.shape_fields⟩
  · rw [windowRead_of_some (windowWord_code ha hv hx)]
    exact CodeEntry.head_fields _
  · have hne : word ≠ 0 := by rintro rfl; simp at h1
    have hw := windowWord_code ha hv hx
    rw [if_neg hne, if_pos (by simp [hc, h8])] at hw
    rw [windowRead_of_some hw, ← hj, Nat.add_sub_cancel]
    exact CodeEntry.bitsWord_getLsbD _ j

end Sys2Proof.Machine

/-! PROOFS. What a command can do, said once (R31, R131): how its procedure ends, in which state it completes and in which
state it raises its fault; and O15. -/

namespace Sys2Proof.Machine

/-! ## How a procedure ends -/

/-- A procedure that returns does so with `done`; one that raises a fault does so in a state with `failed`, and the fault is not
`BadSequence`, which R134 raises before any procedure runs. -/
def Res.Ends {α : Type} (opc : Opcode) (done : α → State → Prop) (failed : State → Prop) : Res α → Prop
  | .ok a u => done a u
  | .raised t => ∃ k info u, k ≠ .badSequence ∧ failed u ∧ t = raise opc k info u
  | .stuck _ => True

section
variable {α β : Type} {opc : Opcode} {failed : State → Prop}

theorem Res.ends_raise {done : α → State → Prop} {k : FaultKind} (info : Word) {u : State} (hk : k ≠ .badSequence)
    (h : failed u) : (Res.raised (raise opc k info u)).Ends opc done failed := ⟨k, info, u, hk, h, rfl⟩

theorem Res.Ends.bind {mid : α → State → Prop} {done : β → State → Prop} {r : Res α} {k : α → State → Res β}
    (hr : r.Ends opc mid failed) (hk : ∀ a u, mid a u → (k a u).Ends opc done failed) : (r.bind k).Ends opc done failed := by
  cases r with
  | ok a u => exact hk a u hr
  | raised t => exact hr
  | stuck f => trivial

theorem Res.Ends.imp {mid done : α → State → Prop} {failed' : State → Prop} {r : Res α} (hr : r.Ends opc mid failed)
    (hd : ∀ a u, r = .ok a u → mid a u → done a u) (hf : ∀ u, failed u → failed' u) : r.Ends opc done failed' := by
  cases r with
  | ok a u => exact hd a u rfl hr
  | raised t =>
    obtain ⟨k, info, u, hk, hu, ht⟩ := hr
    exact ⟨k, info, u, hk, hf u hu, ht⟩
  | stuck f => trivial

end

/-! ## The procedures, each from a state already `s0` with something appended or read -/

section
variable {s0 s : State}

/-- `u` is `s0` after bits were appended to `BOUT` (R44). -/
def Appended (s0 u : State) : Prop := ∃ p, u = wrote p s0

/-- `u` is `s0` after bits were read from `BIN` and symbols appended to `SOUT` (R42, R43). -/
def Decoded (s0 u : State) : Prop := ∃ n vs, u = emittedAll vs (advanced n s0)

/-- `u` is `s0` after bits were read from `BIN` and entries of `NODE` written (R98). -/
def Loading (s0 u : State) : Prop := ∃ n nodes, u = { advanced n s0 with nodes := nodes }

theorem Appended.refl (s : State) : Appended s s := ⟨[], (wrote_nil s).symm⟩

theorem Appended.wrote (h : Appended s0 s) (p : List Bit) : Appended s0 (Machine.wrote p s) := by
  obtain ⟨q, rfl⟩ := h
  exact ⟨q ++ p, wrote_wrote q p s0⟩

theorem Decoded.refl (s : State) : Decoded s s := ⟨0, [], by simp⟩

theorem Decoded.advanced (h : Decoded s0 s) (m : Nat) : Decoded s0 (Machine.advanced m s) := by
  obtain ⟨n, vs, rfl⟩ := h
  exact ⟨n + m, vs, by rw [advanced_emittedAll, advanced_advanced]⟩

theorem Decoded.emit (h : Decoded s0 s) (e : Option Symbol) : Decoded s0 (Machine.emit e s) := by
  cases e with
  | none => exact h
  | some v =>
    obtain ⟨n, vs, rfl⟩ := h
    exact ⟨n, vs ++ [v], emittedAll_emittedAll vs [v] _⟩

theorem Loading.refl (s : State) : Loading s s := ⟨0, s.nodes, by simp⟩

theorem Loading.advanced (h : Loading s0 s) (m : Nat) : Loading s0 (Machine.advanced m s) := by
  obtain ⟨n, nodes, rfl⟩ := h
  exact ⟨n + m, nodes, by rw [← advanced_advanced]; rfl⟩

theorem Loading.putNode (h : Loading s0 s) (m : Nat) (nd : Node) : Loading s0 (Machine.putNode m nd s) := by
  obtain ⟨n, nodes, rfl⟩ := h
  exact ⟨n, setNodeAt nodes m nd, rfl⟩

/-- R100: `ENCODE` appends bits, also before it faults. -/
theorem encodeSymbols_ends (input : List Symbol) (h : Appended s0 s) :
    (encodeSymbols input s).Ends (opcodeOf .encode) (fun _ => Appended s0) (Appended s0) := by
  induction input generalizing s with
  | nil => exact h
  | cons v rest ih =>
    rw [encodeSymbols]
    split
    · rw [writeBits_eq_wrote]
      exact ih (h.wrote _)
    · exact Res.ends_raise _ (by decide) h

theorem decnEnd_ends (root cur : Handle) (h : Decoded s0 s) :
    (decnEnd root cur s).Ends (opcodeOf .decn) (fun _ => Decoded s0) (Decoded s0) := by
  rw [decnEnd]
  split <;> exact Res.ends_raise _ (by decide) h

/-- R101: `DECN` reads bits and emits symbols, also before it faults. -/
theorem decnLoop_ends (root : Handle) (left : Nat) (cur : Handle) (owed : Nat) (h : Decoded s0 s) :
    (decnLoop root left cur owed s).Ends (opcodeOf .decn) (fun _ => Decoded s0) (Decoded s0) := by
  induction left generalizing cur owed s with
  | zero =>
    rw [decnLoop]
    split
    · exact h
    · exact decnEnd_ends root cur h
  | succ left ih =>
    rw [decnLoop]
    split
    · exact h
    · rcases readBit_cases s with ⟨-, hr⟩ | ⟨-, hr⟩
      · rw [hr]
        exact decnEnd_ends root cur h
      · simp only [hr]
        split
        · trivial
        · exact ih _ _ ((h.advanced 1).emit _)

/-- R102: `DECL` likewise. -/
theorem declLoop_ends (root : Handle) (left : Nat) (cur : Handle) (h : Decoded s0 s) :
    (declLoop root left cur s).Ends (opcodeOf .decl) (fun _ => Decoded s0) (Decoded s0) := by
  induction left generalizing cur s with
  | zero =>
    rw [declLoop]
    split
    · exact h
    · exact Res.ends_raise _ (by decide) h
  | succ left ih =>
    rw [declLoop]
    rcases readBit_cases s with ⟨-, hr⟩ | ⟨-, hr⟩
    · rw [hr]
      exact Res.ends_raise _ (by decide) h
    · simp only [hr]
      split
      · trivial
      · exact ih _ ((h.advanced 1).emit _)

/-- R46: `ReadInt` only reads. -/
theorem readInt_advanced (w : Nat) (s : State) : ∃ o n, readInt w s = (o, advanced n s) := by
  rcases readIntFrom_cases w 0 s with ⟨p, -, -, h⟩ | ⟨p, -, -, h⟩
  · exact ⟨_, _, h⟩
  · exact ⟨_, _, h⟩

/-- R113, R115: the read of a length field clears `LEN_V` and reads. -/
theorem readLength_ends (opc : Opcode) (s : State) :
    (readLength opc s).Ends opc (fun _ u => ∃ n, u = advanced n (clearLen s)) (fun u => ∃ n, u = advanced n (clearLen s)) := by
  obtain ⟨o, n, h⟩ := readInt_advanced Config.lenW (clearLen s)
  rw [readLength, h]
  cases o with
  | none => exact Res.ends_raise _ (by decide) ⟨n, rfl⟩
  | some v => exact ⟨n, rfl⟩

/-! ## The loads (R98) -/

section
variable {opc : Opcode} {bounded : Bool} {start : Nat}

theorem headerBit_ends (h : Loading s0 s) :
    (headerBit opc bounded start s).Ends opc (fun _ => Loading s0) (Loading s0) := by
  rw [headerBit]
  split
  · exact Res.ends_raise _ (by decide) h
  · rcases readBit_cases s with ⟨-, hr⟩ | ⟨-, hr⟩
    · rw [hr]
      exact Res.ends_raise _ (by cases bounded <;> decide) h
    · rw [hr]
      exact h.advanced 1

theorem headerInt_ends (w v : Nat) (h : Loading s0 s) :
    (headerInt opc bounded start w v s).Ends opc (fun _ => Loading s0) (Loading s0) := by
  induction w generalizing v s with
  | zero => exact h
  | succ w ih => exact (headerBit_ends h).bind fun b u hu => ih _ hu

/-- R98: `des()` reads bits and writes nodes, also before it faults. -/
theorem loadNode_ends (d n leaves : Nat) (h : Loading s0 s) :
    (loadNode opc bounded start d n leaves s).Ends opc (fun _ => Loading s0) (Loading s0) := by
  induction d generalizing n leaves s with
  | zero => exact Res.ends_raise _ (by decide) h
  | succ d ih =>
    rw [loadNode]
    split
    · exact Res.ends_raise _ (by decide) h
    · refine (headerBit_ends h).bind fun m u hu => ?_
      split
      · exact (headerInt_ends 8 0 hu).bind fun v u' hu' => hu'.putNode _ _
      · exact (ih _ _ hu).bind fun l u1 h1 => (ih _ _ h1).bind fun r u2 h2 => h2.putNode _ _

/-- R97, R98: a load that returns has read the header of a tree that fits the arena, and has left that tree in preorder. -/
theorem loadTree_ok {u : State} (h : loadTree opc bounded s = .ok () u) :
    ∃ (t : Tree) (nodes : Vector Node 511), t.size ≤ 511 ∧ BinHolds s t.header ∧ LoadedAt nodes 0 511 t ∧
      (bounded = true → s.hdrBits.toNat = t.header.length) ∧
      u = setTreeV { advanced t.header.length (clearTreeCodeLen s) with
        nodes := nodes
        treeInfo := ⟨0, BitVec.ofNat 9 t.size, BitVec.ofNat 9 t.leaves.length⟩ } := by
  have hk0 : Budget bounded (clearTreeCodeLen s).rcur.toNat 0 (clearTreeCodeLen s) := fun _ => ⟨le_refl _, by simp⟩
  rw [loadTree] at h
  rcases hr : loadNode opc bounded (clearTreeCodeLen s).rcur.toNat Config.nodeMax 0 0 (clearTreeCodeLen s)
    with ⟨r, s2⟩ | s2 | f
  · obtain ⟨t, hb, hsz, hk, -, -⟩ := loadNode_ok (Nat.zero_le _) hk0 hr
    rw [Nat.zero_add] at hsz
    obtain ⟨nodes, he, -, hl⟩ := loadNode_header t Config.nodeMax 0 0 _ hsz (by omega) hb hk
    obtain ⟨rfl, hs2⟩ := Res.ok.inj (hr.symm.trans he)
    have hrcur : s2.rcur.toNat = (clearTreeCodeLen s).rcur.toNat + t.header.length := by
      rw [hs2]
      exact hb.rcur_toNat
    have hhdr : s2.hdrBits = s.hdrBits := by rw [hs2]; rfl
    simp only [hr, Res.bind_ok] at h
    split at h
    · cases h
    · next hend =>
      refine ⟨t, nodes, hsz, hb, hl nodes (fun _ _ _ => rfl), fun hbd => ?_, ?_⟩
      · exact Eq.symm (by simpa [hbd, hrcur, hhdr] using hend)
      · rw [← (Res.ok.inj h).2, hs2, Nat.zero_add, Nat.zero_add]
        rfl
  · rw [hr] at h; cases h
  · rw [hr] at h; cases h

theorem loadTree_ends (s : State) :
    (loadTree opc bounded s).Ends opc (fun _ _ => True) (Loading (clearTreeCodeLen s)) := by
  refine (loadNode_ends _ _ _ (Loading.refl _)).bind fun r u hu => ?_
  split
  · exact Res.ends_raise _ (by decide) hu
  · trivial

end
end

/-! ## Every command -/

/-- `Done s i u`: the procedure of command `i`, started in `s`, has returned in `u` (R31 and each command's own rule). -/
inductive Done (s : State) : Instr → State → Prop
  | nop : Done s .nop s
  | count : Done s .count (setFreqV { clearLen s with freq := countAll (inputSymbols s) })
  | build (h : presentSymbols s.freq ≠ []) : Done s .build (finishBuild (clearTreeCodeLen s))
  | gencodes {codes : Vector CodeEntry 256} (h : codeTable s.nodes s.treeInfo.root = .ok codes) :
      Done s .gencodes (setCodeV { clearCodeLen s with codes := codes })
  | calclen {p : Nat} (h : payloadLength s.freq s.codes Config.allSymbols 0 = .ok p) (hp : p < 2 ^ 32) :
      Done s .calclen (setLenV { clearLen s with
        hdrBits := BitVec.ofNat 32 (headerLength s.treeInfo)
        payBits := BitVec.ofNat 32 p })
  | append {i : Instr} (hi : i ∈ [.sttree, .encode, .wrmark, .wrhlen, .wrplen, .pad]) (p : List Bit) : Done s i (wrote p s)
  | load {i : Instr} (hi : i ∈ [.ldtree, .ldtreeb]) (n : Nat) {nodes : Vector Node 511} {info : TreeInfo}
      (h : treeWf nodes info = true) :
      Done s i (setTreeV { advanced n (clearTreeCodeLen s) with nodes := nodes, treeInfo := info })
  | decode {i : Instr} (hi : i ∈ [.decn, .decl]) (n : Nat) (vs : List Symbol) : Done s i (emittedAll vs (advanced n s))
  | rdmark (n : Nat) : Done s .rdmark (advanced n s)
  | rdhlen (n : Nat) (v : Word) : Done s .rdhlen { advanced n (clearLen s) with hdrBits := v }
  | rdplen (n : Nat) (v : Word) : Done s .rdplen { advanced n (clearLen s) with payBits := v }

/-- `Failed s i u`: the procedure of command `i`, started in `s`, has raised its fault in `u` (R131: what it had written
stays). -/
inductive Failed (s : State) : Instr → State → Prop
  | build : Failed s .build (clearTreeCodeLen s)
  | calclen : Failed s .calclen (clearLen s)
  | encode (p : List Bit) : Failed s .encode (wrote p s)
  | load {i : Instr} (hi : i ∈ [.ldtree, .ldtreeb]) (n : Nat) (nodes : Vector Node 511) :
      Failed s i { advanced n (clearTreeCodeLen s) with nodes := nodes }
  | decode {i : Instr} (hi : i ∈ [.decn, .decl]) (n : Nat) (vs : List Symbol) : Failed s i (emittedAll vs (advanced n s))
  | rdmark (n : Nat) : Failed s .rdmark (advanced n s)
  | readLen {i : Instr} (hi : i ∈ [.rdhlen, .rdplen]) (n : Nat) : Failed s i (advanced n (clearLen s))

/-- How the procedure of a command ends: with what `Done` says, or with a fault where `Failed` says. -/
abbrev EndsAs (i : Instr) (s : State) (r : Res Unit) : Prop :=
  r.Ends (opcodeOf i) (fun _ => Done s i) (Failed s i)

section
variable {s : State}

theorem endsAs_decode {i : Instr} {r : Res Unit} (hi : i ∈ [.decn, .decl])
    (h : r.Ends (opcodeOf i) (fun _ => Decoded s) (Decoded s)) : EndsAs i s r := by
  refine h.imp ?_ ?_
  · rintro _ _ - ⟨n, vs, rfl⟩; exact Done.decode hi n vs
  · rintro _ ⟨n, vs, rfl⟩; exact Failed.decode hi n vs

theorem endsAs_load {i : Instr} (bounded : Bool) (hi : i ∈ [.ldtree, .ldtreeb]) :
    EndsAs i s (loadTree (opcodeOf i) bounded s) := by
  refine (loadTree_ends s).imp ?_ ?_
  · rintro _ _ hr -
    obtain ⟨t, nodes, hsz, -, hl, -, rfl⟩ := loadTree_ok hr
    exact Done.load hi _ (hl.treeWf hsz)
  · rintro _ ⟨n, nodes, rfl⟩; exact Failed.load hi n nodes

theorem endsAs_append {i : Instr} (hi : i ∈ [.sttree, .encode, .wrmark, .wrhlen, .wrplen, .pad]) (p : List Bit) :
    EndsAs i s (.ok () (writeBits p s)) := by
  rw [writeBits_eq_wrote]
  exact Done.append hi p

theorem endsAs_encode (input : List Symbol) : EndsAs .encode s (encodeSymbols input s) := by
  refine (encodeSymbols_ends input (Appended.refl s)).imp ?_ ?_
  · rintro _ _ - ⟨p, rfl⟩; exact Done.append (by decide) p
  · rintro _ ⟨p, rfl⟩; exact Failed.encode p

theorem endsAs_readLen {i : Instr} (hi : i ∈ [.rdhlen, .rdplen]) {k : Word → State → Res Unit}
    (hk : ∀ v n, EndsAs i s (k v (advanced n (clearLen s)))) : EndsAs i s ((readLength (opcodeOf i) s).bind k) := by
  have h := (readLength_ends (opcodeOf i) s).imp (failed' := Failed s i) (fun _ _ _ hu => hu)
    (by rintro _ ⟨n, rfl⟩; exact Failed.readLen hi n)
  refine h.bind ?_
  rintro v _ ⟨n, rfl⟩
  exact hk v n

/-- `o` is the outcome of the command `i` in `s`, with a procedure that ends as `Done` and `Failed` say. -/
def RunsAs (i : Instr) (s : State) (o : Outcome) : Prop :=
  ∃ body, o = command i body s ∧ EndsAs i (accept s) (body (accept s))

theorem runsAs_command {i : Instr} {body : State → Res Unit} (h : EndsAs i (accept s) (body (accept s))) :
    RunsAs i s (command i body s) := ⟨body, rfl, h⟩

theorem execBuild_runsAs : RunsAs .build s (execBuild s) := by
  rw [execBuild]
  refine runsAs_command ?_
  dsimp only
  split
  · exact Res.ends_raise _ (by decide) Failed.build
  · next h => exact Done.build (fun he => h (by simpa using he))

theorem execGencodes_runsAs : RunsAs .gencodes s (execGencodes s) := by
  rw [execGencodes]
  refine runsAs_command ?_
  dsimp only
  split
  · trivial
  · next hc => exact Done.gencodes hc

theorem execCalclen_runsAs : RunsAs .calclen s (execCalclen s) := by
  rw [execCalclen]
  refine runsAs_command ?_
  dsimp only
  split
  · exact Res.ends_raise _ (by decide) Failed.calclen
  · next p hp =>
    split
    · exact Res.ends_raise _ (by decide) Failed.calclen
    · next hlt => exact Done.calclen hp (Nat.not_le.mp hlt)

theorem execSttree_runsAs : RunsAs .sttree s (execSttree s) := by
  rw [execSttree]
  refine runsAs_command ?_
  split
  · trivial
  · exact endsAs_append (by decide) _

theorem execRdmark_runsAs : RunsAs .rdmark s (execRdmark s) := by
  rw [execRdmark]
  refine runsAs_command ?_
  obtain ⟨o, n, h⟩ := readInt_advanced (accept s).marker.width (accept s)
  rw [h]
  cases o with
  | none => exact Res.ends_raise _ (by decide) (Failed.rdmark n)
  | some v =>
    dsimp only
    split
    · exact Done.rdmark n
    · exact Res.ends_raise _ (by decide) (Failed.rdmark n)

/-- Every command but `RST` runs as `Done` and `Failed` say. -/
theorem exec_runsAs {i : Instr} (hi : i ≠ .rst) : RunsAs i s (exec i s) := by
  cases i with
  | nop => rw [exec, execNop]; exact runsAs_command Done.nop
  | rst => exact absurd rfl hi
  | count => rw [exec, execCount]; exact runsAs_command Done.count
  | build => exact execBuild_runsAs
  | gencodes => exact execGencodes_runsAs
  | calclen => exact execCalclen_runsAs
  | sttree => exact execSttree_runsAs
  | ldtree => rw [exec, execLdtree]; exact runsAs_command (endsAs_load false (by decide))
  | ldtreeb => rw [exec, execLdtreeb]; exact runsAs_command (endsAs_load true (by decide))
  | encode => rw [exec, execEncode]; exact runsAs_command (endsAs_encode _)
  | decn =>
    rw [exec, execDecn]
    exact runsAs_command (endsAs_decode (by decide) (decnLoop_ends _ _ _ _ (Decoded.refl _)))
  | decl =>
    rw [exec, execDecl]
    exact runsAs_command (endsAs_decode (by decide) (declLoop_ends _ _ _ (Decoded.refl _)))
  | wrmark => rw [exec, execWrmark]; exact runsAs_command (endsAs_append (by decide) _)
  | rdmark => exact execRdmark_runsAs
  | wrhlen => rw [exec, execWrhlen]; exact runsAs_command (endsAs_append (by decide) _)
  | rdhlen =>
    rw [exec, execRdhlen]
    exact runsAs_command (endsAs_readLen (by decide) fun v n => Done.rdhlen n v)
  | wrplen => rw [exec, execWrplen]; exact runsAs_command (endsAs_append (by decide) _)
  | rdplen =>
    rw [exec, execRdplen]
    exact runsAs_command (endsAs_readLen (by decide) fun v n => Done.rdplen n v)
  | pad => rw [exec, execPad]; exact runsAs_command (endsAs_append (by decide) _)

/-- While a fault is recorded every command but `RST` is ignored (R132). -/
theorem exec_faulted {i : Instr} (hi : i ≠ .rst) (hf : s.status.fault = true) : exec i s = .next s := by
  obtain ⟨body, hb, -⟩ := exec_runsAs (s := s) hi
  rw [hb, command_faulted i body s hf]

/-- A command without its precondition raises `BadSequence` (R31, R134). -/
theorem exec_missing {i : Instr} (hi : i ≠ .rst) (hf : s.status.fault = false) (hp : precondition i s.status = false) :
    exec i s = .next (raise (opcodeOf i) .badSequence 0 s) := by
  obtain ⟨body, hb, -⟩ := exec_runsAs (s := s) hi
  rw [hb, command_missing i body s hf hp]

/-- What a command that answers has done: it was `RST`, was ignored, lacked its precondition, completed, or raised a fault of
its own. -/
inductive Executed (s : State) (i : Instr) : State → Prop
  | rst (hi : i = .rst) : Executed s i (softReset s)
  | ignored (hi : i ≠ .rst) (hf : s.status.fault = true) : Executed s i s
  | missing (hi : i ≠ .rst) (hf : s.status.fault = false) (hp : precondition i s.status = false) :
      Executed s i (raise (opcodeOf i) .badSequence 0 s)
  | completed (hi : i ≠ .rst) (hf : s.status.fault = false) (hp : precondition i s.status = true) {u : State}
      (hd : Done (accept s) i u) : Executed s i (complete u)
  | raised (hi : i ≠ .rst) (hf : s.status.fault = false) (hp : precondition i s.status = true) {u : State}
      (hu : Failed (accept s) i u) {k : FaultKind} (hk : k ≠ .badSequence) (info : Word) :
      Executed s i (raise (opcodeOf i) k info u)

theorem exec_executed {i : Instr} {t : State} (h : exec i s = .next t) : Executed s i t := by
  by_cases hi : i = .rst
  · subst hi
    cases h
    exact .rst rfl
  · obtain ⟨body, hb, hends⟩ := exec_runsAs (s := s) hi
    rw [hb] at h
    rcases command_cases h with ⟨hf, rfl⟩ | ⟨hf, hp, rfl⟩ | ⟨hf, hp, ⟨u, hr, rfl⟩ | hr⟩
    · exact .ignored hi hf
    · exact .missing hi hf hp
    · rw [hr] at hends
      exact .completed hi hf hp hends
    · rw [hr] at hends
      obtain ⟨k, info, u, hk, hu, rfl⟩ := hends
      exact .raised hi hf hp hu hk info

end

/-- Settles O15: none of these commands is `RST`, and each lacks its precondition (R31). -/
theorem missingPreconditionRaisesBadSequence : Obligations.MissingPreconditionRaisesBadSequence := by
  intro s i hf h
  have hpre : i ≠ .rst ∧ precondition i s.status = false := by
    rcases h with ⟨rfl, h⟩ | ⟨rfl, h⟩ | ⟨rfl, h | h | h⟩ | ⟨rfl, h⟩ | ⟨rfl, h⟩ | ⟨rfl, h⟩ | ⟨rfl, h⟩ | ⟨rfl, h⟩ |
      ⟨rfl, h⟩ <;> simp [precondition, h]
  have hopc : (Sys2Proof.encode i).extractLsb' 0 8 = opcodeOf i := by cases i <;> decide
  rw [exec_missing hpre.1 hf hpre.2, hopc]
  rfl

end Sys2Proof.Machine

/-! PROOFS. What a command leaves unchanged, what it appends, and the valid bits it leaves (R31): O52, O53, O54. -/

namespace Sys2Proof.Machine

/-! ## The frame of a command -/

/-- What command `i` may have written when it has led from `s` to `u` (R15 to R30, R35), `STATUS` and the fault record apart. -/
structure Frame (i : Instr) (s u : State) : Prop where
  freq : i ≠ .count → u.freq = s.freq
  tree : i ∉ [.build, .ldtree, .ldtreeb] → u.nodes = s.nodes ∧ u.treeInfo = s.treeInfo
  codes : i ≠ .gencodes → u.codes = s.codes
  host : u.sinLen = s.sinLen ∧ u.binLen = s.binLen ∧ u.symCount = s.symCount ∧ u.tblAddr = s.tblAddr
  hdrBits : i ≠ .calclen → i ≠ .rdhlen → u.hdrBits = s.hdrBits
  payBits : i ≠ .calclen → i ≠ .rdplen → u.payBits = s.payBits
  rcur : i ∉ [.ldtree, .ldtreeb, .decn, .decl, .rdmark, .rdhlen, .rdplen] → u.rcur = s.rcur
  inputs : u.sin = s.sin ∧ u.bin = s.bin ∧ u.marker = s.marker ∧ u.program = s.program ∧ u.hostReads = s.hostReads
  bits : ∃ p : List Bit, u.bout = s.bout ++ p ∧ u.wcnt = s.wcnt + BitVec.ofNat 32 p.length ∧
    (i ∉ [.sttree, .encode, .wrmark, .wrhlen, .wrplen, .pad] → p = [])
  symbols : ∃ vs : List Symbol, u.sout = s.sout ++ vs ∧ u.soutCnt = s.soutCnt + BitVec.ofNat 32 vs.length ∧
    (i ≠ .decn → i ≠ .decl → vs = [])
  freeCtr : u.freeCtr = s.freeCtr

section
variable {i : Instr} {s u : State}

theorem Frame.refl (i : Instr) (s : State) : Frame i s s where
  freq _ := rfl
  tree _ := ⟨rfl, rfl⟩
  codes _ := rfl
  host := ⟨rfl, rfl, rfl, rfl⟩
  hdrBits _ _ := rfl
  payBits _ _ := rfl
  rcur _ := rfl
  inputs := ⟨rfl, rfl, rfl, rfl, rfl⟩
  bits := ⟨[], by simp⟩
  symbols := ⟨[], by simp⟩
  freeCtr := rfl

theorem Frame.wrote (hi : i ∈ [.sttree, .encode, .wrmark, .wrhlen, .wrplen, .pad]) (p : List Bit) (s : State) :
    Frame i s (Machine.wrote p s) :=
  { Frame.refl i s with bits := ⟨p, rfl, rfl, fun h => absurd hi h⟩ }

theorem Frame.decoded (hi : i ∈ [.decn, .decl]) (n : Nat) (vs : List Symbol) (s : State) :
    Frame i s (emittedAll vs (advanced n s)) :=
  { Frame.refl i s with
    rcur := fun h => absurd (by rcases List.mem_pair.mp hi with rfl | rfl <;> decide) h
    symbols := ⟨vs, rfl, rfl, fun h1 h2 => by simp [h1, h2] at hi⟩ }

/-- R31: the column "writes" of a command that completes. -/
theorem Done.frame (h : Done s i u) : Frame i s u := by
  cases h with
  | nop => exact Frame.refl _ s
  | count => exact { Frame.refl .count s with freq := fun h => absurd rfl h }
  | build => exact { Frame.refl .build s with tree := fun h => absurd (by decide) h }
  | gencodes => exact { Frame.refl .gencodes s with codes := fun h => absurd rfl h }
  | calclen =>
    exact { Frame.refl .calclen s with hdrBits := fun h => absurd rfl h, payBits := fun h => absurd rfl h }
  | append hi p => exact Frame.wrote hi p s
  | load hi n =>
    exact { Frame.refl i s with
      tree := fun h => absurd (List.mem_cons_of_mem _ hi) h
      rcur := fun h => absurd (List.mem_append_left _ hi) h }
  | decode hi n vs => exact Frame.decoded hi n vs s
  | rdmark n => exact { Frame.refl .rdmark s with rcur := fun h => absurd (by decide) h }
  | rdhlen n v =>
    exact { Frame.refl .rdhlen s with rcur := fun h => absurd (by decide) h, hdrBits := fun _ h => absurd rfl h }
  | rdplen n v =>
    exact { Frame.refl .rdplen s with rcur := fun h => absurd (by decide) h, payBits := fun _ h => absurd rfl h }

theorem Failed.frame (h : Failed s i u) : Frame i s u := by
  cases h with
  | build => exact { Frame.refl .build s with }
  | calclen => exact { Frame.refl .calclen s with }
  | encode p => exact Frame.wrote (by decide) p s
  | load hi n nodes =>
    exact { Frame.refl i s with
      tree := fun h => absurd (List.mem_cons_of_mem _ hi) h
      rcur := fun h => absurd (List.mem_append_left _ hi) h }
  | decode hi n vs => exact Frame.decoded hi n vs s
  | rdmark n => exact { Frame.refl .rdmark s with rcur := fun h => absurd (by decide) h }
  | readLen hi n =>
    exact { Frame.refl i s with
      rcur := fun h => absurd (List.mem_append_right ([.ldtree, .ldtreeb, .decn, .decl, .rdmark] : List Instr) hi) h }

theorem Frame.complete (h : Frame i (accept s) u) : Frame i s (Machine.complete u) := { h with }

theorem Frame.raise (h : Frame i (accept s) u) (opc : Opcode) (k : FaultKind) (info : Word) :
    Frame i s (Machine.raise opc k info u) := { h with }

theorem exec_frame (hi : i ≠ .rst) (h : exec i s = .next u) : Frame i s u := by
  cases exec_executed h with
  | rst hr => exact absurd hr hi
  | ignored => exact Frame.refl i s
  | missing => exact (Frame.refl i (accept s)).raise _ _ _
  | completed _ _ _ hd => exact hd.frame.complete
  | raised _ _ _ hu => exact hu.frame.raise _ _ _

/-! ## The fault record -/

theorem Done.record (h : Done s i u) :
    u.status.fault = s.status.fault ∧ u.err = s.err ∧ u.errInfo = s.errInfo := by
  cases h <;> exact ⟨rfl, rfl, rfl⟩

/-- The record is written only by the fault that sets `FAULT` (R15, R16). -/
theorem exec_record (hi : i ≠ .rst) (h : exec i s = .next u) (hf : u.status.fault = s.status.fault) :
    u.err = s.err ∧ u.errInfo = s.errInfo := by
  cases exec_executed h with
  | rst hr => exact absurd hr hi
  | ignored => exact ⟨rfl, rfl⟩
  | missing _ hs => rw [hs] at hf; cases hf
  | completed _ _ _ hd => exact hd.record.2
  | raised _ hs => rw [hs] at hf; cases hf

end

/-- Settles O52: the frame of the command, and `exec_record` for `ERR` and `ERRINFO`. -/
theorem stateIsWrittenOnlyByItsCommands : Obligations.StateIsWrittenOnlyByItsCommands := by
  intro s t i h hi
  have hf := exec_frame hi h
  obtain ⟨p, -, hw, hp⟩ := hf.bits
  obtain ⟨vs, -, hc, hvs⟩ := hf.symbols
  obtain ⟨h1, h2, h3, h4⟩ := hf.host
  exact ⟨hf.freq, hf.tree, hf.codes, h1, h2, h3, h4, hf.hdrBits, hf.payBits, hf.rcur,
    fun hn => by simpa [hp hn] using hw, fun hn hl => by simpa [hvs hn hl] using hc, exec_record hi h, hf.freeCtr⟩

/-- Settles O53: `RST` leaves the streams alone, every other command appends as its frame says. -/
theorem streamsAreOnlyAppendedTo : Obligations.StreamsAreOnlyAppendedTo := by
  intro s t i h
  by_cases hi : i = .rst
  · subst hi
    cases h
    exact ⟨rfl, rfl, rfl, rfl, rfl, [], [], (List.append_nil _).symm, (List.append_nil _).symm, fun _ => rfl,
      fun _ _ => rfl, fun hn => absurd rfl hn⟩
  · have hf := exec_frame hi h
    obtain ⟨p, hb, hw, hp⟩ := hf.bits
    obtain ⟨vs, hs, hc, hvs⟩ := hf.symbols
    obtain ⟨h1, h2, h3, h4, h5⟩ := hf.inputs
    exact ⟨h1, h2, h3, h4, h5, p, vs, hb, hs, hp, hvs, fun _ => ⟨hw, hc⟩⟩

/-! ## The valid bits (R31) -/

/-- R31: the columns "sets" and "clears", of a command that completes. -/
theorem Done.validBits {i : Instr} {s u : State} (h : Done s i u) (hi : i ≠ .rst) :
    u.status.freqV = (if i = .rst then false else if i = .count then true else s.status.freqV) ∧
    u.status.treeV = (if i = .rst then false else if i ∈ [.build, .ldtree, .ldtreeb] then true else s.status.treeV) ∧
    u.status.codeV = (if i ∈ [.rst, .build, .ldtree, .ldtreeb] then false else if i = .gencodes then true
      else s.status.codeV) ∧
    u.status.lenV = (if i ∈ [.rst, .count, .build, .gencodes, .ldtree, .ldtreeb, .rdhlen, .rdplen] then false
      else if i = .calclen then true else s.status.lenV) := by
  cases h with
  | append hi p =>
    simp only [List.mem_cons, List.not_mem_nil, or_false] at hi
    rcases hi with rfl | rfl | rfl | rfl | rfl | rfl <;> simp
  | load hi n => rcases List.mem_pair.mp hi with rfl | rfl <;> simp
  | decode hi n vs => rcases List.mem_pair.mp hi with rfl | rfl <;> simp
  | build => simp [finishBuild]
  | _ => simp

/-- R31: the column "clears on a fault". -/
theorem Failed.validBits {i : Instr} {s u : State} (h : Failed s i u) :
    i ∉ [.nop, .rst, .count, .wrmark, .pad] ∧ u.status.freqV = s.status.freqV ∧
    u.status.treeV = (if i ∈ [.build, .ldtree, .ldtreeb] then false else s.status.treeV) ∧
    u.status.codeV = (if i ∈ [.build, .ldtree, .ldtreeb] then false else s.status.codeV) ∧
    u.status.lenV = (if i ∈ [.build, .ldtree, .ldtreeb, .calclen, .rdhlen, .rdplen] then false else s.status.lenV) := by
  cases h with
  | load hi n => rcases List.mem_pair.mp hi with rfl | rfl <;> simp
  | decode hi n vs => rcases List.mem_pair.mp hi with rfl | rfl <;> simp
  | readLen hi n => rcases List.mem_pair.mp hi with rfl | rfl <;> simp
  | _ => simp

theorem not_mem_of_missing {i : Instr} {st : Status} (h : precondition i st = false) :
    i ∉ [.nop, .rst, .count, .wrmark, .pad] := by
  intro hi
  simp only [List.mem_cons, List.not_mem_nil, or_false] at hi
  rcases hi with rfl | rfl | rfl | rfl | rfl <;> cases h

/-- Settles O54: the four ways a command that is not ignored can end. -/
theorem validBitsFollowTheTable : Obligations.ValidBitsFollowTheTable := by
  intro s t i hf h
  cases exec_executed h with
  | rst hi =>
    subst hi
    exact ⟨fun _ => ⟨rfl, rfl, rfl, rfl, rfl⟩, fun ht => (by cases ht)⟩
  | ignored _ ht => rw [hf] at ht; cases ht
  | missing _ _ hp =>
    exact ⟨fun ht => (by cases ht), fun _ => ⟨rfl, not_mem_of_missing hp, rfl, fun _ => ⟨rfl, rfl, rfl⟩,
      fun hk => absurd rfl hk⟩⟩
  | completed hi _ _ hd =>
    refine ⟨fun _ => ⟨rfl, hd.validBits hi⟩, fun ht => ?_⟩
    have hu : (complete _).status.fault = s.status.fault := hd.record.1
    rw [hu, hf] at ht
    cases ht
  | raised _ _ _ hu hk =>
    obtain ⟨hn, hfreq, htree, hcode, hlen⟩ := hu.validBits
    exact ⟨fun ht => (by cases ht), fun _ => ⟨rfl, hn, hfreq, fun hb => absurd (Option.some.inj hb) hk,
      fun _ => ⟨htree, hcode, hlen⟩⟩⟩

end Sys2Proof.Machine

/-! PROOFS. The tree that `BUILD` leaves (R29, R81, R83, R84): O22, O23. -/

namespace Sys2Proof.Machine

/-- The values of a list by index are the values of its elements in order. -/
theorem map_range_length {α β : Type} {l : List α} {g : Nat → β} {f : α → β}
    (h : ∀ j (hj : j < l.length), g j = f l[j]) : (List.range l.length).map g = l.map f :=
  List.ext_getElem (by simp) fun j h1 h2 => by simp [h j (by simpa using h2)]

theorem toNat_ofNat_nine {j : Nat} (h : j < 512) : (BitVec.ofNat 9 j).toNat = j := by
  rw [BitVec.toNat_ofNat, Nat.mod_eq_of_lt h]

theorem handles_nodup {n : Nat} (h : n ≤ 511) : ((List.range n).map (BitVec.ofNat 9)).Nodup :=
  List.Nodup.map_on (fun x hx y hy e => by
    rw [List.mem_range] at hx hy
    rw [← toNat_ofNat_nine (show x < 512 by omega), e, toNat_ofNat_nine (by omega)]) List.nodup_range

/-! ## The forest at the end of the loop -/

section
variable {k : Nat} {f : Forest}

theorem ForestOk.isLeaf (hf : ForestOk k f) {j : Nat} (hj : j < f.n) :
    ∃ nd, f.nodes[j]? = some nd ∧ nd.leaf = decide (j < k) := by
  obtain ⟨nd, hn, -⟩ := hf.down j hj
  exact ⟨nd, hn, by simpa using Bool.eq_iff_iff.mpr ((hf.leaf j nd hj hn).trans (by simp))⟩

/-- R29 item 2. -/
theorem ForestOk.nodeOk (hf : ForestOk k f) {j : Nat} (hj : j < f.n) : Machine.nodeOk f.nodes f.n j = true := by
  obtain ⟨nd, hn, hl | ⟨hl, h1, h2, h3⟩⟩ := hf.down j hj
  · obtain ⟨h1, h2⟩ := hf.nil j nd ((hf.leaf j nd hj hn).mp hl) hn
    simp [Machine.nodeOk, hn, hl, h1, h2]
  · simp [Machine.nodeOk, hn, hl, h3, Nat.lt_trans h1 hj, Nat.lt_trans h2 hj]

theorem ForestOk.leafCount (hf : ForestOk k f) : ((List.range f.n).filter (leafAtIndex f.nodes)).length = k := by
  have hlow := hf.low
  have hleaf : ∀ j, j < f.n → leafAtIndex f.nodes j = decide (j < k) := fun j hj => by
    obtain ⟨nd, hn, hl⟩ := hf.isLeaf hj
    rw [leafAtIndex, hn]
    exact hl
  obtain ⟨m, hm⟩ : ∃ m, f.n = k + m := ⟨f.n - k, by omega⟩
  rw [hm, List.range_add, List.filter_append, List.filter_eq_self.mpr, List.filter_eq_nil_iff.mpr]
  · simp
  · intro j hj
    obtain ⟨i, hi, rfl⟩ := List.mem_map.mp hj
    rw [List.mem_range] at hi
    simp [hleaf (k + i) (by omega)]
  · intro j hj
    rw [List.mem_range] at hj
    simp [hleaf j (by omega), hj]

/-- One tree is left when the loop has made `2k - 1` nodes, and its walk meets every node once (R29 item 3). -/
theorem ForestOk.root (hf : ForestOk k f) (hk : 1 ≤ k) (hn : f.n = 2 * k - 1) :
    ∃ root hs, f.queue = [root] ∧ root.toNat < f.n ∧ handlesFrom f.nodes Config.nodeMax root = some hs ∧
      hs.Perm ((List.range f.n).map (BitVec.ofNat 9)) := by
  have hcount := hf.count
  obtain ⟨root, hq⟩ := List.length_eq_one_iff.mp (show f.queue.length = 1 by omega)
  have hlt := hf.small root (by simp [hq])
  have hcap := hf.cap
  obtain ⟨hs, he⟩ := hf.down.handles root hlt
  have he' := handlesFrom_mono (e := Config.nodeMax) (by simp only [Config.nodeMax]; omega) he
  have hparts := hf.parts
  simp only [hq, List.flatMap_cons, List.flatMap_nil, he', Option.getD_some, List.append_nil] at hparts
  exact ⟨root, hs, hq, hlt, he', hparts⟩

theorem ForestOk.treeWf (hf : ForestOk k f) (hk : 1 ≤ k) (hn : f.n = 2 * k - 1) :
    Machine.treeWf f.nodes ⟨f.queue.headD Config.nil, BitVec.ofNat 9 f.n, BitVec.ofNat 9 k⟩ = true := by
  have hcap := hf.cap
  obtain ⟨root, hs, hq, hlt, he, hp⟩ := hf.root hk hn
  have hone : oneTree f.nodes ⟨root, BitVec.ofNat 9 f.n, BitVec.ofNat 9 k⟩ = true := by
    have hnd := hp.nodup_iff.mpr (handles_nodup hcap)
    have hlen : hs.length = f.n := by simpa using hp.length_eq
    have hall : ∀ h ∈ hs, h.toNat < f.n := fun h hh => by
      obtain ⟨j, hj, rfl⟩ := List.mem_map.mp (hp.mem_iff.mp hh)
      rw [List.mem_range] at hj
      rwa [toNat_ofNat_nine (by omega)]
    simp only [oneTree, he, toNat_ofNat_nine (show f.n < 512 by omega), hnd, hlen, decide_true, Bool.true_and,
      List.all_eq_true, decide_eq_true_eq]
    exact hall
  simp only [Machine.treeWf, hq, List.headD_cons, toNat_ofNat_nine (show f.n < 512 by omega),
    toNat_ofNat_nine (show k < 512 by omega), hone, hf.leafCount, Bool.and_true, Bool.and_eq_true, decide_eq_true_eq,
    List.all_eq_true, List.mem_range, decide_true]
  exact ⟨⟨⟨by omega, hlt⟩, fun j hj => hf.nodeOk hj⟩, hn⟩

end

/-! ## What `BUILD` completes with -/

section
variable {freq : Vector Word 256} {nodes : Vector Node 511}

theorem presentSymbols_nodup (freq : Vector Word 256) : (presentSymbols freq).Nodup := allSymbols_nodup.filter _

theorem mem_presentSymbols {v : Symbol} : v ∈ presentSymbols freq ↔ 0 < (freqAt freq v).toNat := by
  simp [presentSymbols, mem_allSymbols]

theorem buildForest_treeWf (h : presentSymbols freq ≠ []) :
    treeWf (buildForest freq nodes).nodes ⟨(buildForest freq nodes).queue.headD Config.nil,
      BitVec.ofNat 9 (buildForest freq nodes).n, BitVec.ofNat 9 (presentSymbols freq).length⟩ = true := by
  obtain ⟨hf, -, hn⟩ := buildForest_ok freq nodes h
  exact hf.treeWf (List.length_pos_iff.mpr h) hn

/-- The leaves of the seed are still there at the end (R81). -/
theorem buildForest_leaf (j : Nat) (hj : j < (presentSymbols freq).length) :
    (buildForest freq nodes).nodes[j]? =
      some (leafNode (presentSymbols freq)[j] (freqAt freq (presentSymbols freq)[j])) := by
  have hm : (presentSymbols freq).length - 1 < (seedForest freq nodes).queue.length := by
    simp only [seedForest, List.length_map, List.length_range]
    omega
  rw [buildForest, (ForestOk.seed freq nodes).mergeTimes_getElem? (presentSymbols_length freq) _ hm j hj]
  exact seedForest_leaf freq nodes j hj

/-- The symbol a handle of the arena carries, if it is a leaf. -/
def leafSymbol (nodes : Vector Node 511) (h : Handle) : Option Symbol :=
  (nodeAt nodes h).bind fun nd => if nd.leaf then some nd.sym else none

theorem leafSymbol_ofNat (nodes : Vector Node 511) {j : Nat} (hj : j < 512) :
    leafSymbol nodes (BitVec.ofNat 9 j) = nodes[j]?.bind fun nd => if nd.leaf then some nd.sym else none := by
  rw [leafSymbol, nodeAt, toNat_ofNat_nine hj]

/-- The leaf symbols of the arena in handle order are the symbols of the map (R81). -/
theorem buildForest_leafSymbols (h : presentSymbols freq ≠ []) :
    ((List.range (buildForest freq nodes).n).map (BitVec.ofNat 9)).filterMap (leafSymbol (buildForest freq nodes).nodes) =
      presentSymbols freq := by
  obtain ⟨hf, -, -⟩ := buildForest_ok freq nodes h
  have hlow := hf.low
  have hcap := hf.cap
  obtain ⟨m, hm⟩ : ∃ m, (buildForest freq nodes).n = (presentSymbols freq).length + m := Nat.exists_eq_add_of_le hlow
  rw [hm, List.range_add, List.map_append, List.filterMap_append]
  have hleaves : ((List.range (presentSymbols freq).length).map (BitVec.ofNat 9)).filterMap
      (leafSymbol (buildForest freq nodes).nodes) = presentSymbols freq := by
    have hmap : (List.range (presentSymbols freq).length).map
        (fun j => leafSymbol (buildForest freq nodes).nodes (BitVec.ofNat 9 j)) = (presentSymbols freq).map some :=
      map_range_length fun j hj => by
        rw [leafSymbol_ofNat _ (by omega), buildForest_leaf j hj]
        rfl
    have hid := congrArg (List.filterMap id) hmap
    rw [List.filterMap_map, List.filterMap_map] at hid
    rw [List.filterMap_map]
    simpa using hid
  have hhigh : (((List.range m).map ((presentSymbols freq).length + ·)).map (BitVec.ofNat 9)).filterMap
      (leafSymbol (buildForest freq nodes).nodes) = [] := by
    rw [List.filterMap_eq_nil_iff]
    intro x hx
    obtain ⟨j, hj, rfl⟩ := List.mem_map.mp hx
    obtain ⟨i, hi, rfl⟩ := List.mem_map.mp hj
    rw [List.mem_range] at hi
    obtain ⟨nd, hn, hl⟩ := hf.isLeaf (show (presentSymbols freq).length + i < _ by omega)
    rw [leafSymbol_ofNat _ (by omega), hn]
    simp [hl]
  rw [hleaves, hhigh, List.append_nil]

/-- R29, R84: the tree that `BUILD` leaves has the symbols of the map as its leaves, each once. -/
theorem buildForest_leaves (h : presentSymbols freq ≠ []) :
    ∃ tree, treeOf (buildForest freq nodes).nodes Config.nodeMax ((buildForest freq nodes).queue.headD Config.nil) =
      some tree ∧ tree.leaves.Perm (presentSymbols freq) := by
  obtain ⟨hf, -, hn⟩ := buildForest_ok freq nodes h
  obtain ⟨root, hs, hq, -, he, hp⟩ := hf.root (List.length_pos_iff.mpr h) hn
  rw [hq, List.headD_cons]
  obtain ⟨tree, ht⟩ : ∃ tree, treeOf (buildForest freq nodes).nodes Config.nodeMax root = some tree := by
    rw [← Option.isSome_iff_exists, ← handlesFrom_isSome_iff, he]
    rfl
  refine ⟨tree, ht, ?_⟩
  rw [leaves_of_handles he ht, ← buildForest_leafSymbols (nodes := nodes) h]
  exact hp.filterMap _

end

/-- R81: a `BUILD` that completes has found a symbol in the map, and has written its forest. -/
theorem execBuild_completed {s t : State} (hf : s.status.fault = false) (h : exec .build s = .next t)
    (ht : t.status.fault = false) :
    presentSymbols s.freq ≠ [] ∧ t = complete (finishBuild (clearTreeCodeLen s)) := by
  cases exec_executed h with
  | rst hi => cases hi
  | ignored _ hs => rw [hf] at hs; cases hs
  | missing => cases ht
  | raised => cases ht
  | completed _ _ _ hd =>
    cases hd with
    | build hne => exact ⟨hne, rfl⟩
    | append hi => simp at hi
    | load hi => simp at hi
    | decode hi => simp at hi

/-- Settles O22: the tree of `finishBuild`. -/
theorem buildMakesAWellFormedTree : Obligations.BuildMakesAWellFormedTree := by
  intro s t hf _ h ht
  obtain ⟨hne, rfl⟩ := execBuild_completed hf h ht
  obtain ⟨tree, htree, hleaves⟩ := buildForest_leaves (nodes := s.nodes) hne
  refine ⟨buildForest_treeWf hne, tree, htree, hleaves.nodup_iff.mpr (presentSymbols_nodup _), fun v => ?_⟩
  rw [hleaves.mem_iff, mem_presentSymbols]

/-! ## Weights (R83) -/

theorem weightAt_congr {nodes nodes' : Vector Node 511} {h : Handle} (hag : nodes'[h.toNat]? = nodes[h.toNat]?) :
    weightAt nodes' h = weightAt nodes h := by
  rw [weightAt, weightAt, nodeAt, nodeAt, hag]

/-- Between two turns of the loop of R81: the queue weighs `total`, and every internal node the sum of its children. -/
structure WeightLog (total : Nat) (f : Forest) : Prop where
  sum : (f.queue.map (weightAt f.nodes)).sum = total
  inner : ∀ (j : Nat) (nd : Node), j < f.n → f.nodes[j]? = some nd → nd.leaf = false →
    nd.weight.toNat = weightAt f.nodes nd.left + weightAt f.nodes nd.right

section
variable {k total : Nat} {f : Forest}

theorem WeightLog.mergeOnce (hl : WeightLog total f) (hf : ForestOk k f) (hk : k ≤ 256) (hq : 2 ≤ f.queue.length)
    (ht : total < 2 ^ 32) : WeightLog total (Machine.mergeOnce f) := by
  obtain ⟨-, hn', hag, -⟩ := hf.mergeOnce hk hq
  obtain ⟨a, b, q, pq, -, -, hn, ha, hb, hm⟩ := mergeOnce_eq hf hk hq
  have hold : ∀ h : Handle, h.toNat < f.n → weightAt (Machine.mergeOnce f).nodes h = weightAt f.nodes h :=
    fun h hh => weightAt_congr (hag _ hh)
  have hnew : (Machine.mergeOnce f).nodes[f.n]? =
      some (innerNode (BitVec.ofNat 32 (weightAt f.nodes a + weightAt f.nodes b)) a b) := by
    rw [hm, setNodeAt_getElem? _ _ _ _ hn, if_pos rfl]
  have hsum : weightAt f.nodes a + (weightAt f.nodes b + (q.map (weightAt f.nodes)).sum) = total := by
    rw [← hl.sum, (pq.map _).sum_eq]
    simp
  -- The sum of the two weights is part of the total, so it does not wrap.
  have hfit : (BitVec.ofNat 32 (weightAt f.nodes a + weightAt f.nodes b)).toNat =
      weightAt f.nodes a + weightAt f.nodes b := by
    rw [BitVec.toNat_ofNat, Nat.mod_eq_of_lt (by omega)]
  refine ⟨?_, fun j nd hj hnd hleaf => ?_⟩
  · have hqold : q.map (weightAt (Machine.mergeOnce f).nodes) = q.map (weightAt f.nodes) :=
      List.map_congr_left fun h hh => hold h (hf.small h (pq.mem_iff.mpr (by simp [hh])))
    have hwnew : weightAt (Machine.mergeOnce f).nodes (BitVec.ofNat 9 f.n) =
        weightAt f.nodes a + weightAt f.nodes b := by
      rw [weightAt, nodeAt_ofNat _ _ (by omega), hnew]
      exact hfit
    have hqueue : (Machine.mergeOnce f).queue = q ++ [BitVec.ofNat 9 f.n] := by rw [hm]
    rw [hqueue, List.map_append, List.sum_append, hqold, List.map_singleton, List.sum_singleton, hwnew]
    omega
  · rw [hn'] at hj
    rcases Nat.lt_or_ge j f.n with hlt | hge
    · rw [hag j hlt] at hnd
      obtain ⟨nd', hnd', hd | ⟨-, h1, h2, -⟩⟩ := hf.down j hlt
      · rw [hnd] at hnd'; cases hnd'; rw [hleaf] at hd; cases hd
      · rw [hnd] at hnd'; cases hnd'
        rw [hl.inner j nd hlt hnd hleaf, hold _ (by omega), hold _ (by omega)]
    · obtain rfl : j = f.n := by omega
      rw [hnew] at hnd
      cases hnd
      rw [innerNode, hfit, hold a ha, hold b hb]

theorem WeightLog.mergeTimes (hk : k ≤ 256) (ht : total < 2 ^ 32) (m : Nat) (hl : WeightLog total f) (hf : ForestOk k f)
    (hm : m < f.queue.length) : WeightLog total (Machine.mergeTimes m f) := by
  induction m generalizing f with
  | zero => exact hl
  | succ m ih =>
    obtain ⟨h1, hn, -, -⟩ := hf.mergeOnce hk (by omega)
    have hc := hf.count
    have hc' := h1.count
    exact ih (hl.mergeOnce hf hk (by omega) ht) h1 (by omega)

end

section
variable {freq : Vector Word 256} {nodes : Vector Node 511}

/-- The symbols without a count add nothing (R75). -/
theorem sum_presentSymbols (freq : Vector Word 256) :
    ((presentSymbols freq).map fun v => (freqAt freq v).toNat).sum = freqTotal freq := by
  rw [presentSymbols, freqTotal]
  induction Config.allSymbols with
  | nil => rfl
  | cons v rest ih =>
    rw [List.filter_cons]
    split
    · simp only [List.map_cons, List.sum_cons, ih]
    · next h =>
      have hz : (freqAt freq v).toNat = 0 := by simpa using h
      simp only [List.map_cons, List.sum_cons, ih, hz, Nat.zero_add]

theorem WeightLog.seed (freq : Vector Word 256) (nodes : Vector Node 511) :
    WeightLog (freqTotal freq) (seedForest freq nodes) where
  sum := by
    have hk := presentSymbols_length freq
    have hq : (seedForest freq nodes).queue = (List.range (presentSymbols freq).length).map (BitVec.ofNat 9) := rfl
    rw [hq, List.map_map, ← sum_presentSymbols]
    refine congrArg List.sum (map_range_length fun j hj => ?_)
    rw [Function.comp_apply, weightAt, nodeAt_ofNat _ _ (by omega), seedForest_leaf freq nodes j hj]
    rfl
  inner j nd hj hnd hleaf := by
    rw [seedForest_leaf freq nodes j hj] at hnd
    cases hnd
    cases hleaf

/-- R83: no sum wraps, and the tree weighs what the map counts. -/
theorem buildForest_weights (h : presentSymbols freq ≠ []) (ht : freqTotal freq < 2 ^ 32) :
    WeightLog (freqTotal freq) (buildForest freq nodes) := by
  have h0 := List.length_pos_iff.mpr h
  refine (WeightLog.seed freq nodes).mergeTimes (presentSymbols_length freq) ht _ (ForestOk.seed freq nodes) ?_
  simp only [seedForest, List.length_map, List.length_range]
  omega

end

/-- Settles O23: `WeightLog` at the end of the loop, when the root is alone in the queue. -/
theorem buildWeightsAreSums : Obligations.BuildWeightsAreSums := by
  intro s t hf _ hsum h ht
  obtain ⟨hne, rfl⟩ := execBuild_completed hf h ht
  obtain ⟨hok, -, hn⟩ := buildForest_ok s.freq s.nodes hne
  obtain ⟨root, -, hq, -⟩ := hok.root (List.length_pos_iff.mpr hne) hn
  have hw := buildForest_weights (nodes := s.nodes) hne hsum
  have hcap := hok.cap
  refine ⟨fun a nd ha hnd hleaf => hw.inner a.toNat nd ?_ hnd hleaf, ?_⟩
  · rwa [← toNat_ofNat_nine (show (buildForest s.freq s.nodes).n < 512 by omega)]
  · have hroot := hw.sum
    rw [hq, List.map_singleton, List.sum_singleton] at hroot
    change weightAt _ ((buildForest s.freq s.nodes).queue.headD Config.nil) = _
    rw [hq]
    exact hroot

end Sys2Proof.Machine

/-! PROOFS. What every step keeps: O16, O55, O56, O57. -/

namespace Sys2Proof.Machine

/-! ## What one host action can do -/

/-- `t` agrees with `s` on all that the invariants speak of: the host action has touched other registers, the streams or the
model's own fields only. -/
structure SameEngine (s t : State) : Prop where
  status : t.status = s.status
  err : t.err = s.err
  errInfo : t.errInfo = s.errInfo
  hdrBits : t.hdrBits = s.hdrBits
  payBits : t.payBits = s.payBits
  treeInfo : t.treeInfo = s.treeInfo
  freq : t.freq = s.freq
  nodes : t.nodes = s.nodes
  codes : t.codes = s.codes

section
variable {s t : State}

theorem SameEngine.refl (s : State) : SameEngine s s := ⟨rfl, rfl, rfl, rfl, rfl, rfl, rfl, rfl, rfl⟩

theorem sameEngine_takeAction (rest : List HostAction) (s : State) : SameEngine s (takeAction rest s) :=
  { SameEngine.refl s with }

theorem sameEngine_readReg (addr : BitVec 8) (s : State) : SameEngine s (readReg addr s) := by
  obtain ⟨v, n, h⟩ := readReg_eq addr s
  rw [h]
  exact { SameEngine.refl s with }

/-- R12, R17 to R26: a register write touches nothing the invariants speak of, but for the two lengths, whose writes clear
`LEN_V`. -/
theorem writeReg_cases (addr : BitVec 8) (v : Word) (s : State) :
    SameEngine s (writeReg addr v s) ∨ ∃ hb pb, writeReg addr v s = clearLen { s with hdrBits := hb, payBits := pb } := by
  by_cases h1 : addr = Reg.hdrBits
  · subst h1; exact .inr ⟨v, s.payBits, rfl⟩
  by_cases h2 : addr = Reg.payBits
  · subst h2; exact .inr ⟨s.hdrBits, v, rfl⟩
  left
  rw [writeReg, if_neg h1, if_neg h2]
  repeat' split
  all_goals exact { SameEngine.refl s with }

/-- What a host action that is performed does to the engine (R12, R13, R62, R65, R150). -/
inductive Performed (s : State) : HostAction → State → Prop
  | same {a : HostAction} {t : State} (h : SameEngine s t) : Performed s a t
  | lengths {a : HostAction} (hb pb : Word) : Performed s a (clearLen { s with hdrBits := hb, payBits := pb })
  | command {c : Word} {i : Instr} {t : State} (hd : decode c = .ok i) (h : exec i s = .next t) :
      Performed s (.wr Reg.cmd c) t
  | illegal {c : Word} (hf : s.status.fault = false) :
      Performed s (.wr Reg.cmd c) (raise (opcField c) .illegalCommand c s)
  | reset (u : State) {a : HostAction} (ha : a = .reset ∨ ∃ c, a = .resetDuring c) : Performed s a (hardReset u)

theorem issue_performed {c : Word} (h : issue c s = .next t) : Performed s (.wr Reg.cmd c) t := by
  rw [issue] at h
  split at h
  · next hd => exact .command hd h
  · split at h
    · cases h; exact .same (.refl s)
    · next hf => cases h; exact .illegal (by simpa using hf)

theorem of_whenIdle {o : Outcome} (h : whenIdle s o = .next t) : o = .next t := by
  rw [whenIdle] at h
  split at h
  · cases h
  · exact h

theorem of_whenAligned {addr : BitVec 8} {o : Outcome} (h : whenAligned addr o = .next t) : o = .next t := by
  rw [whenAligned] at h
  split at h
  · exact h
  · cases h

theorem perform_performed {a : HostAction} (h : perform a s = .next t) : Performed s a t := by
  cases a with
  | wr addr v =>
    have h' := of_whenAligned (of_whenIdle h)
    split at h'
    · next hc => subst hc; exact issue_performed h'
    · cases h'
      rcases writeReg_cases addr v s with hs | ⟨hb, pb, hs⟩
      · exact .same hs
      · rw [hs]; exact .lengths hb pb
  | rd addr =>
    cases of_whenAligned (of_whenIdle h)
    exact .same (sameEngine_readReg addr s)
  | reset => cases h; exact .reset s (.inl rfl)
  | resetDuring c =>
    have h' := of_whenIdle h
    rw [abandon] at h'
    split at h'
    · cases h'; exact .reset _ (.inr ⟨c, rfl⟩)
    · cases h'
    · cases h'
  | supplySin xs => cases of_whenIdle h; exact .same { SameEngine.refl s with }
  | supplyBin bs => cases of_whenIdle h; exact .same { SameEngine.refl s with }

/-- R11, R142: a step is idle or performs the oldest host action. -/
theorem step_performed (h : step s = .next t) :
    t = s ∨ ∃ a rest, s.program = a :: rest ∧ Performed (takeAction rest s) a t := by
  rw [step] at h
  rcases hp : s.program with _ | ⟨a, rest⟩
  · rw [hp] at h; cases h; exact .inl rfl
  · rw [hp] at h; exact .inr ⟨a, rest, rfl, perform_performed h⟩

end

/-- Settles O16: with a fault recorded every host action but these three leaves the record alone. -/
theorem onlyResetsClearTheFault : Obligations.OnlyResetsClearTheFault := by
  intro s t h hf
  rcases step_performed h with rfl | ⟨a, rest, hp, hperf⟩
  · exact ⟨fun ht => (by rw [hf] at ht; cases ht), fun _ => ⟨rfl, rfl⟩⟩
  have kept : t.status.fault = true → t.err = s.err → t.errInfo = s.errInfo →
      (t.status.fault = false → ∃ a rest, s.program = a :: rest ∧
        (a = .reset ∨ (∃ c, a = .resetDuring c) ∨ a = .wr 0x00 0x00000001#32)) ∧
      (t.status.fault = true → t.err = s.err ∧ t.errInfo = s.errInfo) :=
    fun h1 h2 h3 => ⟨fun ht => (by rw [h1] at ht; cases ht), fun _ => ⟨h2, h3⟩⟩
  cases hperf with
  | same hs => exact kept (by rw [hs.status]; exact hf) hs.err hs.errInfo
  | lengths => exact kept hf rfl rfl
  | @command c i _ hd hx =>
    by_cases hi : i = .rst
    · subst hi
      cases hx
      exact ⟨fun _ => ⟨_, rest, hp, .inr (.inr (by rw [eq_encode_of_decode hd]; rfl))⟩, fun ht => by cases ht⟩
    · rw [exec_faulted hi (show (takeAction rest s).status.fault = true from hf)] at hx
      cases hx
      exact kept hf rfl rfl
  | illegal hn => rw [takeAction_status, hf] at hn; cases hn
  | reset u ha =>
    exact ⟨fun _ => ⟨a, rest, hp, ha.imp_right .inl⟩, fun ht => by cases ht⟩

/-! ## Invariants of every step -/

/-- The cases an invariant of the machine has to be shown for. -/
structure Kept (Inv : State → Prop) : Prop where
  same : ∀ {s t}, SameEngine s t → Inv s → Inv t
  lengths : ∀ {s} hb pb, Inv s → Inv (clearLen { s with hdrBits := hb, payBits := pb })
  reset : ∀ s, Inv (hardReset s)
  completeReset : ∀ s, Inv (softReset s)
  refused : ∀ {s} opc k info, s.status.fault = false → Inv s → Inv (raise opc k info s)
  completed : ∀ {s u i}, s.status.fault = false → precondition i s.status = true → Done (accept s) i u → Inv s →
    Inv (complete u)
  failed : ∀ {s u i} opc k info, s.status.fault = false → Failed (accept s) i u → Inv s → Inv (raise opc k info u)

section
variable {Inv : State → Prop}

theorem Kept.exec (hk : Kept Inv) {s t : State} {i : Instr} (h : exec i s = .next t) (hs : Inv s) : Inv t := by
  cases exec_executed h with
  | rst => exact hk.completeReset s
  | ignored => exact hs
  | missing _ hf => exact hk.refused _ _ _ hf hs
  | completed _ hf hp hd => exact hk.completed hf hp hd hs
  | raised _ hf _ hu => exact hk.failed _ _ _ hf hu hs

/-- An invariant that has been shown for each case is kept by every step. -/
theorem Kept.step (hk : Kept Inv) {s t : State} (hs : Inv s) (h : step s = .next t) : Inv t := by
  rcases step_performed h with rfl | ⟨a, rest, -, hperf⟩
  · exact hs
  · have hs' := hk.same (sameEngine_takeAction rest s) hs
    cases hperf with
    | same h => exact hk.same h hs'
    | lengths hb pb => exact hk.lengths hb pb hs'
    | command _ hx => exact hk.exec hx hs'
    | illegal hf => exact hk.refused _ _ _ hf hs'
    | reset u => exact hk.reset u

end

/-! ### The well-formed tree (R29) -/

theorem TreeOk.completed {s u : State} {i : Instr} (h : TreeOk s) (hd : Done (accept s) i u) : TreeOk (complete u) := by
  cases hd with
  | build hne => exact fun _ => buildForest_treeWf hne
  | load _ _ hwf => exact fun _ => hwf
  | _ => exact fun hv => h hv

theorem TreeOk.failed {s u : State} {i : Instr} (h : TreeOk s) (hu : Failed (accept s) i u) : TreeOk u := by
  cases hu with
  | build => exact fun hv => by cases hv
  | load => exact fun hv => by cases hv
  | _ => exact fun hv => h hv

theorem treeOk_kept : Kept TreeOk where
  same h hs := fun hv => by rw [h.nodes, h.treeInfo]; exact hs (h.status ▸ hv)
  lengths _ _ hs := fun hv => hs hv
  reset _ := fun hv => by cases hv
  completeReset _ := fun hv => by cases hv
  refused _ _ _ _ hs := fun hv => hs hv
  completed _ _ hd hs := hs.completed hd
  failed _ _ _ _ hu hs := (hs.failed hu :)

/-- Settles O56: `TREE_V` is set only with a well-formed tree, by `BUILD` and the loads, and they clear it before they write
`NODE`. -/
theorem stepKeepsTheWellFormedTree : Obligations.StepKeepsTheWellFormedTree :=
  fun _ _ => treeOk_kept.step

/-! ### The tables computed from others (R14) -/

theorem headerLength_lt (t : TreeInfo) : headerLength t < 2 ^ 32 := by
  have := t.leafCnt.isLt
  rw [headerLength]
  omega

theorem DerivedOk.completed {s u : State} {i : Instr} (h : DerivedOk s) (hd : Done (accept s) i u) :
    DerivedOk (complete u) := by
  obtain ⟨hcode, hlen⟩ := h
  cases hd with
  | count => exact ⟨hcode, fun hv => by cases hv⟩
  | build => exact ⟨fun hv => (by cases hv), fun hv => by cases hv⟩
  | gencodes hc => exact ⟨fun _ => hc, fun hv => by cases hv⟩
  | calclen hp hlt =>
    refine ⟨hcode, fun _ => ⟨?_, Nat.mod_eq_of_lt (headerLength_lt _)⟩⟩
    change payloadLength s.freq s.codes Config.allSymbols 0 = .ok (BitVec.ofNat 32 _).toNat
    rw [BitVec.toNat_ofNat, Nat.mod_eq_of_lt hlt]
    exact hp
  | load => exact ⟨fun hv => (by cases hv), fun hv => by cases hv⟩
  | rdhlen => exact ⟨hcode, fun hv => by cases hv⟩
  | rdplen => exact ⟨hcode, fun hv => by cases hv⟩
  | _ => exact ⟨hcode, hlen⟩

theorem DerivedOk.failed {s u : State} {i : Instr} (h : DerivedOk s) (hu : Failed (accept s) i u) : DerivedOk u := by
  obtain ⟨hcode, hlen⟩ := h
  cases hu with
  | build => exact ⟨fun hv => (by cases hv), fun hv => by cases hv⟩
  | calclen => exact ⟨hcode, fun hv => by cases hv⟩
  | load => exact ⟨fun hv => (by cases hv), fun hv => by cases hv⟩
  | readLen => exact ⟨hcode, fun hv => by cases hv⟩
  | _ => exact ⟨hcode, hlen⟩

theorem derivedOk_kept : Kept DerivedOk where
  same h hs := by
    rw [DerivedOk, h.status, h.nodes, h.treeInfo, h.codes, h.freq, h.payBits, h.hdrBits]
    exact hs
  lengths _ _ hs := ⟨hs.1, fun hv => by cases hv⟩
  reset _ := ⟨fun hv => (by cases hv), fun hv => by cases hv⟩
  completeReset _ := ⟨fun hv => (by cases hv), fun hv => by cases hv⟩
  refused _ _ _ _ hs := hs
  completed _ _ hd hs := hs.completed hd
  failed _ _ _ _ hu hs := (hs.failed hu :)

/-- Settles O57: a table or length that others are computed from is written only with the valid bits over it cleared. -/
theorem stepKeepsTheDerivedTables : Obligations.StepKeepsTheDerivedTables :=
  fun _ _ => derivedOk_kept.step

/-! ### `STATUS` and the fault record (R8, R14, R15, R31) -/

/-- The part of `StatusOk` about the valid bits: none is set without those it rests on (R31). -/
def ValidBitsOk (st : Status) : Prop :=
  (st.codeV = true → st.treeV = true) ∧ (st.lenV = true → st.freqV = true ∧ st.treeV = true ∧ st.codeV = true)

theorem StatusOk.validBits {s : State} (h : StatusOk s) : ValidBitsOk s.status := ⟨h.codeNeedsTree, h.lenNeedsTables⟩

theorem ValidBitsOk.done {s u : State} {i : Instr} (h : ValidBitsOk s.status) (hp : precondition i s.status = true)
    (hd : Done (accept s) i u) : ValidBitsOk u.status := by
  obtain ⟨hcode, hlen⟩ := h
  cases hd with
  | count => exact ⟨hcode, fun hv => by cases hv⟩
  | build => exact ⟨fun hv => (by cases hv), fun hv => by cases hv⟩
  | gencodes => exact ⟨fun _ => hp, fun hv => by cases hv⟩
  | calclen =>
    refine ⟨hcode, fun _ => ?_⟩
    simpa [precondition, and_assoc] using hp
  | load => exact ⟨fun hv => (by cases hv), fun hv => by cases hv⟩
  | rdhlen => exact ⟨hcode, fun hv => by cases hv⟩
  | rdplen => exact ⟨hcode, fun hv => by cases hv⟩
  | _ => exact ⟨hcode, hlen⟩

theorem ValidBitsOk.failed {s u : State} {i : Instr} (h : ValidBitsOk s.status) (hu : Failed (accept s) i u) :
    ValidBitsOk u.status := by
  obtain ⟨hcode, hlen⟩ := h
  cases hu with
  | build => exact ⟨fun hv => (by cases hv), fun hv => by cases hv⟩
  | calclen => exact ⟨hcode, fun hv => by cases hv⟩
  | load => exact ⟨fun hv => (by cases hv), fun hv => by cases hv⟩
  | readLen => exact ⟨hcode, fun hv => by cases hv⟩
  | _ => exact ⟨hcode, hlen⟩

/-- Taking a fault leaves `STATUS` and the record in agreement (R131). -/
theorem statusOk_raise {u : State} (h : ValidBitsOk u.status) (opc : Opcode) (k : FaultKind) (info : Word) :
    StatusOk (raise opc k info u) :=
  ⟨rfl, rfl, fun _ => rfl, fun hf => (by cases hf), h.1, h.2⟩

theorem StatusOk.completed {s u : State} {i : Instr} (h : StatusOk s) (hf : s.status.fault = false)
    (hp : precondition i s.status = true) (hd : Done (accept s) i u) : StatusOk (complete u) := by
  obtain ⟨hfault, herr, hinfo⟩ := hd.record
  have hu : u.status.fault = false := hfault.trans hf
  have hbits := h.validBits.done hp hd
  refine ⟨rfl, ?_, fun ht => ?_, fun _ => ?_, hbits.1, hbits.2⟩
  · change u.status.fault = u.err.kind.isSome
    rw [hfault, herr]
    exact h.faultRecorded
  · cases hu.symm.trans ht
  · change u.err.opc = 0 ∧ u.errInfo = 0
    rw [herr, hinfo]
    exact h.noFaultNoRecord hf

theorem statusOk_kept : Kept StatusOk where
  same h hs := by
    obtain ⟨h1, h2, h3, h4, h5, h6⟩ := hs
    constructor <;> simp only [h.status, h.err, h.errInfo] <;> assumption
  lengths _ _ hs := { hs with lenNeedsTables := fun hv => by cases hv }
  reset _ := ⟨rfl, rfl, fun _ => rfl, fun _ => ⟨rfl, rfl⟩, fun hv => (by cases hv), fun hv => by cases hv⟩
  completeReset _ :=
    ⟨rfl, rfl, fun hf => (by cases hf), fun _ => ⟨rfl, rfl⟩, fun hv => (by cases hv), fun hv => by cases hv⟩
  refused _ _ _ _ hs := statusOk_raise hs.validBits _ _ _
  completed hf hp hd hs := hs.completed hf hp hd
  failed _ _ _ _ hu hs := statusOk_raise (hs.validBits.failed hu) _ _ _

/-- Settles O55: every outcome of a command clears `BUSY`, and only a fault writes the record. -/
theorem stepKeepsStatusOk : Obligations.StepKeepsStatusOk :=
  fun _ _ => statusOk_kept.step

end Sys2Proof.Machine

/-! PROOFS. The codes of a well-formed tree fit the 8 bits of `len` (R29, R30, R88): O28. -/

namespace Sys2Proof.Machine

/-- A path to a leaf is shorter than the tree has leaves. -/
theorem Tree.length_lt_of_leafAt {t : Tree} {p : List Bit} {v : Symbol} (h : t.leafAt p = some v) :
    p.length < t.leaves.length := by
  induction t generalizing p with
  | leaf w =>
    cases p with
    | nil => exact (Tree.leaf w).leaves_pos
    | cons b p => simp [Tree.leafAt] at h
  | inner l r ihl ihr =>
    have hl := l.leaves_pos
    have hr := r.leaves_pos
    rw [Tree.leaves, List.length_append]
    cases p with
    | nil => simp [Tree.leafAt] at h
    | cons b p =>
      rw [Tree.leafAt] at h
      rw [List.length_cons]
      split at h
      · have := ihr h; omega
      · have := ihl h; omega

/-- A valid code has at least one bit, and fewer bits than the tree has leaves, or one bit where the leaf is alone. -/
theorem Tree.codeEntry_len {t : Tree} {v : Symbol} (h : (t.codeEntry v).valid = true) :
    1 ≤ (t.codeEntry v).len ∧ (t.codeEntry v).len ≤ max 1 (t.leaves.length - 1) := by
  have hword := Tree.codeword_of_codeEntry h
  rw [CodeEntry.len]
  cases t with
  | leaf w =>
    obtain ⟨-, hlen⟩ := hword
    simp [hlen]
  | inner l r =>
    have hlt := Tree.length_lt_of_leafAt hword
    refine ⟨?_, by omega⟩
    rcases hb : ((Tree.inner l r).codeEntry v).bits with _ | ⟨b, p⟩
    · simp [Tree.Codeword, hb, Tree.leafAt] at hword
    · simp

/-- The preorder walk meets as many handles as the tree has nodes. -/
theorem handlesFrom_length {nodes : Vector Node 511} {d : Nat} {h : Handle} {hs : List Handle} {t : Tree}
    (h1 : handlesFrom nodes d h = some hs) (h2 : treeOf nodes d h = some t) : hs.length = t.size := by
  induction d generalizing h hs t with
  | zero => simp [handlesFrom] at h1
  | succ d ih =>
    rcases handlesFrom_cases h1 with ⟨nd, hn, hl, rfl⟩ | ⟨nd, l, r, hn, hl, a1, a2, rfl⟩ <;>
      rcases treeOf_cases h2 with ⟨nd', hn', hl', rfl⟩ | ⟨nd', tl, tr, hn', hl', b1, b2, rfl⟩ <;>
      cases hn.symm.trans hn'
    · rfl
    · cases hl.symm.trans hl'
    · cases hl.symm.trans hl'
    · rw [List.length_cons, List.length_append, ih a1 b1, ih a2 b2, Tree.size_inner]

/-- R29: the tree of a well-formed arena has at most 256 leaves. -/
theorem leaves_le_of_treeWf {s : State} {t : Tree} (hw : treeWf s.nodes s.treeInfo = true) (ht : s.tree = some t) :
    t.leaves.length ≤ 256 := by
  simp only [treeWf, Bool.and_eq_true] at hw
  obtain ⟨⟨⟨-, hone⟩, -⟩, -⟩ := hw
  rw [oneTree] at hone
  rcases hh : handlesFrom s.nodes Config.nodeMax s.treeInfo.root with _ | hs
  · simp [hh] at hone
  · have hlen : hs.length = s.treeInfo.nodeCnt.toNat := by
      simp only [hh, Bool.and_eq_true, decide_eq_true_eq] at hone
      exact hone.1.2
    have hsize : t.size = s.treeInfo.nodeCnt.toNat := by rw [← hlen, handlesFrom_length hh ht]
    have := s.treeInfo.nodeCnt.isLt
    rw [Tree.size] at hsize
    omega

/-- `GENCODES` on a tree leaves its Code Table (R88). -/
theorem execGencodes_codes {s t : State} {tree : Tree} (hf : s.status.fault = false) (hv : s.status.treeV = true)
    (ht : s.tree = some tree) (h : exec .gencodes s = .next t) (v : Symbol) : codeAt t.codes v = tree.codeEntry v := by
  obtain ⟨codes, hc, hcodes⟩ := codeTable_treeOf ht
  cases exec_executed h with
  | rst hi => cases hi
  | ignored _ hs => rw [hf] at hs; cases hs
  | missing _ _ hp => rw [precondition, hv] at hp; cases hp
  | raised _ _ _ hu =>
    cases hu with
    | load hi => simp at hi
    | decode hi => simp at hi
    | readLen hi => simp at hi
  | completed _ _ _ hd =>
    cases hd with
    | gencodes hc' =>
      cases hc.symm.trans hc'
      exact hcodes v
    | append hi => simp at hi
    | load hi => simp at hi
    | decode hi => simp at hi

/-- Settles O28: a well-formed tree has at most 256 leaves, and a path is shorter than that. -/
theorem codeLengthsFitTheirField : Obligations.CodeLengthsFitTheirField := by
  intro s t hf hv hw h v hvalid
  obtain ⟨tree, ht⟩ := tree_of_treeWf hw
  have hle := leaves_le_of_treeWf hw ht
  rw [execGencodes_codes hf hv ht h] at hvalid ⊢
  obtain ⟨h1, h2⟩ := Tree.codeEntry_len hvalid
  exact ⟨h1, by omega⟩

end Sys2Proof.Machine

/-! PROOFS. Fixed-width fields: `ReadInt` reads back what `WriteInt` wrote (R45, R46, R70): O45. -/

namespace Sys2Proof.Machine

/-- `WriteInt` is one append of its field (R45). -/
theorem writeInt_eq_wrote (v w : Nat) (s : State) : writeInt v w s = wrote (intBits v w) s :=
  writeBits_eq_wrote _ s

/-- R46: where the stream holds the field of `v`, `ReadInt` returns `v` and consumes the field. -/
theorem readInt_intBits {v w : Nat} {s : State} (hv : v < 2 ^ w) (h : BinHolds s (intBits v w)) :
    readInt w s = (some v, advanced w s) := by
  have hread := readIntFrom_holds (intBits v w) 0 s h
  rwa [intBits_length, bitsValue_intBits, Nat.zero_mul, Nat.zero_add, Nat.mod_eq_of_lt hv] at hread

/-- R46: a stream that ends inside the field is `EOS`, and the bits before its end stay read. -/
theorem readInt_eos {w : Nat} {s : State} {q : List Bit} (hq : q.length < w) (h : BinEndsAfter s q) :
    readInt w s = (none, advanced q.length s) :=
  readIntFrom_eos q w 0 s hq h

/-- Settles O45: the bits are `intBits v w`, whose value read most significant first is `v mod 2^w`. -/
theorem readIntInvertsWriteInt : Obligations.ReadIntInvertsWriteInt := by
  intro s w v _ hv
  refine ⟨⟨intBits v w, intBits_length v w, writeInt_eq_wrote v w s, getElem_intBits v w, ?_⟩, ?_⟩
  · exact fun _ hu => readInt_intBits hv hu
  · exact fun _ hq he => readInt_eos hq he

end Sys2Proof.Machine

/-! PROOFS. The header of a code tree (R67, R68): its length in a well-formed arena, and that it determines the tree: O31. -/

namespace Sys2Proof.Machine

/-- R29 items 3 and 4: a well-formed arena holds a tree with `LEAF_CNT` leaves. -/
theorem leaves_length_of_treeWf {s : State} {t : Tree} (hw : treeWf s.nodes s.treeInfo = true) (ht : s.tree = some t) :
    t.leaves.length = s.treeInfo.leafCnt.toNat := by
  simp only [treeWf, Bool.and_eq_true, decide_eq_true_eq] at hw
  obtain ⟨⟨⟨⟨⟨hpos, -⟩, -⟩, hone⟩, -⟩, hcnt⟩ := hw
  have hsize : t.size = s.treeInfo.nodeCnt.toNat := by
    rw [oneTree] at hone
    rcases hh : handlesFrom s.nodes Config.nodeMax s.treeInfo.root with _ | hs
    · simp [hh] at hone
    · simp only [hh, Bool.and_eq_true, decide_eq_true_eq] at hone
      obtain ⟨⟨-, hlen⟩, -⟩ := hone
      rw [← hlen, handlesFrom_length hh ht]
  have := t.leaves_pos
  rw [Tree.size] at hsize
  omega

/-- The 8 bits of a symbol determine it (R45, R67). -/
theorem symbol_eq_of_intBits {v w : Symbol} (h : intBits v.toNat 8 = intBits w.toNat 8) : v = w := by
  have hval := congrArg (bitsValue 0) h
  rw [bitsValue_intBits, bitsValue_intBits, Nat.mod_eq_of_lt v.isLt, Nat.mod_eq_of_lt w.isLt] at hval
  exact BitVec.eq_of_toNat_eq (by omega)

/-- R67: headers are self-delimiting: what follows a header does not change the tree it is read as. -/
theorem Tree.header_append_inj {a b : Tree} {p q : List Bit} (h : a.header ++ p = b.header ++ q) : a = b ∧ p = q := by
  induction a generalizing b p q with
  | leaf v =>
    cases b with
    | leaf w =>
      obtain ⟨hbits, rfl⟩ := List.append_inj (List.cons.inj h).2 (by simp)
      exact ⟨congrArg Tree.leaf (symbol_eq_of_intBits hbits), rfl⟩
    | inner l r => cases (List.cons.inj h).1
  | inner l r ihl ihr =>
    cases b with
    | leaf w => cases (List.cons.inj h).1
    | inner l' r' =>
      have htail : l.header ++ (r.header ++ p) = l'.header ++ (r'.header ++ q) := by
        simpa only [Tree.header, List.cons_append, List.append_assoc, List.cons.injEq, true_and] using h
      obtain ⟨rfl, hright⟩ := ihl htail
      obtain ⟨rfl, rfl⟩ := ihr hright
      exact ⟨rfl, rfl⟩

/-- Settles O31: the well-formed arena has 1 to 256 leaves, each inner node adds one bit and each leaf nine, and headers are
self-delimiting. -/
theorem headerLengthLaw : Obligations.HeaderLengthLaw := by
  refine ⟨fun s hw => ?_, fun a b h => (Tree.header_append_inj (congrArg (· ++ []) h)).1⟩
  obtain ⟨tree, ht⟩ := tree_of_treeWf hw
  have hleaves := leaves_length_of_treeWf hw ht
  have hpos := tree.leaves_pos
  have hle := leaves_le_of_treeWf hw ht
  have hlen := tree.header_length
  exact ⟨tree, ht, hleaves, hleaves ▸ hlen, by omega, by omega⟩

end Sys2Proof.Machine

/-! PROOFS. The length of a payload (R69, R90): O37. -/

namespace Sys2Proof.Machine

/-- A sum over the items of an input, taken symbol by symbol: each symbol counts as often as it occurs. -/
theorem sum_map_eq_sum_count (input : List Symbol) (f : Symbol → Nat) :
    (input.map f).sum = (Config.allSymbols.map fun v => input.count v * f v).sum := by
  rw [← List.sum_toFinset _ allSymbols_nodup, Finset.sum_list_map_count]
  refine Finset.sum_subset (fun v _ => List.mem_toFinset.mpr (mem_allSymbols v)) fun v _ hv => ?_
  rw [List.count_eq_zero.mpr (List.mem_toFinset.not.mp hv), zero_smul]

/-- R69: each symbol of the input adds its code length. -/
theorem payloadOf_length (codes : Vector CodeEntry 256) (input : List Symbol) :
    (payloadOf codes input).length = (input.map fun v => (codeAt codes v).len).sum := by
  rw [payloadOf, List.length_flatten, List.map_map]
  rfl

/-- Settles O37: the sum over the input, regrouped by symbol. -/
theorem payloadLengthIsTheWeightedSum : Obligations.PayloadLengthIsTheWeightedSum := by
  intro freq codes input hcount
  rw [payloadOf_length, sum_map_eq_sum_count, payloadTotal]
  simp only [hcount]

end Sys2Proof.Machine

/-! PROOFS. The command word (R60 to R62): O1, O2, O3. -/

namespace Sys2Proof.Machine

@[simp] theorem zeroField_encode (i : Instr) : zeroField (encode i) = 0 :=
  BitVec.extractLsb'_append_eq_left

@[simp] theorem opcField_encode (i : Instr) : opcField (encode i) = opcodeOf i :=
  BitVec.extractLsb'_append_eq_right

/-- R61: the opcode map has a row for every command, and no earlier row with its opcode. -/
theorem lookupOpcode_opcodeOf (i : Instr) : lookupOpcode (opcodeOf i) = some i := by
  cases i <;> rfl

/-- R60, R61: the word of a command decodes to it. -/
theorem decode_encode (i : Instr) : decode (encode i) = .ok i := by
  rw [decode, if_pos (zeroField_encode i), opcField_encode, lookupOpcode_opcodeOf]

/-- R61: the nineteen command words are the only encodings. -/
theorem encode_mem_commandWords (i : Instr) :
    encode i ∈ ([0x00, 0x01, 0x10, 0x11, 0x12, 0x13, 0x20, 0x21, 0x22, 0x30, 0x31, 0x32, 0x40, 0x41, 0x42, 0x43, 0x44,
      0x45, 0x46] : List Word) := by
  cases i <;> decide

/-- Settles O1: a word that decodes is the word of its command, so it is one of the nineteen and has zeros above `OPC`. -/
theorem commandWordsDecode : Obligations.CommandWordsDecode := by
  refine ⟨decode_encode .nop, decode_encode .rst, decode_encode .count, decode_encode .build, decode_encode .gencodes,
    decode_encode .calclen, decode_encode .sttree, decode_encode .ldtree, decode_encode .ldtreeb, decode_encode .encode,
    decode_encode .decn, decode_encode .decl, decode_encode .wrmark, decode_encode .rdmark, decode_encode .wrhlen,
    decode_encode .rdhlen, decode_encode .wrplen, decode_encode .rdplen, decode_encode .pad, fun c => ⟨?_, ?_⟩⟩
  · intro hnot i hd
    rw [eq_encode_of_decode hd] at hnot
    exact hnot (encode_mem_commandWords i)
  · intro hupper i hd
    rw [eq_encode_of_decode hd] at hupper
    exact hupper (zeroField_encode i)

/-- Settles O2: the decoder and the encoder are inverse to each other. -/
theorem encodeDecodeAgree : Obligations.EncodeDecodeAgree :=
  ⟨fun i _ => decode_encode i, fun _ _ => eq_encode_of_decode⟩

/-- R62: a word that is no command's is refused by the front end, with the whole word as `info`. -/
theorem issue_illegal {c : Word} {s : State} (hc : ∀ i, c ≠ encode i) (hf : s.status.fault = false) :
    issue c s = .next (raise (opcField c) .illegalCommand c s) := by
  rw [issue]
  rcases hd : decode c with e | i
  · simp [hf]
  · exact absurd (eq_encode_of_decode hd) (hc i)

/-- Settles O3: the write to `CMD` is issued, and raising the fault writes the record and `STATUS` alone. -/
theorem illegalWordRaisesIllegalCommand : Obligations.IllegalWordRaisesIllegalCommand := by
  intro s c rest hp hi hc hf
  calc step s = perform (.wr Reg.cmd c) (takeAction rest s) := step_of_program hp
    _ = issue c (takeAction rest s) := perform_wr_cmd c hi
    _ = .next (raise (opcField c) .illegalCommand c (takeAction rest s)) := issue_illegal hc hf

end Sys2Proof.Machine

/-! PROOFS. The frequency model (R75, R83): O18, O58. -/

namespace Sys2Proof.Machine

/-! ## The Frequency Map of an input -/

/-- R75: counting from any table adds to each entry the number of occurrences of its symbol, modulo `2^32`. -/
theorem freqAt_foldl_countSymbol (input : List Symbol) (t : Vector Word 256) (v : Symbol) :
    freqAt (input.foldl countSymbol t) v = freqAt t v + BitVec.ofNat 32 (input.count v) := by
  induction input generalizing t with
  | nil => simp
  | cons x xs ih =>
    rw [List.foldl_cons, ih, countSymbol, freqAt_setFreqAt, List.count_cons]
    by_cases hx : x = v
    · subst hx
      simp [BitVec.ofNat_add, add_assoc, add_comm, add_left_comm]
    · simp [hx]

theorem freqAt_countAll (input : List Symbol) (v : Symbol) :
    freqAt (countAll input) v = BitVec.ofNat 32 (input.count v) := by
  rw [countAll, freqAt_foldl_countSymbol]
  simp [freqAt]

theorem inputSymbols_length (s : State) : (inputSymbols s).length = s.sinLen.toNat := by
  simp [inputSymbols]

/-- R75: `SIN_LEN` is a 32-bit number, so no increment wraps. -/
theorem freqAt_countAll_inputSymbols (s : State) (v : Symbol) :
    (freqAt (countAll (inputSymbols s)) v).toNat = (inputSymbols s).count v := by
  have hle : (inputSymbols s).count v ≤ s.sinLen.toNat := inputSymbols_length s ▸ List.count_le_length
  rw [freqAt_countAll, BitVec.toNat_ofNat, Nat.mod_eq_of_lt (hle.trans_lt s.sinLen.isLt)]

theorem freqTotal_countAll_inputSymbols (s : State) : freqTotal (countAll (inputSymbols s)) = s.sinLen.toNat := by
  calc freqTotal (countAll (inputSymbols s))
    _ = (Config.allSymbols.map fun v => (inputSymbols s).count v * 1).sum := by
      simp only [freqTotal, freqAt_countAll_inputSymbols, mul_one]
    _ = ((inputSymbols s).map fun _ => 1).sum := (sum_map_eq_sum_count _ _).symm
    _ = s.sinLen.toNat := by simp [inputSymbols_length]

/-- R75: `COUNT` needs no valid bit and raises nothing. -/
theorem execCount_eq {s : State} (hf : s.status.fault = false) :
    execCount s = .next { s with
      freq := countAll (inputSymbols s)
      status := { s.status with busy := false, done := true, freqV := true, lenV := false } } := by
  rw [execCount, command_runs _ _ _ hf rfl]
  rfl

/-- Settles O18: each entry is the count of its symbol modulo `2^32`, and no count exceeds `SIN_LEN`. -/
theorem countMakesTheFrequencyMap : Obligations.CountMakesTheFrequencyMap :=
  ⟨rfl, fun s hf => ⟨countAll (inputSymbols s), execCount_eq hf, freqAt_countAll_inputSymbols s,
    freqTotal_countAll_inputSymbols s⟩⟩

/-! ## The bound on the counts -/

theorem FreqOk.completed {s u : State} {i : Instr} (h : FreqOk s) (hd : Done (accept s) i u) : FreqOk (complete u) := by
  cases hd with
  | count => exact fun _ => (freqTotal_countAll_inputSymbols s).trans_lt s.sinLen.isLt
  | _ => exact h

theorem FreqOk.failed {s u : State} {i : Instr} (h : FreqOk s) (hu : Failed (accept s) i u) : FreqOk u := by
  cases hu <;> exact h

theorem freqOk_kept : Kept FreqOk where
  same h hs := by
    rw [FreqOk, h.status, h.freq]
    exact hs
  lengths _ _ hs := hs
  reset _ := fun hv => by cases hv
  completeReset _ := fun hv => by cases hv
  refused _ _ _ _ hs := hs
  completed _ _ hd hs := hs.completed hd
  failed _ _ _ _ hu hs := (hs.failed hu :)

/-- Settles O58: `COUNT` alone sets `FREQ_V` or writes `FREQ` while it stands, and its counts add up to `SIN_LEN`. -/
theorem stepKeepsTheCountBound : Obligations.StepKeepsTheCountBound :=
  fun _ _ => freqOk_kept.step

end Sys2Proof.Machine

/-! PROOFS. The code-tree builder (R80 to R84): the queue of `BUILD`, what it writes, the empty map, the order of the weights,
and that it depends on the map alone: O19, O20, O21, O24, O25. -/

namespace Sys2Proof.Machine

/-! ## The queue (R80, R81) -/

section
variable {nodes nodes' : Vector Node 511}

theorem before_asymm {a b : Handle} (h : before nodes a b = true) : before nodes b a = false :=
  Bool.eq_false_of_not_eq_true fun h' => before_irrefl nodes a (before_trans h h')

theorem removeFirst_erase {q r : List Handle} {a : Handle} (h : removeFirst nodes q = some (a, r)) : r = q.erase a := by
  rw [removeFirst] at h
  split at h
  · cases h
  · cases h; rfl

/-- Entries that no handle of the queue names do not matter to which one is first. -/
theorem firstOf_congr {n : Nat} (hag : ∀ j, j < n → nodes'[j]? = nodes[j]?) {q : List Handle}
    (hq : ∀ h ∈ q, h.toNat < n) : firstOf nodes' q = firstOf nodes q := by
  induction q with
  | nil => rfl
  | cons x rest ih =>
    obtain ⟨hx, hrest⟩ := List.forall_mem_cons.mp hq
    rw [firstOf, firstOf, ih hrest]
    cases hm : firstOf nodes rest with
    | none => rfl
    | some m => simp only [before_congr hag (hrest m (firstOf_mem hm)) hx]

theorem removeFirst_congr {n : Nat} (hag : ∀ j, j < n → nodes'[j]? = nodes[j]?) {q : List Handle}
    (hq : ∀ h ∈ q, h.toNat < n) : removeFirst nodes' q = removeFirst nodes q := by
  rw [removeFirst, removeFirst, firstOf_congr hag hq]

end

/-- Settles O19: the laws of `before`, and what `removeFirst` takes out. -/
theorem queueRemovalTakesTheUniqueFirst : Obligations.QueueRemovalTakesTheUniqueFirst := by
  refine fun nodes => ⟨fun a b c => ?_, fun q => ⟨removeFirst_isSome nodes q, fun a r h => ?_⟩⟩
  · exact ⟨before_iff nodes a b, Bool.eq_false_of_not_eq_true (before_irrefl nodes a), before_total, before_asymm,
      before_trans⟩
  · exact ⟨(removeFirst_perm h).mem_iff.mpr List.mem_cons_self, removeFirst_erase h, removeFirst_before h⟩

/-! ## How `BUILD` ends -/

section
variable {freq : Vector Word 256} {nodes : Vector Node 511}

/-- The seed has one handle more than there are merges to make (R81). -/
theorem merges_lt_seedForest_queue (h : 0 < (presentSymbols freq).length) :
    (presentSymbols freq).length - 1 < (seedForest freq nodes).queue.length := by
  simp only [seedForest, List.length_map, List.length_range]
  omega

/-- R81: the root of the forest is the node made last. -/
theorem buildForest_queue (h : presentSymbols freq ≠ []) :
    (buildForest freq nodes).queue = [BitVec.ofNat 9 (2 * (presentSymbols freq).length - 2)] := by
  obtain ⟨hok, -, hn⟩ := buildForest_ok freq nodes h
  have hpos := List.length_pos_iff.mpr h
  obtain ⟨root, -, hroot, -⟩ := hok.root hpos hn
  -- Of the seed, too, the queue ends with the node made last.
  have hseed : ∃ q, (seedForest freq nodes).queue = q ++ [BitVec.ofNat 9 ((seedForest freq nodes).n - 1)] := by
    obtain ⟨m, hm⟩ := Nat.exists_eq_add_of_lt hpos
    exact ⟨(List.range m).map (BitVec.ofNat 9), by simp [seedForest, hm, List.range_succ]⟩
  obtain ⟨q, hq⟩ := (ForestOk.seed freq nodes).mergeTimes_last (presentSymbols_length freq) _
    (merges_lt_seedForest_queue hpos) hseed
  change (buildForest freq nodes).queue = q ++ [BitVec.ofNat 9 ((buildForest freq nodes).n - 1)] at hq
  have hnil : q = [] := by
    have := congrArg List.length (hroot.symm.trans hq)
    simpa using this
  rw [hq, hnil, hn, List.nil_append, Nat.sub_sub]

end

section
variable {s : State}

/-- R81: the end of `BUILD`, its three numbers counted out. -/
theorem finishBuild_eq (hne : presentSymbols s.freq ≠ []) :
    finishBuild s = setTreeV { s with
      nodes := (buildForest s.freq s.nodes).nodes
      treeInfo := ⟨BitVec.ofNat 9 (2 * (presentSymbols s.freq).length - 2),
        BitVec.ofNat 9 (2 * (presentSymbols s.freq).length - 1), BitVec.ofNat 9 (presentSymbols s.freq).length⟩ } := by
  obtain ⟨-, -, hn⟩ := buildForest_ok s.freq s.nodes hne
  simp only [finishBuild, buildForest_queue hne, hn, List.headD_cons]

/-- R81: on a map with a symbol `BUILD` writes its forest. -/
theorem execBuild_eq (hf : s.status.fault = false) (hv : s.status.freqV = true) (hne : presentSymbols s.freq ≠ []) :
    exec .build s = .next { s with
      nodes := (buildForest s.freq s.nodes).nodes
      treeInfo := ⟨BitVec.ofNat 9 (2 * (presentSymbols s.freq).length - 2),
        BitVec.ofNat 9 (2 * (presentSymbols s.freq).length - 1), BitVec.ofNat 9 (presentSymbols s.freq).length⟩
      status := { s.status with busy := false, done := true, treeV := true, codeV := false, lenV := false } } := by
  have hlen : (presentSymbols (clearTreeCodeLen (accept s)).freq).length ≠ 0 := by simpa using hne
  rw [exec, execBuild, command_runs .build _ s hf hv]
  simp only [if_neg hlen]
  rw [finishBuild_eq (s := clearTreeCodeLen (accept s)) hne]
  rfl

/-- R81: on the empty map `BUILD` raises `EmptyInput` after it has cleared the flags. -/
theorem execBuild_empty (hf : s.status.fault = false) (hv : s.status.freqV = true) (he : presentSymbols s.freq = []) :
    exec .build s = .next (raise (opcodeOf .build) .emptyInput 0 (clearTreeCodeLen s)) := by
  have hlen : (presentSymbols (clearTreeCodeLen (accept s)).freq).length = 0 := by simpa using he
  rw [exec, execBuild, command_runs .build _ s hf hv]
  simp only [if_pos hlen]
  rfl

end

/-- Settles O20: `BUILD` leaves its forest, whose leaves are the seed's and whose internal nodes are the merges of the log. -/
theorem buildCompletesOnANonEmptyMap : Obligations.BuildCompletesOnANonEmptyMap := by
  refine ⟨rfl, ?_⟩
  rintro s _ hf hv rfl hne
  obtain ⟨-, hlog, hn⟩ := buildForest_ok s.freq s.nodes hne
  exact ⟨(buildForest s.freq s.nodes).nodes, execBuild_eq hf hv hne, buildForest_leaf,
    fun j hj hlt => hlog.merged j hj (hn ▸ hlt)⟩

/-! ## The empty map (R81, R119) -/

theorem presentSymbols_eq_nil_iff {freq : Vector Word 256} : presentSymbols freq = [] ↔ ∀ v, freqAt freq v = 0 := by
  simp [List.eq_nil_iff_forall_not_mem, mem_presentSymbols, ← BitVec.toNat_inj]

theorem execAll_cons {i : Instr} {s t : State} (is : List Instr) (h : exec i s = .next t) :
    execAll (i :: is) s = execAll is t := by
  rw [execAll, h]

/-- R132: while a fault is recorded no command of a sequence does anything, `RST` apart. -/
theorem execAll_faulted {is : List Instr} {s : State} (hi : .rst ∉ is) (hf : s.status.fault = true) :
    execAll is s = .next s := by
  induction is with
  | nil => rfl
  | cons i rest ih =>
    obtain ⟨hne, hrest⟩ := not_or.mp (List.mem_cons.not.mp hi)
    rw [execAll_cons rest (exec_faulted (Ne.symm hne) hf), ih hrest]

/-- Settles O21: `COUNT` of no input makes the empty map, and `ENCFRAME` ignores what stands after the faulted `BUILD`. -/
theorem emptyInputIsRaisedByBuild : Obligations.EmptyInputIsRaisedByBuild := by
  refine ⟨fun s hf hv h0 => ?_, fun s hf h0 => ?_⟩
  · rw [execBuild_empty hf hv (presentSymbols_eq_nil_iff.mpr h0)]
    rfl
  · have hin : inputSymbols s = [] := by simp [inputSymbols, h0]
    have hmap : presentSymbols (countAll (inputSymbols s)) = [] :=
      presentSymbols_eq_nil_iff.mpr fun v => by rw [freqAt_countAll, hin]; rfl
    have hrun : execAll encFrame s = .next _ :=
      calc execAll encFrame s
        _ = execAll encFrame.tail _ := execAll_cons _ (execCount_eq hf)
        _ = execAll encFrame.tail.tail _ := execAll_cons _ (execBuild_empty hf rfl hmap)
        _ = .next _ := execAll_faulted (by decide) rfl
    exact ⟨_, hrun, rfl, rfl, rfl, rfl, rfl⟩

/-! ## The order of the weights (R84) -/

section
variable {nodes : Vector Node 511} {k j : Nat}

theorem weight_le_of_before {a b : Handle} (h : before nodes a b = true) : weightAt nodes a ≤ weightAt nodes b := by
  rcases (before_iff nodes a b).mp h with h | h <;> omega

/-- What waits at the next turn has waited at this one and is no child of its merge, or is the node made by it. -/
theorem PendingAt.pred {nd : Node} {h : Handle} (hp : PendingAt nodes k (j + 1) h) (hkj : k ≤ j) (hj : j < 512)
    (hnd : nodes[j]? = some nd) : h = BitVec.ofNat 9 j ∨ (PendingAt nodes k j h ∧ h ≠ nd.left ∧ h ≠ nd.right) := by
  obtain ⟨hlt, hfree⟩ := hp
  rcases Nat.lt_succ_iff_lt_or_eq.mp hlt with hlt | heq
  · obtain ⟨hl, hr⟩ := hfree j nd hkj (Nat.lt_succ_self j) hnd
    exact .inr ⟨⟨hlt, fun i nd' h1 h2 => hfree i nd' h1 (Nat.lt_succ_of_lt h2)⟩, hl.symm, hr.symm⟩
  · exact .inl (BitVec.eq_of_toNat_eq (by rw [heq, toNat_ofNat_nine hj]))

/-- The weight of a merge of the two first is at most the sum of the weights of the two that the next turn merges: they are
two others, or one of them is the merge. -/
theorem MergedAt.weight_le {nd nd' : Node} (hm : MergedAt nodes k j) (hm' : MergedAt nodes k (j + 1)) (hkj : k ≤ j)
    (hj : j < 512) (hnd : nodes[j]? = some nd) (hnd' : nodes[j + 1]? = some nd')
    (hw : weightAt nodes (BitVec.ofNat 9 j) = weightAt nodes nd.left + weightAt nodes nd.right) :
    weightAt nodes (BitVec.ofNat 9 j) ≤ weightAt nodes nd'.left + weightAt nodes nd'.right := by
  obtain ⟨_, hn, -, -, -, -, -, hfirst⟩ := hm
  obtain ⟨_, hn', -, -, -, hl, hr, -⟩ := hm'
  obtain rfl := Option.some.inj (hnd.symm.trans hn)
  obtain rfl := Option.some.inj (hnd'.symm.trans hn')
  rcases hl.pred hkj hj hnd with hl | ⟨hl, hll, -⟩
  · rw [hl]; exact Nat.le_add_right _ _
  rcases hr.pred hkj hj hnd with hr | ⟨hr, hrl, hrr⟩
  · rw [hr]; exact Nat.le_add_left _ _
  rw [hw]
  exact Nat.add_le_add (weight_le_of_before ((hfirst _ hl).1 hll)) (weight_le_of_before ((hfirst _ hr).2 hrl hrr))

end

section
variable {freq : Vector Word 256} {nodes : Vector Node 511}

/-- R84: from one turn of the loop to the next the weight of the node made does not decrease. -/
theorem buildForest_weight_le_succ (h : presentSymbols freq ≠ []) (ht : freqTotal freq < 2 ^ 32) {j : Nat}
    (hkj : (presentSymbols freq).length ≤ j) (hj : j + 1 < (buildForest freq nodes).n) :
    weightAt (buildForest freq nodes).nodes (BitVec.ofNat 9 j) ≤
      weightAt (buildForest freq nodes).nodes (BitVec.ofNat 9 (j + 1)) := by
  obtain ⟨hok, hlog, -⟩ := buildForest_ok freq nodes h
  have hsums := buildForest_weights (nodes := nodes) h ht
  have hcap := hok.cap
  have hweight : ∀ {i : Nat} {nd : Node}, i < (buildForest freq nodes).n → (buildForest freq nodes).nodes[i]? = some nd →
      nd.leaf = false → weightAt (buildForest freq nodes).nodes (BitVec.ofNat 9 i) =
        weightAt (buildForest freq nodes).nodes nd.left + weightAt (buildForest freq nodes).nodes nd.right := by
    intro i nd hi hnd hleaf
    rw [← hsums.inner i nd hi hnd hleaf, weightAt, nodeAt_ofNat _ _ (by omega), hnd]
  have hm := hlog.merged j hkj (by omega)
  have hm' := hlog.merged (j + 1) (by omega) hj
  obtain ⟨nd, hnd, hleaf, -⟩ := id hm
  obtain ⟨nd', hnd', hleaf', -⟩ := id hm'
  rw [hweight hj hnd' hleaf']
  exact hm.weight_le hm' hkj (by omega) hnd hnd' (hweight (by omega) hnd hleaf)

theorem buildForest_weight_mono (h : presentSymbols freq ≠ []) (ht : freqTotal freq < 2 ^ 32) {i j : Nat}
    (hki : (presentSymbols freq).length ≤ i) (hij : i ≤ j) (hj : j < (buildForest freq nodes).n) :
    weightAt (buildForest freq nodes).nodes (BitVec.ofNat 9 i) ≤
      weightAt (buildForest freq nodes).nodes (BitVec.ofNat 9 j) := by
  induction j, hij using Nat.le_induction with
  | base => exact le_rfl
  | succ j hij ih => exact (ih (by omega)).trans (buildForest_weight_le_succ h ht (by omega) hj)

end

/-- Settles O24: the weights of the forest that `BUILD` leaves, in the order the nodes were made. -/
theorem mergeWeightsNeverDecrease : Obligations.MergeWeightsNeverDecrease := by
  intro s t hf _ hsum h ht a b hka hab hb
  obtain ⟨hne, rfl⟩ := execBuild_completed hf h ht
  obtain ⟨hok, -, -⟩ := buildForest_ok s.freq s.nodes hne
  have hcap := hok.cap
  have hk := presentSymbols_length s.freq
  change (BitVec.ofNat 9 (presentSymbols s.freq).length).toNat ≤ a.toNat at hka
  change b.toNat < (BitVec.ofNat 9 (buildForest s.freq s.nodes).n).toNat at hb
  rw [toNat_ofNat_nine (by omega)] at hka hb
  have hle := buildForest_weight_mono hne hsum hka hab hb
  simp only [BitVec.ofNat_toNat, BitVec.setWidth_eq] at hle
  exact hle

/-! ## `BUILD` depends on the map alone (R82) -/

/-- Two forests that `BUILD` cannot tell apart: they differ at most in entries of the arena not in use. -/
structure SameForest (f g : Forest) : Prop where
  n : g.n = f.n
  queue : g.queue = f.queue
  nodes : ∀ j, j < f.n → g.nodes[j]? = f.nodes[j]?

theorem mergeOnce_of_removeFirst {f : Forest} {a b : Handle} {q1 q2 : List Handle}
    (h1 : removeFirst f.nodes f.queue = some (a, q1)) (h2 : removeFirst f.nodes q1 = some (b, q2)) :
    mergeOnce f = ⟨setNodeAt f.nodes f.n
      (innerNode (BitVec.ofNat 32 (weightAt f.nodes a + weightAt f.nodes b)) a b), f.n + 1, q2 ++ [BitVec.ofNat 9 f.n]⟩ := by
  rw [mergeOnce, h1]
  simp only [h2]

section
variable {k : Nat} {f g : Forest}

theorem SameForest.mergeOnce (hs : SameForest f g) (hf : ForestOk k f) (hk : k ≤ 256) (hq : 2 ≤ f.queue.length) :
    SameForest (Machine.mergeOnce f) (Machine.mergeOnce g) := by
  have hcount := hf.count
  obtain ⟨a, q1, e1⟩ := removeFirst_isSome f.nodes f.queue (by intro e; simp [e] at hq)
  have p1 := removeFirst_perm e1
  have hlen := p1.length_eq
  rw [List.length_cons] at hlen
  obtain ⟨b, q2, e2⟩ := removeFirst_isSome f.nodes q1 (by rintro rfl; simp at hlen; omega)
  have hsmall : ∀ h ∈ a :: q1, h.toNat < f.n := fun h hh => hf.small h (p1.mem_iff.mpr hh)
  obtain ⟨ha, hq1⟩ := List.forall_mem_cons.mp hsmall
  have hb := hq1 b ((removeFirst_perm e2).mem_iff.mpr List.mem_cons_self)
  have e1' : removeFirst g.nodes g.queue = some (a, q1) := by
    rw [hs.queue, removeFirst_congr hs.nodes hf.small, e1]
  have e2' : removeFirst g.nodes q1 = some (b, q2) := by rw [removeFirst_congr hs.nodes hq1, e2]
  rw [mergeOnce_of_removeFirst e1 e2, mergeOnce_of_removeFirst e1' e2', hs.n, weightAt_congr (hs.nodes _ ha),
    weightAt_congr (hs.nodes _ hb)]
  refine ⟨rfl, rfl, fun j (hj : j < f.n + 1) => ?_⟩
  simp only [setNodeAt_getElem? _ _ _ _ (show f.n < 511 by omega)]
  split
  · rfl
  · exact hs.nodes j (by omega)

theorem SameForest.mergeTimes (hk : k ≤ 256) (m : Nat) (hs : SameForest f g) (hf : ForestOk k f)
    (hm : m < f.queue.length) : SameForest (Machine.mergeTimes m f) (Machine.mergeTimes m g) := by
  induction m generalizing f g with
  | zero => exact hs
  | succ m ih =>
    obtain ⟨h1, hn, -, -⟩ := hf.mergeOnce hk (by omega)
    have hc := hf.count
    have hc' := h1.count
    exact ih (hs.mergeOnce hf hk (by omega)) h1 (by omega)

end

section
variable (freq : Vector Word 256) (nodes nodes' : Vector Node 511)

theorem SameForest.seed : SameForest (seedForest freq nodes) (seedForest freq nodes') :=
  ⟨rfl, rfl, fun j hj => by rw [seedForest_leaf freq nodes j hj, seedForest_leaf freq nodes' j hj]⟩

/-- R82: what the arena held before does not matter. -/
theorem SameForest.build : SameForest (buildForest freq nodes) (buildForest freq nodes') := by
  rcases Nat.eq_zero_or_pos (presentSymbols freq).length with h0 | h0
  · rw [buildForest, buildForest, h0]
    exact .seed freq nodes nodes'
  · exact (SameForest.seed freq nodes nodes').mergeTimes (presentSymbols_length freq) _ (ForestOk.seed freq nodes)
      (merges_lt_seedForest_queue h0)

end

/-- Entries at `n` and above do not matter to the trees below `n`. -/
theorem PointsDown.treeOf_congr {nodes nodes' : Vector Node 511} {n : Nat} (hp : PointsDown nodes n)
    (hag : ∀ j, j < n → nodes'[j]? = nodes[j]?) (d : Nat) (h : Handle) (hh : h.toNat < n) :
    treeOf nodes' d h = treeOf nodes d h := by
  induction d generalizing h with
  | zero => rfl
  | succ d ih =>
    rw [treeOf, treeOf, nodeAt, nodeAt, hag _ hh]
    obtain ⟨nd, hn, hl | ⟨hl, h1, h2, -⟩⟩ := hp _ hh
    · simp [hn, hl]
    · simp [hn, hl, ih nd.left (by omega), ih nd.right (by omega)]

/-- Settles O25: two runs of `BUILD` on one map end with the same forest, or both find the map empty. -/
theorem buildDependsOnTheMapAlone : Obligations.BuildDependsOnTheMapAlone := by
  intro s s' t t' hmap hf hf' hv hv' h h'
  by_cases hne : presentSymbols s.freq = []
  · rw [execBuild_empty hf hv hne] at h
    rw [execBuild_empty hf' hv' (hmap ▸ hne)] at h'
    cases h
    cases h'
    exact ⟨rfl, fun ht => by cases ht⟩
  · obtain ⟨hok, -, hn⟩ := buildForest_ok s.freq s.nodes hne
    have hpos := List.length_pos_iff.mpr hne
    have hk := presentSymbols_length s.freq
    have hsame := SameForest.build s.freq s.nodes s'.nodes
    have htree := hok.down.treeOf_congr hsame.nodes Config.nodeMax
      (BitVec.ofNat 9 (2 * (presentSymbols s.freq).length - 2)) (by rw [toNat_ofNat_nine (by omega), hn]; omega)
    rw [execBuild_eq hf hv hne] at h
    rw [execBuild_eq hf' hv' (hmap ▸ hne), ← hmap] at h'
    cases h
    cases h'
    refine ⟨hf.trans hf'.symm, fun _ => ⟨rfl, htree.symm, fun a ha => (hsame.nodes _ ?_).symm⟩⟩
    rwa [hn, ← toNat_ofNat_nine (show 2 * (presentSymbols s.freq).length - 1 < 512 by omega)]

end Sys2Proof.Machine

/-! PROOFS. The code-table generator: the Code Table (R88, R89) and the two lengths (R90): O26, O27, O29. -/

namespace Sys2Proof.Machine

/-! ## `GENCODES` -/

section
variable {s : State}

/-- R88: once it runs, `GENCODES` writes the Code Table of the arena. -/
theorem execGencodes_eq {codes : Vector CodeEntry 256} (hf : s.status.fault = false) (hv : s.status.treeV = true)
    (hc : codeTable s.nodes s.treeInfo.root = .ok codes) :
    exec .gencodes s = .next { s with
      codes := codes
      status := { s.status with busy := false, done := true, codeV := true, lenV := false } } := by
  rw [exec, execGencodes, command_runs .gencodes _ s hf hv]
  simp only [clearCodeLen_nodes, clearCodeLen_treeInfo, accept_nodes, accept_treeInfo, hc]
  rfl

/-- `GENCODES` answers a next state only on a tree. -/
theorem tree_of_execGencodes {t : State} (hf : s.status.fault = false) (hv : s.status.treeV = true)
    (h : exec .gencodes s = .next t) : ∃ tree, s.tree = some tree := by
  rcases hc : codeTable s.nodes s.treeInfo.root with f | codes
  · rw [exec, execGencodes, command_runs .gencodes _ s hf hv] at h
    simp only [clearCodeLen_nodes, clearCodeLen_treeInfo, accept_nodes, accept_treeInfo, hc] at h
    cases h
  · exact treeOf_of_codeTable hc

end

/-- Settles O26: the Code Table of the arena holds the path of every symbol of its tree. -/
theorem gencodesWritesThePathOfEverySymbol : Obligations.GencodesWritesThePathOfEverySymbol := by
  refine ⟨rfl, fun s tree hf hv ht => ?_⟩
  obtain ⟨codes, hc, hcodes⟩ := codeTable_treeOf ht
  exact ⟨codes, execGencodes_eq hf hv hc, hcodes⟩

/-- R89: a codeword that begins another one is a codeword of the same symbol. -/
theorem Tree.Codeword.symbol_eq_of_prefix {t : Tree} {v w : Symbol} {p q : List Bit} (hp : t.Codeword v p)
    (hq : t.Codeword w q) (hpq : p <+: q) : v = w := by
  cases t with
  | leaf u => exact hp.1.trans hq.1.symm
  | inner l r =>
    obtain rfl := Tree.leafAt_prefix_free hp hq hpq
    exact Option.some.inj (hp.symm.trans hq)

/-- Settles O27: the valid codes are codewords of the tree that `GENCODES` walked. -/
theorem codesArePrefixFree : Obligations.CodesArePrefixFree := by
  intro s t hf hv h v w hne hvalid hvalid' hprefix
  obtain ⟨tree, ht⟩ := tree_of_execGencodes hf hv h
  simp only [execGencodes_codes hf hv ht h] at hvalid hvalid' hprefix
  exact hne ((Tree.codeword_of_codeEntry hvalid).symbol_eq_of_prefix (Tree.codeword_of_codeEntry hvalid') hprefix)

/-! ## `CALCLEN` -/

/-- R9, R90: the loop over the symbols goes in ascending order. -/
theorem allSymbols_ascending : Config.allSymbols.Pairwise fun u v => u.toNat < v.toNat := by
  refine List.pairwise_map.mpr (List.pairwise_lt_range.imp_of_mem fun {a b} ha hb hab => ?_)
  have ha' : a < 2 ^ 8 := List.mem_range.mp ha
  have hb' : b < 2 ^ 8 := List.mem_range.mp hb
  rwa [BitVec.toNat_ofNat, BitVec.toNat_ofNat, Nat.mod_eq_of_lt ha', Nat.mod_eq_of_lt hb']

/-- The list of all symbols, cut before one of them: what stands before it is smaller. -/
theorem allSymbols_split (v : Symbol) :
    ∃ pre post, Config.allSymbols = pre ++ v :: post ∧ ∀ u ∈ pre, u.toNat < v.toNat := by
  obtain ⟨pre, post, hsplit⟩ := List.append_of_mem (mem_allSymbols v)
  obtain ⟨-, -, hbelow⟩ := List.pairwise_append.mp (hsplit ▸ allSymbols_ascending)
  exact ⟨pre, post, hsplit, fun u hu => hbelow u hu v List.mem_cons_self⟩

section
variable {freq : Vector Word 256} {codes : Vector CodeEntry 256}

/-- R90: symbols that have a code wherever they occur add their weighted lengths, and the loop goes on. -/
theorem payloadLength_coded_append {vs : List Symbol}
    (hvs : ∀ v ∈ vs, 0 < (freqAt freq v).toNat → (codeAt codes v).valid = true) (rest : List Symbol) (p : Nat) :
    payloadLength freq codes (vs ++ rest) p =
      payloadLength freq codes rest (p + (vs.map fun v => (freqAt freq v).toNat * (codeAt codes v).len).sum) := by
  induction vs generalizing p with
  | nil => rfl
  | cons v vs ih =>
    obtain ⟨hv, hvs⟩ := List.forall_mem_cons.mp hvs
    rw [List.cons_append, payloadLength, List.map_cons, List.sum_cons, ← Nat.add_assoc]
    by_cases hocc : 0 < (freqAt freq v).toNat
    · rw [if_pos hocc, if_pos (hv hocc), ih hvs]
    · rw [if_neg hocc, ih hvs, Nat.eq_zero_of_not_pos hocc, Nat.zero_mul, Nat.add_zero]

/-- R90: when every symbol that occurs has a code the loop ends with the payload length. -/
theorem payloadLength_coded (h : ∀ v, 0 < (freqAt freq v).toNat → (codeAt codes v).valid = true) :
    payloadLength freq codes Config.allSymbols 0 = .ok (payloadTotal freq codes) := by
  have hloop := payloadLength_coded_append (vs := Config.allSymbols) (fun v _ => h v) [] 0
  rwa [List.append_nil, Nat.zero_add] at hloop

/-- R90: the loop stops at the smallest symbol that occurs and has no code. -/
theorem payloadLength_uncoded {v : Symbol} (hocc : 0 < (freqAt freq v).toNat) (hv : (codeAt codes v).valid = false)
    (hbelow : ∀ u : Symbol, u.toNat < v.toNat → 0 < (freqAt freq u).toNat → (codeAt codes u).valid = true) :
    payloadLength freq codes Config.allSymbols 0 = .error v := by
  obtain ⟨pre, post, hsplit, hpre⟩ := allSymbols_split v
  rw [hsplit, payloadLength_coded_append fun u hu => hbelow u (hpre u hu)]
  simp [payloadLength, hocc, hv]

end

section
variable {s : State} (hf : s.status.fault = false) (hp : precondition .calclen s.status = true)
include hf hp

/-- R130: `CALCLEN` names the symbol its loop stopped at. -/
theorem execCalclen_unknown {v : Symbol} (hloop : payloadLength s.freq s.codes Config.allSymbols 0 = .error v) :
    exec .calclen s = .next (raise (opcodeOf .calclen) .unknownSymbol (v.zeroExtend 32) (clearLen (accept s))) := by
  rw [exec, execCalclen, command_runs .calclen _ s hf hp]
  simp only [clearLen_freq, clearLen_codes, accept_freq, accept_codes, hloop]
  rfl

/-- R134: a payload length that `PAY_BITS` cannot hold. -/
theorem execCalclen_overflow {p : Nat} (hloop : payloadLength s.freq s.codes Config.allSymbols 0 = .ok p)
    (hbig : 2 ^ 32 ≤ p) :
    exec .calclen s = .next (raise (opcodeOf .calclen) .capacityExceeded 0 (clearLen (accept s))) := by
  rw [exec, execCalclen, command_runs .calclen _ s hf hp]
  simp only [clearLen_freq, clearLen_codes, accept_freq, accept_codes, hloop, if_pos hbig]
  rfl

/-- R90: `CALCLEN` completes with the two lengths. -/
theorem execCalclen_eq {p : Nat} (hloop : payloadLength s.freq s.codes Config.allSymbols 0 = .ok p) (hfits : p < 2 ^ 32) :
    exec .calclen s = .next { s with
      hdrBits := BitVec.ofNat 32 (headerLength s.treeInfo)
      payBits := BitVec.ofNat 32 p
      status := { s.status with busy := false, done := true, lenV := true } } := by
  rw [exec, execCalclen, command_runs .calclen _ s hf hp]
  simp only [clearLen_freq, clearLen_codes, accept_freq, accept_codes, hloop, if_neg (Nat.not_le.mpr hfits)]
  rfl

end

/-- Settles O29: the loop over the symbols ends with the payload length, or stops at the first symbol without a code. -/
theorem calclenComputesTheLengths : Obligations.CalclenComputesTheLengths := by
  refine ⟨rfl, fun s hf hfreq htree hcode => ?_⟩
  have hp : precondition .calclen s.status = true := by simp [precondition, hfreq, htree, hcode]
  refine ⟨fun hcoded hfits _ => ?_, fun v hocc hv hbelow => ?_, fun hcoded hbig => ?_⟩
  · exact execCalclen_eq hf hp (payloadLength_coded hcoded) hfits
  · exact execCalclen_unknown hf hp (payloadLength_uncoded hocc hv hbelow)
  · exact execCalclen_overflow hf hp (payloadLength_coded hcoded) hbig

end Sys2Proof.Machine

/-! PROOFS. The tree codec (R94 to R98): what `STTREE` appends, what the loads leave, and how they fault: O30, O32 to O35. -/

namespace Sys2Proof.Machine

/-! ## `STTREE` -/

/-- Settles O30: the walk of the arena computes the header of its tree, and writing it is one append. -/
theorem sttreeWritesTheHeader : Obligations.SttreeWritesTheHeader := by
  refine ⟨rfl, fun s tree hf hv ht => ?_⟩
  have hwalk : headerBits s.nodes Config.nodeMax s.treeInfo.root = .ok tree.header := headerBits_treeOf ht
  rw [exec, execSttree, command_runs .sttree _ s hf hv]
  simp only [accept_nodes, accept_treeInfo, hwalk, writeBits_eq_wrote]
  rfl

/-! ## The two loads as one -/

/-- The load without a declared length (R95) and the one with it (R96). -/
def loadCommand (bounded : Bool) : Instr := if bounded then .ldtreeb else .ldtree

theorem exec_loadCommand (bounded : Bool) {s : State} (hf : s.status.fault = false) :
    exec (loadCommand bounded) s = (loadTree (opcodeOf (loadCommand bounded)) bounded (accept s)).outcome := by
  cases bounded
  · exact command_runs .ldtree _ s hf rfl
  · exact command_runs .ldtreeb _ s hf rfl

/-- At the start of a load the whole declared length is left. -/
theorem budget_start {bounded : Bool} {k : Nat} {s : State} (h : bounded = true → k ≤ s.hdrBits.toNat) :
    Budget bounded s.rcur.toNat k s :=
  fun hb => ⟨le_refl _, by have := h hb; omega⟩

/-- R98: a load that finds the whole header of a tree that fits the arena has it in preorder, and completes unless the declared
length goes on. -/
theorem loadTree_header {opc : Opcode} {bounded : Bool} {t : Tree} {s : State} (ht : t.leaves.length ≤ 256)
    (hb : BinHolds s t.header) (hroom : bounded = true → t.header.length ≤ s.hdrBits.toNat) :
    ∃ nodes, LoadedAt nodes 0 Config.nodeMax t ∧ loadTree opc bounded s =
      if bounded = true ∧ t.header.length ≠ s.hdrBits.toNat then
        .raised (raise opc .malformedHeader (advanced t.header.length s).rcur
          { advanced t.header.length (clearTreeCodeLen s) with nodes := nodes })
      else .ok () (setTreeV { advanced t.header.length (clearTreeCodeLen s) with
        nodes := nodes
        treeInfo := ⟨0, BitVec.ofNat 9 t.size, BitVec.ofNat 9 t.leaves.length⟩ }) := by
  have hsize : t.size ≤ Config.nodeMax := by simp only [Tree.size, Config.nodeMax]; omega
  obtain ⟨nodes, hload, -, hat⟩ := loadNode_header (opc := opc) (bounded := bounded) (start := s.rcur.toNat) t
    Config.nodeMax 0 0 (clearTreeCodeLen s) hsize (by rwa [Nat.zero_add]) hb (budget_start hroom)
  refine ⟨nodes, hat nodes fun _ _ _ => rfl, ?_⟩
  have hread : (advanced t.header.length (clearTreeCodeLen s)).rcur.toNat - s.rcur.toNat = t.header.length := by
    have hrcur : (advanced t.header.length (clearTreeCodeLen s)).rcur.toNat = s.rcur.toNat + t.header.length :=
      hb.rcur_toNat
    rw [hrcur, Nat.add_sub_cancel_left]
  rw [loadTree]
  simp only [clearTreeCodeLen_rcur, hload, Res.bind_ok, hread, Nat.zero_add, Bool.and_eq_true, decide_eq_true_eq]
  rfl

/-! ## Loads that complete -/

/-- R95, R96: the load of a header of at most 256 leaves, all of the declared length where there is one. -/
theorem exec_load_header (bounded : Bool) {t : Tree} {s : State} (hf : s.status.fault = false)
    (ht : t.leaves.length ≤ 256) (hb : BinHolds s t.header) (hlen : bounded = true → t.header.length = s.hdrBits.toNat) :
    ∃ nodes, LoadedAt nodes 0 Config.nodeMax t ∧ exec (loadCommand bounded) s = .next { s with
      nodes := nodes
      treeInfo := ⟨0, BitVec.ofNat 9 t.size, BitVec.ofNat 9 t.leaves.length⟩
      rcur := s.rcur + BitVec.ofNat 32 t.header.length
      status := { s.status with busy := false, done := true, treeV := true, codeV := false, lenV := false } } := by
  obtain ⟨nodes, hat, hload⟩ := loadTree_header (opc := opcodeOf (loadCommand bounded)) (s := accept s) ht hb
    fun h => (hlen h).le
  refine ⟨nodes, hat, ?_⟩
  rw [exec_loadCommand bounded hf, hload, if_neg fun h => h.2 (hlen h.1)]
  rfl

/-- Settles O32: the arena holds the tree in preorder, as `LoadedAt` says of the tree and of each entry. -/
theorem loadsRebuildTheTree : Obligations.LoadsRebuildTheTree := by
  refine ⟨rfl, rfl, fun s tree i hi hf hle hb => ?_⟩
  have hcmd : ∃ bounded, i = loadCommand bounded ∧ (bounded = true → tree.header.length = s.hdrBits.toNat) := by
    rcases hi with rfl | ⟨rfl, hlen⟩
    · exact ⟨false, rfl, nofun⟩
    · exact ⟨true, rfl, fun _ => hlen.symm⟩
  obtain ⟨bounded, rfl, hlen⟩ := hcmd
  obtain ⟨nodes, hat, hexec⟩ := exec_load_header bounded hf hle hb hlen
  rw [tree.header_length] at hexec
  exact ⟨nodes, hexec, hat.tree, fun j hj => hat.entries j (Nat.zero_le j) (by rwa [Nat.zero_add])⟩

/-- Settles O33: a load that does not raise a fault has returned, and `loadTree_ok` says with what. -/
theorem loadedTreeIsTheHeaderRead : Obligations.LoadedTreeIsTheHeaderRead := by
  intro s t i hi hf hexec hnf
  have hcmd : ∃ bounded, i = loadCommand bounded ∧ (i = .ldtreeb → bounded = true) := by
    rcases hi with rfl | rfl
    · exact ⟨false, rfl, nofun⟩
    · exact ⟨true, rfl, fun _ => rfl⟩
  obtain ⟨bounded, rfl, hbounded⟩ := hcmd
  rw [exec_loadCommand bounded hf] at hexec
  rcases hload : loadTree (opcodeOf (loadCommand bounded)) bounded (accept s) with ⟨⟨⟩, u⟩ | u | f
  · obtain ⟨tree, nodes, hsize, hb, hat, hlen, rfl⟩ := loadTree_ok hload
    rw [hload] at hexec
    cases hexec
    exact ⟨hat.treeWf hsize, tree, hat.tree, hb, hb.rcur_toNat, fun h => hlen (hbounded h)⟩
  · have hends := loadTree_ends (opc := opcodeOf (loadCommand bounded)) (bounded := bounded) (accept s)
    rw [hload] at hends hexec
    obtain ⟨k, info, v, -, -, rfl⟩ := hends
    cases hexec
    cases hnf
  · rw [hload] at hexec
    cases hexec

/-! ## Loads that fault -/

/-- The load raises a fault after `n` bits, with their end as its information, and leaves no valid tree (R98, R130, R131). -/
def LoadFaults (bounded : Bool) (kind : FaultKind) (n : Nat) (s : State) : Prop :=
  ∃ nodes, exec (loadCommand bounded) s = .next (raise (opcodeOf (loadCommand bounded)) kind (advanced n s).rcur
    { advanced n (clearTreeCodeLen (accept s)) with nodes := nodes })

section
variable {bounded : Bool} {kind : FaultKind} {s : State} {tree : Tree} {q : List Bit}

/-- A fault inside `des()` is the fault of the load. -/
theorem LoadFaults.of_loadNode {n : Nat} (hf : s.status.fault = false)
    (h : ∃ nodes, loadNode (opcodeOf (loadCommand bounded)) bounded s.rcur.toNat Config.nodeMax 0 0
        (clearTreeCodeLen (accept s)) =
      .raised (raise (opcodeOf (loadCommand bounded)) kind (advanced n s).rcur
        { advanced n (clearTreeCodeLen (accept s)) with nodes := nodes })) : LoadFaults bounded kind n s := by
  obtain ⟨nodes, hload⟩ := h
  refine ⟨nodes, ?_⟩
  rw [exec_loadCommand bounded hf, loadTree]
  simp only [clearTreeCodeLen_rcur, accept_rcur, hload, Res.bind_raised, Res.outcome_raised]

/-- A load faults where the bits of a header stop before it is complete and before the arena is full. -/
theorem loadFaults_of_stopsAfter (hf : s.status.fault = false) (hq : q <+: tree.loadableBits)
    (hne : q ≠ tree.loadableBits) (hb : BinHolds s q) (hroom : bounded = true → q.length ≤ s.hdrBits.toNat)
    (hs : StopsAfter (opcodeOf (loadCommand bounded)) bounded s.rcur.toNat kind q s) :
    LoadFaults bounded kind q.length s :=
  .of_loadNode hf (loadNode_stop tree q Config.nodeMax 0 0 (clearTreeCodeLen (accept s)) (le_refl _) (Nat.zero_le _)
    hq hne hb (budget_start hroom) hs)

/-- The stream ends after `q`, short of the declared length where there is one: `EOS` at the next header bit (R98). -/
theorem BinEndsAfter.stopsAfter {opc : Opcode} (he : BinEndsAfter s q)
    (hroom : bounded = true → q.length < s.hdrBits.toNat) :
    StopsAfter opc bounded s.rcur.toNat (if bounded then .truncatedStream else .malformedHeader) q s := by
  intro u hrcur hlen _ hhdr
  have hat : u.rcur.toNat = s.rcur.toNat + q.length := by rw [hrcur, he.1.rcur_toNat]
  have heos : Machine.readBit u = none := readBit_eos u (by rw [hlen, hat]; exact he.2)
  have hbudget : ¬(bounded && decide (u.rcur.toNat - s.rcur.toNat = u.hdrBits.toNat)) = true := by
    rw [hat, hhdr, Nat.add_sub_cancel_left]
    simpa using fun h => (hroom h).ne
  rw [headerBit, if_neg hbudget, heos]

/-- The declared length ends after `q`: the budget is tested before the stream (R98). -/
theorem BinHolds.stopsAfter_declared {opc : Opcode} (hb : BinHolds s q) (hlen : s.hdrBits.toNat = q.length) :
    StopsAfter opc true s.rcur.toNat .malformedHeader q s := by
  intro u hrcur _ _ hhdr
  have hbudget : u.rcur.toNat - s.rcur.toNat = u.hdrBits.toNat := by
    rw [hrcur, hb.rcur_toNat, hhdr, hlen, Nat.add_sub_cancel_left]
  rw [headerBit, if_pos (by simp [hbudget])]

/-- R96: the header of a tree that fits the arena, with a longer declared length. -/
theorem loadFaults_of_longer_declared (hf : s.status.fault = false) (hle : tree.leaves.length ≤ 256)
    (hb : BinHolds s tree.header) (hlong : tree.header.length < s.hdrBits.toNat) :
    LoadFaults true .malformedHeader tree.header.length s := by
  obtain ⟨nodes, -, hload⟩ := loadTree_header (opc := opcodeOf .ldtreeb) (bounded := true) (s := accept s) hle hb
    fun _ => hlong.le
  refine ⟨nodes, ?_⟩
  rw [exec_loadCommand true hf]
  exact congrArg Res.outcome (hload.trans (if_pos ⟨rfl, hlong.ne⟩))

/-- R95, R98: a header of more nodes than the arena has. -/
theorem loadFaults_of_overflow (hf : s.status.fault = false) (hbig : 256 < tree.leaves.length)
    (hb : BinHolds s tree.loadableBits) (hroom : bounded = true → tree.loadableBits.length ≤ s.hdrBits.toNat) :
    LoadFaults bounded .capacityExceeded tree.loadableBits.length s := by
  have hsize : 511 < 0 + tree.size := by rw [Tree.size]; omega
  exact .of_loadNode hf (loadNode_overflow tree Config.nodeMax 0 0 (clearTreeCodeLen (accept s)) (le_refl _)
    (Nat.zero_le _) hsize hb (budget_start hroom))

end

/-- Settles O34: the next header bit is where the stream or the declared length ends; a header read to its end is shorter than
the declared length. -/
theorem loadsFaultOnABrokenHeader : Obligations.LoadsFaultOnABrokenHeader := by
  intro s tree q hf hq
  refine ⟨fun hne he => ?_, fun hne he hroom => ?_, fun hne hb hlen => ?_, ?_⟩
  · exact loadFaults_of_stopsAfter (bounded := false) hf hq hne he.1 nofun (he.stopsAfter nofun)
  · exact loadFaults_of_stopsAfter (bounded := true) hf hq hne he.1 (fun _ => hroom.le) (he.stopsAfter fun _ => hroom)
  · exact loadFaults_of_stopsAfter (bounded := true) hf hq hne hb (fun _ => hlen.ge) (hb.stopsAfter_declared hlen)
  · rintro hle rfl hb hlong
    exact loadFaults_of_longer_declared hf hle hb hlong

/-! ## Zero bits: a header that only nests (R95 corner case 4) -/

/-- The tree of `n + 1` leaves whose internal nodes all lie on the leftmost path. -/
def Tree.comb : Nat → Tree
  | 0 => .leaf 0
  | n + 1 => .inner (comb n) (.leaf 0)

theorem Tree.comb_leaves_length (n : Nat) : (Tree.comb n).leaves.length = n + 1 := by
  induction n with
  | zero => rfl
  | succ n ih => simp [Tree.comb, Tree.leaves, ih]

/-- The header of a comb begins with a zero bit for each of its internal nodes. -/
theorem Tree.comb_upTo (n : Nat) : (Tree.comb n).upTo n = List.replicate n false := by
  induction n with
  | zero => rfl
  | succ n ih =>
    have hfull : n - (Tree.comb n).size = 0 := by rw [Tree.size, Tree.comb_leaves_length]; omega
    rw [Tree.comb, Tree.upTo_inner, ih, hfull, Tree.upTo_zero, List.append_nil, List.replicate_succ]

/-- Settles O35: the arena is full after 511 nodes, and 511 zero bits are 511 nodes of a comb. -/
theorem loadOfTooManyNodesIsCapacityExceeded : Obligations.LoadOfTooManyNodesIsCapacityExceeded := by
  refine ⟨fun s tree hf hbig hb => ⟨?_, fun hroom => ?_⟩, fun s hf hzeros => ?_⟩
  · exact loadFaults_of_overflow (bounded := false) hf hbig hb nofun
  · exact loadFaults_of_overflow (bounded := true) hf hbig hb fun _ => hroom
  · have hbits : (Tree.comb 511).loadableBits = List.replicate 511 false := Tree.comb_upTo 511
    have hbig : 256 < (Tree.comb 511).leaves.length := by rw [Tree.comb_leaves_length]; omega
    have hfault : ∀ bounded, (bounded = true → 511 ≤ s.hdrBits.toNat) →
        LoadFaults bounded .capacityExceeded 511 s := fun bounded hroom => by
      have hload := loadFaults_of_overflow (bounded := bounded) hf hbig (by rwa [hbits])
        (by rwa [hbits, List.length_replicate])
      rwa [hbits, List.length_replicate] at hload
    exact ⟨hfault false nofun, fun hroom => hfault true fun _ => hroom⟩

end Sys2Proof.Machine

/-! PROOFS. The payload codec (R100 to R105): what `ENCODE` writes, what the decoders emit and read and how they fault, and the
payload round trip: O36, O38 to O44. -/

namespace Sys2Proof.Machine

/-! ## The bits left in the stream (R43) -/

section
variable {s : State} {p : List Bit}

theorem BinHolds.length_le_left (h : BinHolds s p) : p.length ≤ s.binLen.toNat - s.rcur.toNat := by
  rcases eq_or_ne p [] with rfl | hp
  · exact Nat.zero_le _
  · have := h.room hp
    omega

theorem BinEndsAfter.left_eq (h : BinEndsAfter s p) : s.binLen.toNat - s.rcur.toNat = p.length := by
  obtain ⟨hb, hend⟩ := h
  have := hb.length_le_left
  omega

end

theorem advanced_toNat (w : Word) (s : State) : advanced w.toNat s = { s with rcur := s.rcur + w } := by
  rw [advanced, BitVec.ofNat_toNat, BitVec.setWidth_eq]

/-! ## The three commands as their loops -/

section
variable {s : State}

theorem execEncode_eq (hf : s.status.fault = false) (hv : s.status.codeV = true) :
    exec .encode s = (encodeSymbols (inputSymbols s) (accept s)).outcome := command_runs .encode _ s hf hv

theorem execDecn_eq (hf : s.status.fault = false) (hv : s.status.treeV = true) :
    exec .decn s = (decnLoop s.treeInfo.root (s.binLen.toNat - s.rcur.toNat) s.treeInfo.root s.symCount.toNat
      (accept s)).outcome := command_runs .decn _ s hf hv

theorem execDecl_eq (hf : s.status.fault = false) (hv : s.status.treeV = true) :
    exec .decl s = (declLoop s.treeInfo.root s.payBits.toNat s.treeInfo.root (accept s)).outcome :=
  command_runs .decl _ s hf hv

end

/-! ## `ENCODE` (R100) -/

/-- R100: with a code for every input symbol `ENCODE` writes the payload. -/
theorem execEncode_valid {s : State} (hf : s.status.fault = false) (hv : s.status.codeV = true)
    (hcodes : ∀ v ∈ inputSymbols s, (codeAt s.codes v).valid = true) :
    exec .encode s = .next (complete (wrote (payloadOf s.codes (inputSymbols s)) s)) := by
  rw [execEncode_eq hf hv, encodeSymbols_valid _ (accept s) hcodes]
  rfl

/-- Settles O36: the loop over the input symbols ends with the payload, or stops at the first symbol without a code. -/
theorem encodeWritesThePayload : Obligations.EncodeWritesThePayload := by
  refine ⟨rfl, fun s hf hv => ⟨fun hcodes => execEncode_valid hf hv hcodes, fun pre post v hsplit hpre hbad => ?_⟩⟩
  have hin : inputSymbols s = pre ++ v :: post := hsplit
  rw [execEncode_eq hf hv, hin, encodeSymbols_unknown pre post v (accept s) hpre hbad]
  rfl

/-! ## The decoders on whole codewords (R101 to R103) -/

@[simp] theorem decnLoop_none_owed (root cur : Handle) (left : Nat) (s : State) :
    decnLoop root left cur 0 s = .ok () s := by
  cases left <;> simp [decnLoop]

section
variable {s : State} {tree : Tree} {words : List (Symbol × List Bit)} (hf : s.status.fault = false)
  (hv : s.status.treeV = true) (ht : s.tree = some tree) (hw : ∀ w ∈ words, tree.Codeword w.1 w.2)
include hf hv ht hw

/-- R101: `DECN` decodes as many codewords as it owes symbols, whatever follows them in the stream. -/
theorem execDecn_words (hcount : s.symCount.toNat = words.length) (hb : BinHolds s (words.map Prod.snd).flatten) :
    exec .decn s = .next (complete
      (advanced (words.map Prod.snd).flatten.length (emittedAll (words.map Prod.fst) s))) := by
  obtain ⟨n, hn⟩ := Nat.exists_eq_add_of_le hb.length_le_left
  have hloop := decnLoop_words (s := accept s) words n 0 ht hw hb
  rw [execDecn_eq hf hv, hn, hcount, ← Nat.add_zero words.length]
  rw [hloop, decnLoop_none_owed]
  rfl

/-- R102: `DECL` decodes the codewords that make up the declared length, whatever follows them in the stream. -/
theorem execDecl_words (hlen : s.payBits.toNat = (words.map Prod.snd).flatten.length)
    (hb : BinHolds s (words.map Prod.snd).flatten) :
    exec .decl s = .next (complete
      (advanced (words.map Prod.snd).flatten.length (emittedAll (words.map Prod.fst) s))) := by
  have hloop := declLoop_words (s := accept s) words 0 ht hw hb
  rw [execDecl_eq hf hv, hlen, ← Nat.add_zero (List.length _), hloop, declLoop, if_pos rfl]
  rfl

end

/-- Settles O38: the loop of `DECN` over the codewords, until no symbol is owed. -/
theorem decnDecodesTheDeclaredCount : Obligations.DecnDecodesTheDeclaredCount := by
  refine ⟨rfl, fun s tree words hf hv ht hw hcount hb => ?_⟩
  rw [execDecn_words hf hv ht hw hcount hb, ← List.length_map (as := words) Prod.fst]
  rfl

/-- Settles O39: the loop of `DECL` over the codewords, which ends at the root when no declared bit is left. -/
theorem declDecodesTheDeclaredLength : Obligations.DeclDecodesTheDeclaredLength := by
  refine ⟨rfl, fun s tree words hf hv ht hw hlen hb => ?_⟩
  rw [execDecl_words hf hv ht hw hlen hb, ← hlen, advanced_toNat, ← List.length_map (as := words) Prod.fst]
  rfl

/-! ## The payload round trip (R104) -/

/-- The symbols of an input with their codes: the codewords its payload is made of (R69). -/
def codedWords (codes : Vector CodeEntry 256) (input : List Symbol) : List (Symbol × List Bit) :=
  input.map fun v => (v, (codeAt codes v).bits)

section
variable {codes : Vector CodeEntry 256} {input : List Symbol}

@[simp] theorem codedWords_symbols : (codedWords codes input).map Prod.fst = input := by
  simp [codedWords, Function.comp_def]

@[simp] theorem codedWords_length : (codedWords codes input).length = input.length := List.length_map _

theorem codedWords_bits : ((codedWords codes input).map Prod.snd).flatten = payloadOf codes input := by
  simp [codedWords, payloadOf, Function.comp_def]

/-- R88, R103: under the Code Table of a tree the codes are codewords of that tree. -/
theorem codedWords_codeword {nodes : Vector Node 511} {root : Handle} {tree : Tree}
    (ht : treeOf nodes Config.nodeMax root = some tree) (hc : codeTable nodes root = .ok codes)
    (hvalid : ∀ v ∈ input, (codeAt codes v).valid = true) : ∀ w ∈ codedWords codes input, tree.Codeword w.1 w.2 := by
  intro w hw
  obtain ⟨v, hv, rfl⟩ := List.mem_map.mp hw
  obtain ⟨codes', hc', hentry⟩ := codeTable_treeOf ht
  cases hc'.symm.trans hc
  have hcode := hvalid v hv
  rw [hentry] at hcode
  simpa only [hentry] using Tree.codeword_of_codeEntry hcode

end

/-- Settles O43: the payload is a sequence of codewords, and both decoders invert any such sequence. -/
theorem payloadRoundTrip : Obligations.PayloadRoundTrip := by
  rintro s u tree payload hs hc hvalid hf hv rfl hu hfu hvu hb
  have hw := codedWords_codeword hs hc hvalid
  rw [← codedWords_bits] at hb
  refine ⟨execEncode_valid hf hv hvalid, fun hcount => ?_, fun hlen => ?_⟩
  · have hcount' : u.symCount.toNat = (codedWords s.codes (inputSymbols s)).length := by
      rw [hcount, codedWords_length, inputSymbols_length]
    simpa only [codedWords_bits, codedWords_symbols] using execDecn_words hfu hvu hu hw hcount' hb
  · rw [← codedWords_bits] at hlen
    simpa only [codedWords_bits, codedWords_symbols] using execDecl_words hfu hvu hu hw hlen hb

/-- Settles O44: every input symbol has been counted, so it is a leaf of the tree of `BUILD` and has a code. -/
theorem everyInputCanBeEncoded : Obligations.EveryInputCanBeEncoded := by
  intro s hf hlen
  have hcounted : ∀ v ∈ inputSymbols s, v ∈ presentSymbols (countAll (inputSymbols s)) := fun v hv => by
    rw [mem_presentSymbols, freqAt_countAll_inputSymbols]
    exact List.count_pos_iff.mpr hv
  have hne : presentSymbols (countAll (inputSymbols s)) ≠ [] := by
    have hin : inputSymbols s ≠ [] := List.ne_nil_of_length_pos (by rwa [inputSymbols_length])
    obtain ⟨v, hv⟩ := List.exists_mem_of_ne_nil _ hin
    exact List.ne_nil_of_mem (hcounted v hv)
  obtain ⟨tree, htree, hleaves⟩ := buildForest_leaves (nodes := s.nodes) hne
  rw [buildForest_queue hne, List.headD_cons] at htree
  obtain ⟨codes, hc, hentry⟩ := codeTable_treeOf htree
  have hrun : execAll [.count, .build, .gencodes] s = .next _ :=
    calc execAll [.count, .build, .gencodes] s
      _ = execAll [.build, .gencodes] _ := execAll_cons _ (execCount_eq hf)
      _ = execAll [.gencodes] _ := execAll_cons _ (execBuild_eq hf rfl hne)
      _ = .next _ := execAll_cons _ (execGencodes_eq hf rfl hc)
  refine ⟨_, hrun, hf, rfl, execEncode_valid hf rfl fun v hv => ?_⟩
  have hleaf : v ∈ tree.leaves := hleaves.mem_iff.mpr (hcounted v hv)
  have hcode := (tree.codeEntry_valid_iff v).mpr hleaf
  rwa [← hentry] at hcode

/-! ## Streams and lengths that end before the symbols do (R101, R102, R130) -/

/-- R103: a walk along a beginning `q` of a codeword stands at the root only if `q` is empty. `loop` is the loop of either
decoder; `hpart` says that the walk along `q` goes down to a smaller subtree. -/
theorem walk_part_at_root_iff {loop : Nat → Handle → State → Res Unit} {root : Handle} {tree : Tree} {q : List Bit}
    {s : State} {d n : Nat} (ht : treeOf s.nodes d root = some tree) (hq : q = [] ∨ tree.innerAt q = true)
    (hpart : ∀ top, nodeAt s.nodes root = some top → top.leaf = false → tree.innerAt q = true →
      ∃ cur e below, treeOf s.nodes e cur = some below ∧ below.header.length + q.length ≤ tree.header.length ∧
        loop (q.length + n) root s = loop n cur (advanced q.length s)) :
    ∃ cur, (cur = root ↔ q = []) ∧ loop (q.length + n) root s = loop n cur (advanced q.length s) := by
  rcases eq_or_ne q [] with rfl | hne
  · exact ⟨root, by simp, by simp⟩
  · have hin := hq.resolve_left hne
    have hpos := List.length_pos_iff.mpr hne
    cases tree with
    | leaf v => simp [Tree.innerAt] at hin
    | inner l r =>
      obtain ⟨top, -, htop, hleaf, -, -⟩ := treeOf_inner ht
      obtain ⟨cur, e, below, hcur, hlen, hloop⟩ := hpart top htop hleaf hin
      refine ⟨cur, iff_of_false ?_ hne, hloop⟩
      rintro rfl
      rw [treeOf_unique hcur ht] at hlen
      omega

section
variable {root : Handle} {tree : Tree} {words : List (Symbol × List Bit)} {q : List Bit} {s : State} {d : Nat}
  (n : Nat) (ht : treeOf s.nodes d root = some tree) (hw : ∀ w ∈ words, tree.Codeword w.1 w.2)
  (hq : q = [] ∨ tree.innerAt q = true) (hb : BinHolds s ((words.map Prod.snd).flatten ++ q))
include ht hw hq hb

/-- R101, R103: after whole codewords and a beginning of another one the walk of `DECN` has emitted the symbols of the whole
ones, and is at the root only if nothing of the other one was read. -/
theorem decnLoop_words_part {owed : Nat} (ho : owed ≠ 0) :
    ∃ cur, (cur = root ↔ q = []) ∧
      decnLoop root (((words.map Prod.snd).flatten ++ q).length + n) root (words.length + owed) s =
        decnLoop root n cur owed (emittedAll (words.map Prod.fst)
          (advanced ((words.map Prod.snd).flatten ++ q).length s)) := by
  obtain ⟨hb1, hb2⟩ := BinHolds.append.mp hb
  obtain ⟨cur, hcur, hloop⟩ := walk_part_at_root_iff (loop := fun m c u => decnLoop root m c owed u) (n := n)
    (s := emittedAll (words.map Prod.fst) (advanced (words.map Prod.snd).flatten.length s)) ht hq
    fun _ htop hleaf hin => decnLoop_part n owed ho htop hleaf ht hin hb2
  refine ⟨cur, hcur, ?_⟩
  rw [List.length_append, Nat.add_assoc, decnLoop_words words _ owed ht hw hb1, hloop, advanced_emittedAll,
    advanced_advanced]

/-- R102, R103: the walk of `DECL` likewise. -/
theorem declLoop_words_part :
    ∃ cur, (cur = root ↔ q = []) ∧
      declLoop root (((words.map Prod.snd).flatten ++ q).length + n) root s =
        declLoop root n cur (emittedAll (words.map Prod.fst)
          (advanced ((words.map Prod.snd).flatten ++ q).length s)) := by
  obtain ⟨hb1, hb2⟩ := BinHolds.append.mp hb
  obtain ⟨cur, hcur, hloop⟩ := walk_part_at_root_iff (loop := declLoop root) (n := n)
    (s := emittedAll (words.map Prod.fst) (advanced (words.map Prod.snd).flatten.length s)) ht hq
    fun _ htop hleaf hin => declLoop_part n htop hleaf ht hin hb2
  refine ⟨cur, hcur, ?_⟩
  rw [List.length_append, Nat.add_assoc, declLoop_words words _ ht hw hb1, hloop, advanced_emittedAll, advanced_advanced]

end

/-- R101: which fault the end of the stream is depends on where the walk stands. -/
theorem decnEnd_eq {root cur : Handle} {q : List Bit} (h : cur = root ↔ q = []) (s : State) :
    decnEnd root cur s =
      .raised (raise (opcodeOf .decn) (if q = [] then .truncatedStream else .unterminatedCode) s.rcur s) := by
  simp only [decnEnd, h]
  split <;> rfl

/-- Settles O40: no bit is left after the codewords and the beginning of another, and a symbol is owed. -/
theorem decnFaultsAtTheEndOfTheStream : Obligations.DecnFaultsAtTheEndOfTheStream := by
  intro s tree words q hf hv ht hw hcount hq hend
  obtain ⟨owed, hsum⟩ := Nat.exists_eq_add_of_lt hcount
  obtain ⟨cur, hcur, hloop⟩ := decnLoop_words_part (s := accept s) 0 ht hw hq hend.1 (Nat.succ_ne_zero owed)
  simp only [Nat.add_zero, Nat.succ_eq_add_one] at hloop
  rw [execDecn_eq hf hv, hend.left_eq, hsum, Nat.add_assoc, hloop, decnLoop, if_neg (Nat.succ_ne_zero owed),
    decnEnd_eq hcur, ← List.length_map (as := words) Prod.fst]
  rfl

/-- Settles O41: the stream ends while declared bits are left, or the declared length ends while the walk is below the root. -/
theorem declFaultsOnABrokenPayload : Obligations.DeclFaultsOnABrokenPayload := by
  intro s tree words q hf hv ht hw hq
  refine ⟨fun hend hshort => ?_, fun hb hne hlen => ?_⟩
  · obtain ⟨n, hsum⟩ := Nat.exists_eq_add_of_lt hshort
    obtain ⟨cur, -, hloop⟩ := declLoop_words_part (s := accept s) (n + 1) ht hw hq hend.1
    have heos : BinEndsAfter (advanced ((words.map Prod.snd).flatten ++ q).length s) [] :=
      (BinEndsAfter.append.mp (by rwa [List.append_nil])).2
    have hnone : readBit (emittedAll (words.map Prod.fst)
        (advanced ((words.map Prod.snd).flatten ++ q).length (accept s))) = none :=
      BinEndsAfter.readBit heos
    rw [execDecl_eq hf hv, hsum, Nat.add_assoc, hloop, declLoop, hnone, ← List.length_map (as := words) Prod.fst]
    rfl
  · obtain ⟨cur, hcur, hloop⟩ := declLoop_words_part (s := accept s) 0 ht hw hq hb
    rw [Nat.add_zero, ← hlen] at hloop
    rw [execDecl_eq hf hv, hloop, declLoop, if_neg (hcur.not.mpr hne), advanced_toNat,
      ← List.length_map (as := words) Prod.fst]
    rfl

/-! ## The declared sizes (R105) -/

@[simp] theorem emit_sout (e : Option Symbol) (s : State) : (emit e s).sout = s.sout ++ e.toList := by
  cases e <;> simp [emit, symWrite]

@[simp] theorem emit_rcur (e : Option Symbol) (s : State) : (emit e s).rcur = s.rcur := by
  cases e <;> rfl

section
variable {root : Handle}

theorem decnEnd_ne_ok (root cur : Handle) (s u : State) : decnEnd root cur s ≠ .ok () u := by
  rw [decnEnd]
  split <;> nofun

/-- R101: the loop of `DECN` returns only when it owes nothing, so it has emitted what it owed. -/
theorem decnLoop_emits {left owed : Nat} {cur : Handle} {s u : State} (h : decnLoop root left cur owed s = .ok () u) :
    ∃ vs, u.sout = s.sout ++ vs ∧ vs.length = owed := by
  induction left generalizing cur owed s with
  | zero =>
    rw [decnLoop] at h
    split at h
    next ho => cases h; exact ⟨[], by simp, ho.symm⟩
    next => exact absurd h (decnEnd_ne_ok _ _ _ _)
  | succ left ih =>
    rw [decnLoop] at h
    split at h
    next ho => cases h; exact ⟨[], by simp, ho.symm⟩
    next ho =>
      rcases readBit_cases s with ⟨-, hr⟩ | ⟨-, hr⟩
      · rw [hr] at h
        exact absurd h (decnEnd_ne_ok _ _ _ _)
      · simp only [hr] at h
        rcases hstep : walkStep s.nodes root cur (binAt s.bin s.rcur.toNat) with f | ⟨cur', e⟩
        · simp [hstep] at h
        · simp only [advanced_nodes, hstep] at h
          obtain ⟨vs, hout, hlen⟩ := ih h
          refine ⟨e.toList ++ vs, by simp [hout], ?_⟩
          cases e with
          | none => simpa using hlen
          | some v =>
            simp only [Option.isSome_some, if_true] at hlen
            simp only [Option.toList_some, List.length_append, List.length_singleton]
            omega

/-- R102: the loop of `DECL` reads one bit a turn, each before the end of the stream, so `RCUR` does not wrap. -/
theorem declLoop_reads {left : Nat} {cur : Handle} {s u : State} (h : declLoop root left cur s = .ok () u) :
    u.rcur.toNat = s.rcur.toNat + left := by
  induction left generalizing cur s with
  | zero =>
    rw [declLoop] at h
    split at h
    next => cases h; rfl
    next => cases h
  | succ left ih =>
    rw [declLoop] at h
    rcases readBit_cases s with ⟨-, hr⟩ | ⟨hroom, hr⟩
    · simp [hr] at h
    · simp only [hr] at h
      split at h
      next => cases h
      next w _ =>
        have hone := advanced_rcur_toNat s 1 (by have := s.binLen.isLt; omega)
        rw [ih h, emit_rcur, hone, Nat.add_assoc, Nat.add_comm 1]

end

/-- A command that leads from a state without a fault to one without a fault has returned from its procedure (R131). -/
theorem command_returned {i : Instr} {body : State → Res Unit} {s t : State} {opc : Opcode} {done : Unit → State → Prop}
    {failed : State → Prop} (hends : (body (accept s)).Ends opc done failed) (hs : s.status.fault = false)
    (ht : t.status.fault = false) (h : command i body s = .next t) :
    ∃ u, body (accept s) = .ok () u ∧ t = complete u := by
  rcases command_cases h with ⟨hf, -⟩ | ⟨-, -, rfl⟩ | ⟨-, -, hret | hraised⟩
  · rw [hs] at hf; cases hf
  · cases ht
  · exact hret
  · rw [hraised] at hends
    obtain ⟨k, info, u, -, -, rfl⟩ := hends
    cases ht

/-- Settles O42: a decode that completes has returned from its loop. -/
theorem decodersKeepTheDeclaredSize : Obligations.DecodersKeepTheDeclaredSize := by
  intro s t hs ht
  refine ⟨fun h => ?_, fun h => ?_⟩
  · obtain ⟨u, hloop, rfl⟩ := command_returned (decnLoop_ends _ _ _ _ (Decoded.refl _)) hs ht h
    obtain ⟨vs, hout, hlen⟩ := decnLoop_emits hloop
    exact ⟨vs, hout, hlen⟩
  · obtain ⟨u, hloop, rfl⟩ := command_returned (declLoop_ends _ _ _ (Decoded.refl _)) hs ht h
    exact (declLoop_reads hloop :)

end Sys2Proof.Machine

/-! PROOFS. The system commands (R117, R118) and framing (R71, R110 to R120): the writers and readers of the fixed-width fields,
`PAD`, and the two pseudo-commands, whose frame the one writes and the other reads: O12, O17, O46 to O51. -/

namespace Sys2Proof.Machine

/-! ## `NOP` and `RST` -/

/-- Settles O12: `RST` is no `command`: it runs `softReset` whatever `FAULT` is. -/
theorem rstDiscardsEverything : Obligations.RstDiscardsEverything :=
  ⟨rfl, fun s => ⟨softReset s, rfl, rfl, rfl, rfl, rfl, rfl, rfl, rfl, rfl, rfl, rfl, rfl, rfl, rfl, rfl, rfl, rfl, rfl, rfl,
    rfl, rfl⟩⟩

/-- Settles O17: `NOP` needs no valid bit, and its procedure writes nothing. -/
theorem nopOnlySetsDone : Obligations.NopOnlySetsDone :=
  ⟨rfl, fun s => ⟨fun hf => command_runs .nop _ s hf rfl, fun hf => command_faulted .nop _ s hf⟩⟩

/-! ## The writers: `WRMARK`, `WRHLEN`, `WRPLEN`, `PAD` -/

section
variable {s : State}

/-- A command whose procedure only writes bits appends them and completes (R44). -/
theorem command_writeBits {i : Instr} {p : State → List Bit} (hf : s.status.fault = false)
    (hp : precondition i s.status = true) :
    command i (fun u => .ok () (writeBits (p u) u)) s = .next (complete (wrote (p (accept s)) s)) := by
  rw [command_runs i _ s hf hp, writeBits_eq_wrote]
  rfl

/-- R110. -/
theorem execWrmark_eq (hf : s.status.fault = false) :
    exec .wrmark s = .next (complete (wrote (intBits s.marker.value.toNat s.marker.width) s)) :=
  command_writeBits (i := .wrmark) (p := fun u => intBits u.marker.value.toNat u.marker.width) hf rfl

/-- R112. -/
theorem execWrhlen_eq (hf : s.status.fault = false) (hv : s.status.lenV = true) :
    exec .wrhlen s = .next (complete (wrote (intBits s.hdrBits.toNat 32) s)) :=
  command_writeBits (i := .wrhlen) (p := fun u => intBits u.hdrBits.toNat 32) hf hv

/-- R114. -/
theorem execWrplen_eq (hf : s.status.fault = false) (hv : s.status.lenV = true) :
    exec .wrplen s = .next (complete (wrote (intBits s.payBits.toNat 32) s)) :=
  command_writeBits (i := .wrplen) (p := fun u => intBits u.payBits.toNat 32) hf hv

/-- R116. -/
theorem execPad_eq (hf : s.status.fault = false) :
    exec .pad s = .next (complete (wrote (List.replicate (padCount s.wcnt) false) s)) :=
  command_writeBits (i := .pad) (p := fun u => List.replicate (padCount u.wcnt) false) hf rfl

end

/-- Settles O46: each is one append of a field, whose length is the field's width. -/
theorem fieldWritersAppendTheirField : Obligations.FieldWritersAppendTheirField := by
  refine ⟨rfl, rfl, rfl, fun s hf => ⟨?_, fun hv => ?_, fun hv => ?_⟩⟩
  · rw [execWrmark_eq hf, wrote, intBits_length]
    rfl
  · rw [execWrhlen_eq hf hv, wrote, intBits_length]
    rfl
  · rw [execWrplen_eq hf hv, wrote, intBits_length]
    rfl

theorem padCount_lt (w : Word) : padCount w < 8 := Nat.mod_lt _ (by decide)

theorem add_padCount_mod (w : Word) : (w.toNat + padCount w) % 8 = 0 := by
  rw [padCount]
  omega

/-- Counting bits modulo `2^32` keeps the position in the byte. -/
theorem toNat_add_ofNat_mod_eight (w : Word) (n : Nat) : (w + BitVec.ofNat 32 n).toNat % 8 = (w.toNat + n) % 8 := by
  rw [BitVec.toNat_add, BitVec.toNat_ofNat]
  omega

/-- Settles O49: `padCount` is what is missing to the next multiple of 8. -/
theorem padReachesTheByteBoundary : Obligations.PadReachesTheByteBoundary := by
  refine ⟨rfl, fun s hf => ⟨padCount s.wcnt, padCount_lt _, ?_, add_padCount_mod _, ?_⟩⟩
  · rw [toNat_add_ofNat_mod_eight, add_padCount_mod]
  · rw [execPad_eq hf, wrote, List.length_replicate]
    rfl

/-! ## `RDMARK` (R111) -/

/-- Bits are the field of a number that fits their width exactly if the number is their value (R45, R46). -/
theorem bitsValue_eq_iff {v : Nat} {p : List Bit} (hv : v < 2 ^ p.length) :
    bitsValue 0 p = v ↔ p = intBits v p.length := by
  constructor
  · rintro rfl
    exact (intBits_bitsValue 0 p).symm
  · intro h
    rw [h, bitsValue_intBits, Nat.zero_mul, Nat.zero_add, Nat.mod_eq_of_lt hv]

/-- R4: the marker's value fits its width. -/
theorem Marker.value_lt {m : Marker} (h : m.wf = true) : m.value.toNat < 2 ^ m.width := by
  simp only [Marker.wf, Bool.and_eq_true, decide_eq_true_eq] at h
  obtain ⟨-, hvalue⟩ := h
  exact hvalue

section
variable {s : State} {p : List Bit} (hf : s.status.fault = false)
include hf

/-- R111: all bits of the marker are there: they are compared after they have been read. -/
theorem execRdmark_read (hm : s.marker.wf = true) (hp : p.length = s.marker.width) (hb : BinHolds s p) :
    exec .rdmark s = .next (if p = intBits s.marker.value.toNat s.marker.width
      then complete (advanced s.marker.width s)
      else raise (opcodeOf .rdmark) .malformedHeader (advanced s.marker.width s).rcur (advanced s.marker.width s)) := by
  have hread : readInt s.marker.width (accept s) = (some (bitsValue 0 p), advanced s.marker.width (accept s)) :=
    hp ▸ readIntFrom_holds p 0 (accept s) hb
  have hiff := bitsValue_eq_iff (p := p) (hp ▸ Marker.value_lt hm)
  rw [hp] at hiff
  rw [exec, execRdmark, command_runs .rdmark _ s hf rfl]
  simp only [accept_marker, hread, advanced_marker, hiff]
  split <;> rfl

theorem execRdmark_marker (hm : s.marker.wf = true) (hb : BinHolds s (intBits s.marker.value.toNat s.marker.width)) :
    exec .rdmark s = .next (complete (advanced s.marker.width s)) := by
  rw [execRdmark_read hf hm (intBits_length _ _) hb, if_pos rfl]

/-- R111: the stream ends inside the marker. -/
theorem execRdmark_eos (hp : p.length < s.marker.width) (he : BinEndsAfter s p) :
    exec .rdmark s =
      .next (raise (opcodeOf .rdmark) .truncatedStream (advanced p.length s).rcur (advanced p.length s)) := by
  have hread : readInt s.marker.width (accept s) = (none, advanced p.length (accept s)) := readInt_eos hp he
  rw [exec, execRdmark, command_runs .rdmark _ s hf rfl]
  simp only [accept_marker, hread]
  rfl

end

/-- Settles O47: the field is read whole and compared, or the stream ends inside it. -/
theorem rdmarkChecksTheMarker : Obligations.RdmarkChecksTheMarker := by
  refine ⟨rfl, fun s p hf hm => ⟨?_, fun hp hne hb => ?_, fun hp he => execRdmark_eos hf hp he⟩⟩
  · rintro rfl hb
    exact execRdmark_marker hf hm hb
  · rw [execRdmark_read hf hm hp hb, if_neg hne]
    rfl

/-! ## `RDHLEN` and `RDPLEN` (R113, R115) -/

section
variable {s : State} {opc : Opcode}

/-- A length field that the stream holds is read after `LEN_V` has been cleared. -/
theorem readLength_intBits {n : Nat} (hn : n < 2 ^ 32) (hb : BinHolds s (intBits n 32)) :
    readLength opc s = .ok (BitVec.ofNat 32 n) (advanced 32 (clearLen s)) := by
  rw [readLength, readInt_intBits (s := clearLen s) hn hb]

/-- R113, R115: the stream ends inside the field. -/
theorem readLength_eos {p : List Bit} (hp : p.length < 32) (he : BinEndsAfter s p) :
    readLength opc s = .raised (raise opc .truncatedStream (advanced p.length s).rcur (advanced p.length (clearLen s))) := by
  rw [readLength, readInt_eos (s := clearLen s) hp he]
  rfl

end

section
variable {s : State} (hf : s.status.fault = false)
include hf

/-- R113 and R115 are one command, but for the register: `put` writes into it the length that was read. -/
theorem command_readLength {i : Instr} {put : Word → State → State} (hpre : precondition i s.status = true) {n : Nat}
    (hn : n < 2 ^ 32) (hb : BinHolds s (intBits n 32)) :
    command i (fun u => (readLength (opcodeOf i) u).bind fun v u' => .ok () (put v u')) s =
      .next (complete (put (BitVec.ofNat 32 n) (advanced 32 (clearLen (accept s))))) := by
  rw [command_runs i _ s hf hpre, readLength_intBits (s := accept s) hn hb]
  rfl

theorem command_readLength_eos {i : Instr} {k : Word → State → Res Unit} (hpre : precondition i s.status = true)
    {p : List Bit} (hp : p.length < 32) (he : BinEndsAfter s p) :
    command i (fun u => (readLength (opcodeOf i) u).bind k) s =
      .next (raise (opcodeOf i) .truncatedStream (advanced p.length s).rcur (advanced p.length (clearLen s))) := by
  rw [command_runs i _ s hf hpre, readLength_eos (s := accept s) hp he]
  rfl

theorem execRdhlen_eq {n : Nat} (hn : n < 2 ^ 32) (hb : BinHolds s (intBits n 32)) :
    exec .rdhlen s = .next (complete { advanced 32 (clearLen s) with hdrBits := BitVec.ofNat 32 n }) :=
  command_readLength (i := .rdhlen) (put := fun v u => { u with hdrBits := v }) hf rfl hn hb

theorem execRdplen_eq {n : Nat} (hn : n < 2 ^ 32) (hb : BinHolds s (intBits n 32)) :
    exec .rdplen s = .next (complete { advanced 32 (clearLen s) with payBits := BitVec.ofNat 32 n }) :=
  command_readLength (i := .rdplen) (put := fun v u => { u with payBits := v }) hf rfl hn hb

end

/-- Settles O48: the field is read whole into the register, or the stream ends inside it. -/
theorem lengthReadersFillTheirRegister : Obligations.LengthReadersFillTheirRegister := by
  refine ⟨rfl, rfl, fun s hf => ⟨fun v hb => ⟨?_, ?_⟩, fun p hp he => ⟨?_, ?_⟩⟩⟩
  · rw [execRdhlen_eq hf v.isLt hb, BitVec.ofNat_toNat, BitVec.setWidth_eq]
    rfl
  · rw [execRdplen_eq hf v.isLt hb, BitVec.ofNat_toNat, BitVec.setWidth_eq]
    rfl
  · exact command_readLength_eos (i := .rdhlen) hf rfl hp he
  · exact command_readLength_eos (i := .rdplen) hf rfl hp he

/-! ## `DECFRAME` (R120) -/

/-- Two length fields are 64 bits (R70). -/
theorem advanced_sixtyFour (s : State) : advanced 64 s = advanced 32 (advanced 32 s) :=
  (advanced_advanced 32 32 s).symm

/-- A frame that the stream holds is field after field, each where the one before it ends (R71). -/
theorem binHolds_frameBits {m : Marker} {tree : Tree} {payload : List Bit} {s : State} :
    BinHolds s (frameBits m tree payload) ↔
      BinHolds s (intBits m.value.toNat m.width) ∧
      BinHolds (advanced m.width s) (intBits tree.header.length 32) ∧
      BinHolds (advanced 32 (advanced m.width s)) (intBits payload.length 32) ∧
      BinHolds (advanced 64 (advanced m.width s)) tree.header ∧
      BinHolds (advanced tree.header.length (advanced 64 (advanced m.width s))) payload := by
  simp only [frameBits, List.append_assoc, BinHolds.append, intBits_length, advanced_sixtyFour]

theorem frameBits_length (m : Marker) (tree : Tree) (payload : List Bit) :
    (frameBits m tree payload).length = m.width + 64 + tree.header.length + payload.length := by
  simp only [frameBits, List.length_append, intBits_length]

/-- A frame that the stream holds is shorter than `2^32` bits, since `BIN_LEN` counts them all. -/
theorem frameBits_length_lt {m : Marker} {tree : Tree} {payload : List Bit} {s : State}
    (h : BinHolds s (frameBits m tree payload)) : (frameBits m tree payload).length < 2 ^ 32 :=
  (h.length_le_left.trans (Nat.sub_le _ _)).trans_lt s.binLen.isLt

/-- What the three field readers of `DECFRAME` leave when the stream holds their fields (R111, R113, R115). -/
def fieldsRead (hdr pay : Nat) (s : State) : State :=
  complete { advanced 64 (advanced s.marker.width (clearLen s)) with
    hdrBits := BitVec.ofNat 32 hdr
    payBits := BitVec.ofNat 32 pay }

@[simp] theorem fieldsRead_rcur (hdr pay : Nat) (s : State) :
    (fieldsRead hdr pay s).rcur = s.rcur + BitVec.ofNat 32 s.marker.width + BitVec.ofNat 32 64 := rfl

theorem execAll_readers {s : State} {hdr pay : Nat} (hf : s.status.fault = false) (hm : s.marker.wf = true)
    (hhdr : hdr < 2 ^ 32) (hpay : pay < 2 ^ 32) (hb : BinHolds s (intBits s.marker.value.toNat s.marker.width))
    (hb1 : BinHolds (advanced s.marker.width s) (intBits hdr 32))
    (hb2 : BinHolds (advanced 32 (advanced s.marker.width s)) (intBits pay 32)) :
    execAll [.rdmark, .rdhlen, .rdplen] s = .next (fieldsRead hdr pay s) := by
  rw [execAll_cons _ (execRdmark_marker hf hm hb),
    execAll_cons _ (execRdhlen_eq (s := complete (advanced s.marker.width s)) hf hhdr hb1),
    execAll_cons _ (execRdplen_eq (s := complete { advanced 32 (clearLen (complete (advanced s.marker.width s))) with
      hdrBits := BitVec.ofNat 32 hdr }) hf hpay hb2),
    fieldsRead, advanced_sixtyFour]
  rfl

/-- Commands one after another: what stands behind the first ones goes on where they end. -/
theorem execAll_append {is : List Instr} {s t : State} (js : List Instr) (h : execAll is s = .next t) :
    execAll (is ++ js) s = execAll js t := by
  induction is generalizing s with
  | nil => cases h; rfl
  | cons i is ih =>
    rw [execAll] at h
    split at h
    next hi => rw [List.cons_append, execAll_cons _ hi, ih h]
    all_goals cases h

/-- Settles O51: each command reads its field of the frame and leaves `RCUR` on the next one. -/
theorem decframeReadsTheFrame : Obligations.DecframeReadsTheFrame := by
  intro s tree words hf hm hle hw hb
  obtain ⟨hmarker, hhlen, hplen, hheader, hpayload⟩ := binHolds_frameBits.mp hb
  have hsum := frameBits_length s.marker tree (words.map Prod.snd).flatten
  have hlt := frameBits_length_lt hb
  have hhdr : tree.header.length < 2 ^ 32 := by omega
  have hpay : (words.map Prod.snd).flatten.length < 2 ^ 32 := by omega
  have hread := execAll_readers hf hm hhdr hpay hmarker hhlen hplen
  obtain ⟨nodes, hat, hload⟩ := exec_load_header true (s := fieldsRead _ _ s) hf hle hheader
    fun _ => (Nat.mod_eq_of_lt hhdr).symm
  have hrun : execAll decFrame s = .next _ :=
    calc execAll decFrame s
      _ = execAll [.ldtreeb, .decl] _ := execAll_append _ hread
      _ = execAll [.decl] _ := execAll_cons _ hload
      _ = .next _ := execAll_cons _ (execDecl_words hf rfl hat.tree hw (Nat.mod_eq_of_lt hpay) hpayload)
  refine ⟨_, hrun, hf, hat.tree, rfl, ?_, rfl, rfl⟩
  rw [← hb.rcur_toNat, hsum]
  simp only [complete_rcur, advanced_rcur, emittedAll_rcur, fieldsRead_rcur, BitVec.ofNat_add, BitVec.add_assoc]

/-! ## `ENCFRAME` (R119) -/

/-- `g` holds what an encoder needs of its input (R27 to R30): the map counts it, the arena holds `tree`, and each of its symbols
has a code. -/
structure ReadyToEncode (g : State) (tree : Tree) : Prop where
  noFault : g.status.fault = false
  freqValid : g.status.freqV = true
  treeValid : g.status.treeV = true
  codeValid : g.status.codeV = true
  counted : ∀ v, (freqAt g.freq v).toNat = (inputSymbols g).count v
  wf : treeWf g.nodes g.treeInfo = true
  tree : g.tree = some tree
  coded : ∀ v ∈ inputSymbols g, (codeAt g.codes v).valid = true

/-- The map of an input that is not empty has a symbol, since its counts add up to `SIN_LEN` (R75). -/
theorem presentSymbols_countAll_ne_nil {s : State} (h : 1 ≤ s.sinLen.toNat) :
    presentSymbols (countAll (inputSymbols s)) ≠ [] := by
  intro hnil
  have hsum := sum_presentSymbols (countAll (inputSymbols s))
  rw [hnil, freqTotal_countAll_inputSymbols, List.map_nil, List.sum_nil] at hsum
  omega

/-- What `COUNT` leaves (R75). -/
def mapCounted (s : State) : State := complete (setFreqV { clearLen s with freq := countAll (inputSymbols s) })

/-- R75, R81, R88: after `COUNT; BUILD; GENCODES` the engine is ready to encode its input, and what it writes to and reads from is
as it was. -/
theorem readyToEncode_of_execAll {s g : State} (hf : s.status.fault = false) (hlen : 1 ≤ s.sinLen.toNat)
    (hg : execAll [.count, .build, .gencodes] s = .next g) :
    (∃ tree, ReadyToEncode g tree) ∧ inputSymbols g = inputSymbols s ∧ g.marker = s.marker ∧ g.bout = s.bout ∧
      g.wcnt = s.wcnt := by
  have hcount : exec .count s = .next (mapCounted s) := execCount_eq hf
  have hf1 : (mapCounted s).status.fault = false := hf
  have hbuild := execBuild_eq hf1 rfl (presentSymbols_countAll_ne_nil hlen)
  obtain ⟨hwf, tree, htree, -, hleaves⟩ := buildMakesAWellFormedTree _ _ hf1 rfl hbuild hf
  obtain ⟨codes, hc, hentry⟩ := codeTable_treeOf htree
  have hrun : execAll [.count, .build, .gencodes] s = .next _ :=
    calc execAll [.count, .build, .gencodes] s
      _ = execAll [.build, .gencodes] _ := execAll_cons _ hcount
      _ = execAll [.gencodes] _ := execAll_cons _ hbuild
      _ = .next _ := execAll_cons _ (execGencodes_eq hf rfl hc)
  cases hg.symm.trans hrun
  refine ⟨⟨tree, hf, rfl, rfl, rfl, freqAt_countAll_inputSymbols s, hwf, htree, fun v hv => ?_⟩, rfl, rfl, rfl, rfl⟩
  have hocc : 0 < (freqAt (countAll (inputSymbols s)) v).toNat := by
    rw [freqAt_countAll_inputSymbols]
    exact List.count_pos_iff.mpr hv
  rw [hentry]
  exact (tree.codeEntry_valid_iff v).mpr ((hleaves v).mpr hocc)

/-- `CALCLEN` has found the two lengths (R90). -/
def lengthsKnown (hdr pay : Nat) (g : State) : State :=
  complete (setLenV { g with
    hdrBits := BitVec.ofNat 32 hdr
    payBits := BitVec.ofNat 32 pay })

/-- The field of a length register holds the length modulo `2^32`, which is all that 32 bits show of it (R70). -/
theorem intBits_ofNat (n : Nat) : intBits (BitVec.ofNat 32 n).toNat 32 = intBits n 32 := by
  rw [BitVec.toNat_ofNat, ← intBits_mod]

/-- One more append to what a sequence of commands has written. -/
theorem execAll_cons_wrote {i : Instr} {p q : List Bit} {s : State} (is : List Instr)
    (h : exec i (complete (wrote p s)) = .next (complete (wrote q (complete (wrote p s))))) :
    execAll (i :: is) (complete (wrote p s)) = execAll is (complete (wrote (p ++ q) s)) := by
  rw [execAll_cons is h, ← wrote_wrote]
  rfl

section
variable {g : State} {tree : Tree} (h : ReadyToEncode g tree)
  (hfits : (payloadOf g.codes (inputSymbols g)).length < 2 ^ 32)
include h hfits

/-- R68, R69, R90: the lengths that `CALCLEN` computes from the tables are those of the header and of the payload. -/
theorem ReadyToEncode.execCalclen :
    exec .calclen g = .next (lengthsKnown tree.header.length (payloadOf g.codes (inputSymbols g)).length g) := by
  have hpre : precondition .calclen g.status = true := by
    simp [precondition, h.freqValid, h.treeValid, h.codeValid]
  have hcoded : ∀ v, 0 < (freqAt g.freq v).toNat → (codeAt g.codes v).valid = true := fun v hv =>
    h.coded v (List.count_pos_iff.mp (h.counted v ▸ hv))
  have hpay := payloadLengthIsTheWeightedSum g.freq g.codes (inputSymbols g) h.counted
  have hhdr : headerLength g.treeInfo = tree.header.length := by
    rw [headerLength, tree.header_length, leaves_length_of_treeWf h.wf h.tree]
  rw [execCalclen_eq h.noFault hpre (payloadLength_coded hcoded) (hpay ▸ hfits), hhdr, hpay]
  rfl

/-- R119: after `CALCLEN` each of the writers appends its part of the frame. -/
theorem ReadyToEncode.execAll_writers :
    execAll [.calclen, .wrmark, .wrhlen, .wrplen, .sttree, .encode] g =
      .next (complete (wrote (frameBits g.marker tree (payloadOf g.codes (inputSymbols g)))
        (lengthsKnown tree.header.length (payloadOf g.codes (inputSymbols g)).length g))) := by
  calc execAll [.calclen, .wrmark, .wrhlen, .wrplen, .sttree, .encode] g
    _ = execAll [.wrmark, .wrhlen, .wrplen, .sttree, .encode] _ := execAll_cons _ (h.execCalclen hfits)
    _ = execAll [.wrhlen, .wrplen, .sttree, .encode] _ := execAll_cons _ (execWrmark_eq h.noFault)
    _ = execAll [.wrplen, .sttree, .encode] _ := execAll_cons_wrote _ (execWrhlen_eq h.noFault rfl)
    _ = execAll [.sttree, .encode] _ := execAll_cons_wrote _ (execWrplen_eq h.noFault rfl)
    _ = execAll [.encode] _ :=
      execAll_cons_wrote _ (sttreeWritesTheHeader.2 _ tree h.noFault h.treeValid h.tree)
    _ = .next _ := execAll_cons_wrote _ (execEncode_valid h.noFault h.codeValid h.coded)
    _ = _ := by
      rw [frameBits, ← intBits_ofNat tree.header.length, ← intBits_ofNat (payloadOf _ _).length]
      rfl

end

/-- Settles O50: the tables of the input are made, the parts of the frame are appended one by one, and `PAD` goes on to the byte
boundary. -/
theorem encframeWritesTheFrame : Obligations.EncframeWritesTheFrame := by
  intro s g hf hlen _ haligned hg hfits
  obtain ⟨⟨tree, hready⟩, hinput, hmarker, hbout, hwcnt⟩ := readyToEncode_of_execAll hf hlen hg
  rw [← hinput] at hfits ⊢
  rw [← hmarker, ← hbout]
  have hrun : execAll encFrame s = .next _ :=
    calc execAll encFrame s
      _ = execAll [.calclen, .wrmark, .wrhlen, .wrplen, .sttree, .encode, .pad] g := execAll_append _ hg
      _ = execAll [.pad] _ := execAll_append _ (hready.execAll_writers hfits)
      _ = .next _ := execAll_cons _ (execPad_eq hready.noFault)
  refine ⟨_, tree, _, hrun, hready.noFault, hready.tree, hready.tree, padCount_lt _, rfl, ?_⟩
  have hpos := toNat_add_ofNat_mod_eight g.wcnt (frameBits g.marker tree (payloadOf g.codes (inputSymbols g))).length
  have hpad := add_padCount_mod (g.wcnt +
    BitVec.ofNat 32 (frameBits g.marker tree (payloadOf g.codes (inputSymbols g))).length)
  rw [← hwcnt] at haligned
  change (_ + padCount (g.wcnt + _)) % 8 = 0
  omega

end Sys2Proof.Machine

/-! PROOFS. The front end with no action left (R142), while a fault is recorded (R132), and the taking of a fault (R130, R131):
O5, O6, O14. -/

namespace Sys2Proof.Machine

section
variable {s : State}

/-- R11, R142: with no action left there is nothing to perform. -/
theorem step_of_program_nil (h : s.program = []) : step s = .next s := by rw [step, h]

/-- R13: a write to `CMD` issues the word. -/
theorem step_issue {c : Word} {rest : List HostAction} (hi : s.status.busy = false)
    (hp : s.program = .wr Reg.cmd c :: rest) : step s = issue c (takeAction rest s) := by
  rw [step_of_program hp]
  exact perform_wr_cmd c hi

/-- R132: while a fault is recorded every word but that of `RST` is ignored, whether or not it is a command's. -/
theorem issue_faulted {c : Word} (hf : s.status.fault = true) (hc : c ≠ encode .rst) : issue c s = .next s := by
  rw [issue]
  rcases hd : decode c with e | i
  · simp [hf]
  · have hi : i ≠ .rst := by
      rintro rfl
      exact hc (eq_encode_of_decode hd)
    exact exec_faulted hi hf

/-- R60, R61: the word of a command runs the command. -/
theorem issue_encode (i : Instr) (s : State) : issue (encode i) s = exec i s := by rw [issue, decode_encode]

/-- R132: no register write clears the fault or touches its record. -/
theorem writeReg_record (addr : BitVec 8) (v : Word) (s : State) :
    (writeReg addr v s).status.fault = s.status.fault ∧ (writeReg addr v s).err = s.err ∧
      (writeReg addr v s).errInfo = s.errInfo := by
  rcases writeReg_cases addr v s with h | ⟨hb, pb, h⟩
  · exact ⟨by rw [h.status], h.err, h.errInfo⟩
  · rw [h]; exact ⟨rfl, rfl, rfl⟩

end

/-- Settles O5: an empty program is the first case of `step`. -/
theorem idleEngineHoldsItsState : Obligations.IdleEngineHoldsItsState := fun _ => step_of_program_nil

/-- Settles O6: the front end ignores a word that is not that of `RST`, and register writes leave the record of the fault alone. -/
theorem faultedEngineIgnoresCommands : Obligations.FaultedEngineIgnoresCommands := by
  intro s rest hi hf
  refine ⟨fun c hp hc => ?_, fun hp => ?_, fun addr v ha hc hp => ?_⟩
  · rw [step_issue hi hp]
    exact issue_faulted hf hc
  · rw [step_issue hi hp]
    exact issue_encode .rst _
  · obtain ⟨hfault, herr, hinfo⟩ := writeReg_record addr v (takeAction rest s)
    refine ⟨_, step_write hi (by simpa [aligned] using ha) hc hp, hfault.trans hf, herr, hinfo, ?_, ?_, ?_, ?_, ?_, ?_, ?_, ?_,
      ?_⟩
    all_goals rintro rfl; rfl

/-- Settles O14: `raise` writes the record and `STATUS` alone, and the code is that of the kind (R130). -/
theorem raiseRecordsTheFault : Obligations.RaiseRecordsTheFault := by
  intro opc kind info s
  refine ⟨rfl, ?_⟩
  cases kind <;> rfl

end Sys2Proof.Machine

/-! PROOFS. Hardware reset (R34, R150, R151) and the accesses that the hardware does not have (R12, R48, R154): O13, O11, O59,
O10. -/

namespace Sys2Proof.Machine

/-! ## A command that hardware reset abandons (R150) -/

theorem append_take_drop_prefix {α : Type} (n : Nat) {l m : List α} (h : l <+: m) :
    l ++ (m.drop l.length).take n <+: m := by
  obtain ⟨r, rfl⟩ := h
  rw [List.drop_left]
  exact (List.prefix_append_right_inj l).mpr (List.take_prefix n r)

section
variable {s t : State}

/-- R42, R44: a command only appends to the sinks. -/
theorem exec_appends {i : Instr} (h : exec i s = .next t) : s.bout <+: t.bout ∧ s.sout <+: t.sout := by
  obtain ⟨-, -, -, -, -, p, vs, hb, hs, -⟩ := streamsAreOnlyAppendedTo s t i h
  exact ⟨⟨p, hb.symm⟩, ⟨vs, hs.symm⟩⟩

/-- R62, R132: a word that decodes to no command writes nothing to the sinks. -/
theorem issue_undecoded {c : Word} (hc : ∀ i, decode c ≠ .ok i) (s : State) :
    ∃ t, issue c s = .next t ∧ t.bout = s.bout ∧ t.sout = s.sout := by
  rw [issue]
  split
  · next i hd => exact absurd hd (hc i)
  · split <;> exact ⟨_, rfl, rfl, rfl⟩

/-- R150: each sink lies between what it was before the command and what it would have been after it. -/
theorem keepAppended_between (n : Nat) (hb : s.bout <+: t.bout) (hs : s.sout <+: t.sout) :
    s.bout <+: (keepAppended n s t).bout ∧ (keepAppended n s t).bout <+: t.bout ∧
      s.sout <+: (keepAppended n s t).sout ∧ (keepAppended n s t).sout <+: t.sout :=
  ⟨List.prefix_append _ _, append_take_drop_prefix n hb, List.prefix_append _ _, append_take_drop_prefix n hs⟩

theorem perform_resetDuring {c : Word} (hi : s.status.busy = false) (h : issue c s = .next t) :
    perform (.resetDuring c) s = .next (hardReset (keepAppended (Config.abandonPoint s.freeCtr) s t)) := by
  rw [perform, whenIdle_of_idle hi, abandon, h]

theorem step_resetDuring {c : Word} {rest : List HostAction} (hi : s.status.busy = false)
    (hp : s.program = .resetDuring c :: rest) (h : issue c (takeAction rest s) = .next t) :
    step s = .next (hardReset (keepAppended (Config.abandonPoint s.freeCtr) (takeAction rest s) t)) :=
  (step_of_program hp).trans (perform_resetDuring hi h)

theorem step_reset {rest : List HostAction} (hp : s.program = .reset :: rest) :
    step s = .next (hardReset (takeAction rest s)) := by rw [step_of_program hp, perform]

end

/-- Settles O13: whatever the word does, it only appends to the sinks, and hardware reset leaves of it a part of that. -/
theorem abandonedCommandKeepsOnlyItsAppends : Obligations.AbandonedCommandKeepsOnlyItsAppends := by
  intro s t c rest hp hi ht
  obtain ⟨u, hu, hbu, hsu, hb, hs⟩ : ∃ u, issue c (takeAction rest s) = .next u ∧ u.bout = t.bout ∧ u.sout = t.sout ∧
      s.bout <+: t.bout ∧ s.sout <+: t.sout := by
    rcases ht with ⟨i, hd, hx⟩ | ⟨hc, rfl⟩
    · exact ⟨t, by rw [issue, hd]; exact hx, rfl, rfl, exec_appends (s := takeAction rest s) hx⟩
    · obtain ⟨u, hu, hbu, hsu⟩ := issue_undecoded hc (takeAction rest s)
      exact ⟨u, hu, hbu, hsu, List.prefix_rfl, List.prefix_rfl⟩
  rw [← hbu] at hb ⊢
  rw [← hsu] at hs ⊢
  exact ⟨_, step_resetDuring hi hp hu, rfl, rfl, rfl, rfl, rfl, rfl, rfl, rfl, rfl, rfl, rfl, rfl, rfl, rfl, rfl, rfl, rfl,
    rfl, keepAppended_between (s := takeAction rest s) _ hb hs⟩

/-! ## The state after hardware reset (R34, R151) -/

/-- R151: the state after reset is what hardware reset makes of a state that nothing was supplied to. -/
theorem reset_eq_hardReset : State.reset = hardReset { State.reset with freeCtr := 0 } := rfl

/-- Settles O11: hardware reset writes 0 to every register and has no other effect but on the tables. -/
theorem resetClearsEveryHostRegister : Obligations.ResetClearsEveryHostRegister := by
  refine ⟨fun s rest hp => ⟨_, step_reset hp, ?_⟩, ?_⟩ <;> and_intros <;> rfl

/-- Settles O59: hardware reset makes each invariant of the engine hold, and no host action is pending. -/
theorem resetMeetsTheInvariants : Obligations.ResetMeetsTheInvariants := by
  refine ⟨?_, ?_, ?_, ?_, rfl⟩ <;> rw [reset_eq_hardReset]
  · exact statusOk_kept.reset _
  · exact treeOk_kept.reset _
  · exact derivedOk_kept.reset _
  · exact freqOk_kept.reset _

/-! ## Accesses outside the hardware (R12, R48, R154) -/

theorem whenIdle_of_busy {s : State} (h : s.status.busy = true) (o : Outcome) : whenIdle s o = .refused .accessWhileBusy :=
  if_pos h

theorem whenAligned_of_unaligned {addr : BitVec 8} (h : addr.toNat % 4 ≠ 0) (o : Outcome) :
    whenAligned addr o = .refused .unalignedAccess :=
  if_neg (by simpa [aligned] using h)

/-- R12, R154: a register access, a write or a read, is made by an idle engine and at an aligned address. -/
theorem step_access {s : State} {addr : BitVec 8} {v : Word} {rest : List HostAction}
    (hp : s.program = .wr addr v :: rest ∨ s.program = .rd addr :: rest) :
    ∃ o, step s = whenIdle (takeAction rest s) (whenAligned addr o) := by
  rcases hp with hp | hp <;> exact ⟨_, by rw [step_of_program hp, perform]⟩

/-- Settles O10: the engine must be idle for the access, and then the address aligned. -/
theorem accessesOutsideTheHardwareAreRefused : Obligations.AccessesOutsideTheHardwareAreRefused := by
  intro s addr v rest hp
  obtain ⟨o, ho⟩ := step_access hp
  refine ⟨fun hb => ?_, fun hi ha => ?_⟩
  · rw [ho]
    exact whenIdle_of_busy hb _
  · rw [ho, whenAligned_of_unaligned ha]
    exact whenIdle_of_idle hi _

end Sys2Proof.Machine
